-- ==== Sys2Proof/Word.lean ====
section
/-! DEFINITION. The two word types of the machine: an 8-bit datum (A, X, Y, SP, P, every memory byte) and a 16-bit
address (PC, every bus address). 00_scope rules R5, R8. -/

namespace Sys2Proof

/-- A datum, a register or a memory byte: `XLEN = 8` (00_scope R5). -/
abbrev Byte := BitVec 8

/-- An address or the program counter: `ALEN = 16` (00_scope R5). -/
abbrev Addr := BitVec 16

end Sys2Proof
end

