-- ==== Sys2Proof/Machine/Bits.lean ====
section
/-! DEFINITION. The width helpers of 00_scope rules R8 and R10: halves of an address, concatenation, extension, and the
increment that stays inside a page. -/

namespace Sys2Proof.Machine

/-- `lo(w)`: bits 7..0 (R10). -/
def loByte (w : Addr) : Byte := w.extractLsb' 0 8

/-- `hi(w)`, also `page(w)`: bits 15..8 (R10). -/
def hiByte (w : Addr) : Byte := w.extractLsb' 8 8

/-- `{h, l}`: h in the more significant position (R8). -/
def mkAddr (h l : Byte) : Addr := h ++ l

/-- `zext_16(v)` (R10): an address in page 0. -/
def zext16 (v : Byte) : Addr := v.setWidth 16

/-- `sext_16(v)` (R10), used by relative branches only. -/
def sext16 (v : Byte) : Addr := v.signExtend 16

/-- The next address in the same page: `{hi(w), (lo(w) + 1) mod 256}` (20 R55). -/
def nextInPage (w : Addr) : Addr := mkAddr (hiByte w) (loByte w + 1)

end Sys2Proof.Machine
end

