-- ==== Sys2Proof/AddrMode.lean ====
section
/-! DEFINITION. The addressing modes: the "closed tagged-variant enum" of thirteen tags (40 rule R110), each carrying the
operand bytes that follow the opcode (30 rule R83). -/

namespace Sys2Proof

/-- The thirteen mode tags of 40 rule R110, with their operand: `d8` the byte at `pc0 + 1`, `a16` the little-endian
word at `pc0 + 1`, `pc0 + 2` (00_scope R13). -/
inductive AddrMode where
  /-- Immediate, `#` (R111). -/
  | imm (d8 : Byte)
  /-- ZeroPage (R112). -/
  | zp (d8 : Byte)
  /-- ZeroPage,X (R113). -/
  | zpX (d8 : Byte)
  /-- ZeroPage,Y (R114). -/
  | zpY (d8 : Byte)
  /-- Absolute (R115). -/
  | abs (a16 : Addr)
  /-- Absolute,X (R116). -/
  | absX (a16 : Addr)
  /-- Absolute,Y (R117). -/
  | absY (a16 : Addr)
  /-- Indirect,X, written `(zp,X)` (R118). -/
  | indX (d8 : Byte)
  /-- Indirect,Y, written `(zp),Y` (R119). -/
  | indY (d8 : Byte)
  /-- Indirect, written `(abs)`, JMP only (R120). -/
  | ind (a16 : Addr)
  /-- Accumulator (R121). -/
  | acc
  /-- Implied (R122). -/
  | impl
  /-- Relative, the conditional branches (R123). -/
  | rel (d8 : Byte)
  deriving DecidableEq, Repr

end Sys2Proof
end

