-- ==== Sys2Proof/Syntax.lean ====
section
/-! DEFINITION. The instructions. One constructor per instruction rule of files 41 to 46; where the opcode table gives a
mnemonic several rows, one a mode, the mode with its operand bytes is the constructor's argument, so that each of the
256 rows of spec/opcode_table.json is one constructor at one mode (assumption log 17). Second encodings of one operation
(0xEB, 0x2B, 0xDA, 0xFA) have constructors of their own, so no opcode byte is lost. -/

namespace Sys2Proof

/-- An instruction as the decoder reads it: operation and operand (30 rules R84 to R92). -/
inductive Instr where
  -- Group 1, cc = 01 (R84; R150 to R158)
  | ora (m : AddrMode)
  | and (m : AddrMode)
  | eor (m : AddrMode)
  | adc (m : AddrMode)
  | sta (m : AddrMode)
  | lda (m : AddrMode)
  | cmp (m : AddrMode)
  | sbc (m : AddrMode)
  -- Group 2, cc = 10 (R85; R170 to R178)
  | asl (m : AddrMode)
  | rol (m : AddrMode)
  | lsr (m : AddrMode)
  | ror (m : AddrMode)
  | stx (m : AddrMode)
  | ldx (m : AddrMode)
  | dec (m : AddrMode)
  | inc (m : AddrMode)
  -- Group 3, cc = 00 (R86; R190 to R196)
  | bit (m : AddrMode)
  | jmpAbs (a16 : Addr)
  | jmpInd (a16 : Addr)
  | sty (m : AddrMode)
  | ldy (m : AddrMode)
  | cpy (m : AddrMode)
  | cpx (m : AddrMode)
  -- Conditional branches (R86; R197 to R205)
  | bpl (d8 : Byte)
  | bmi (d8 : Byte)
  | bvc (d8 : Byte)
  | bvs (d8 : Byte)
  | bcc (d8 : Byte)
  | bcs (d8 : Byte)
  | bne (d8 : Byte)
  | beq (d8 : Byte)
  -- Single-byte group 1, low nibble 8 (R87; R220 to R235)
  | php
  | clc
  | plp
  | sec
  | pha
  | cli
  | pla
  | sei
  | dey
  | tya
  | tay
  | clv
  | iny
  | cld
  | inx
  | sed
  -- Single-byte group 2, low nibble A (R88; R236 to R241)
  | txa
  | txs
  | tax
  | tsx
  | dex
  | nop
  /-- The unofficial NOP 0xDA (R88, R241). -/
  | nopDA
  /-- The unofficial NOP 0xFA (R88, R241). -/
  | nopFA
  -- Irregular opcodes (R89; R250 to R253)
  | brk
  | jsr (a16 : Addr)
  | rti
  | rts
  -- Illegal opcodes (R90; R260 to R274)
  | alr (d8 : Byte)
  /-- ANC, opcode 0x0B (R262). -/
  | anc0B (d8 : Byte)
  /-- ANC, opcode 0x2B (R262). -/
  | anc2B (d8 : Byte)
  | arr (d8 : Byte)
  | axs (d8 : Byte)
  | lax (m : AddrMode)
  | sax (m : AddrMode)
  | sha (m : AddrMode)
  /-- The second encoding of SBC Immediate, opcode 0xEB (R268). -/
  | sbcEB (d8 : Byte)
  | dcp (m : AddrMode)
  | isc (m : AddrMode)
  | rla (m : AddrMode)
  | rra (m : AddrMode)
  | slo (m : AddrMode)
  | sre (m : AddrMode)
  /-- One of the 43 bytes with no decode path (R92). -/
  | undecoded (op : Byte)
  deriving DecidableEq, Repr

end Sys2Proof
end

