-- ==== Sys2Proof/WellFormed.lean ====
section
/-! DEFINITION. Which instructions an encoding exists for: the modes each operation has in the tables of 30_encoding rules
R84 to R90, and the 43 undecoded bytes of R92. Boolean, so that `decide` runs on it. -/

namespace Sys2Proof

/-- The eight submodes of group 1 (R84). -/
def AddrMode.inGroup1 : AddrMode → Bool
  | .indX _ | .zp _ | .imm _ | .abs _ | .indY _ | .zpX _ | .absY _ | .absX _ => true
  | .zpY _ | .ind _ | .acc | .impl | .rel _ => false

/-- STA's seven: group 1 without Immediate (R84, R155). -/
def AddrMode.inSta : AddrMode → Bool
  | .indX _ | .zp _ | .abs _ | .indY _ | .zpX _ | .absY _ | .absX _ => true
  | .imm _ | .zpY _ | .ind _ | .acc | .impl | .rel _ => false

/-- The shifts and rotates: Accumulator and four memory forms (R85). -/
def AddrMode.inShift : AddrMode → Bool
  | .acc | .zp _ | .zpX _ | .abs _ | .absX _ => true
  | .imm _ | .zpY _ | .absY _ | .indX _ | .indY _ | .ind _ | .impl | .rel _ => false

/-- DEC and INC: four memory forms (R85). -/
def AddrMode.inIncDec : AddrMode → Bool
  | .zp _ | .zpX _ | .abs _ | .absX _ => true
  | .imm _ | .zpY _ | .absY _ | .indX _ | .indY _ | .ind _ | .acc | .impl | .rel _ => false

/-- STX (R85, R175). -/
def AddrMode.inStx : AddrMode → Bool
  | .zp _ | .zpY _ | .abs _ => true
  | .imm _ | .zpX _ | .absX _ | .absY _ | .indX _ | .indY _ | .ind _ | .acc | .impl | .rel _ => false

/-- LDX (R85, R176). -/
def AddrMode.inLdx : AddrMode → Bool
  | .imm _ | .zp _ | .zpY _ | .abs _ | .absY _ => true
  | .zpX _ | .absX _ | .indX _ | .indY _ | .ind _ | .acc | .impl | .rel _ => false

/-- BIT (R86, R190). -/
def AddrMode.inBit : AddrMode → Bool
  | .zp _ | .abs _ => true
  | .imm _ | .zpX _ | .zpY _ | .absX _ | .absY _ | .indX _ | .indY _ | .ind _ | .acc | .impl | .rel _ => false

/-- STY (R86, R193). -/
def AddrMode.inSty : AddrMode → Bool
  | .zp _ | .zpX _ | .abs _ => true
  | .imm _ | .zpY _ | .absX _ | .absY _ | .indX _ | .indY _ | .ind _ | .acc | .impl | .rel _ => false

/-- LDY (R86, R194). -/
def AddrMode.inLdy : AddrMode → Bool
  | .imm _ | .zp _ | .zpX _ | .abs _ | .absX _ => true
  | .zpY _ | .absY _ | .indX _ | .indY _ | .ind _ | .acc | .impl | .rel _ => false

/-- CPX and CPY (R86, R195, R196). -/
def AddrMode.inCompareIndex : AddrMode → Bool
  | .imm _ | .zp _ | .abs _ => true
  | .zpX _ | .zpY _ | .absX _ | .absY _ | .indX _ | .indY _ | .ind _ | .acc | .impl | .rel _ => false

/-- LAX (R90, R265). -/
def AddrMode.inLax : AddrMode → Bool
  | .zp _ | .zpY _ | .abs _ | .absY _ | .indX _ | .indY _ => true
  | .imm _ | .zpX _ | .absX _ | .ind _ | .acc | .impl | .rel _ => false

/-- SAX (R90, R266). -/
def AddrMode.inSax : AddrMode → Bool
  | .zp _ | .zpY _ | .abs _ | .indX _ => true
  | .imm _ | .zpX _ | .absX _ | .absY _ | .indY _ | .ind _ | .acc | .impl | .rel _ => false

/-- SHA (R90, R267). -/
def AddrMode.inSha : AddrMode → Bool
  | .absY _ | .indY _ => true
  | .imm _ | .zp _ | .zpX _ | .zpY _ | .abs _ | .absX _ | .indX _ | .ind _ | .acc | .impl | .rel _ => false

/-- The illegal read-modify-write family DCP, ISC, RLA, RRA, SLO, SRE (R90, R260 c). -/
def AddrMode.inIllegalRmw : AddrMode → Bool
  | .zp _ | .zpX _ | .abs _ | .absX _ | .absY _ | .indX _ | .indY _ => true
  | .imm _ | .zpY _ | .ind _ | .acc | .impl | .rel _ => false

/-- The 43 opcode bytes with no decode path, in the order of R92's table. -/
def undecodedBytes : List Byte :=
  [0x02, 0x12, 0x22, 0x32, 0x42, 0x52, 0x62, 0x72, 0x92, 0xB2, 0xD2, 0xF2] ++
  [0x1A, 0x3A, 0x5A, 0x7A] ++ [0x80, 0x82, 0x89, 0xC2, 0xE2] ++ [0x04, 0x44, 0x64] ++
  [0x14, 0x34, 0x54, 0x74, 0xD4, 0xF4] ++ [0x0C] ++ [0x1C, 0x3C, 0x5C, 0x7C, 0xDC, 0xFC] ++
  [0x8B, 0xAB, 0x9B, 0x9C, 0x9E, 0xBB]

/-- An instruction some byte sequence encodes. -/
def Instr.wf : Instr → Bool
  | .ora m | .and m | .eor m | .adc m | .lda m | .cmp m | .sbc m => m.inGroup1
  | .sta m => m.inSta
  | .asl m | .rol m | .lsr m | .ror m => m.inShift
  | .stx m => m.inStx
  | .ldx m => m.inLdx
  | .dec m | .inc m => m.inIncDec
  | .bit m => m.inBit
  | .sty m => m.inSty
  | .ldy m => m.inLdy
  | .cpy m | .cpx m => m.inCompareIndex
  | .lax m => m.inLax
  | .sax m => m.inSax
  | .sha m => m.inSha
  | .dcp m | .isc m | .rla m | .rra m | .slo m | .sre m => m.inIllegalRmw
  | .undecoded op => undecodedBytes.contains op
  | .jmpAbs _ | .jmpInd _ | .jsr _ => true
  | .bpl _ | .bmi _ | .bvc _ | .bvs _ | .bcc _ | .bcs _ | .bne _ | .beq _ => true
  | .php | .clc | .plp | .sec | .pha | .cli | .pla | .sei | .dey | .tya | .tay | .clv | .iny | .cld | .inx | .sed => true
  | .txa | .txs | .tax | .tsx | .dex | .nop | .nopDA | .nopFA | .brk | .rti | .rts => true
  | .alr _ | .anc0B _ | .anc2B _ | .arr _ | .axs _ | .sbcEB _ => true

end Sys2Proof
end

