-- ==== Sys2Proof/Decode.lean ====
section
/-! DEFINITION. The decoder, total on any bytes, by the dispatch of 30_encoding rule R82, and after it the encoder, from the
tables of rules R84 to R90. Opcode numbers: decision D12. -/

namespace Sys2Proof

open Sys2Proof.Machine (loByte hiByte mkAddr)

/-! ### Modes, lengths and the decode record -/

/-- Instruction length by mode (30 R80, R93). -/
def AddrMode.length : AddrMode → Nat
  | .impl | .acc => 1
  | .imm _ | .zp _ | .zpX _ | .zpY _ | .indX _ | .indY _ | .rel _ => 2
  | .abs _ | .absX _ | .absY _ | .ind _ => 3

/-- The operand bytes of a mode, in ascending address order (30 R80, R83; 20 R53). -/
def AddrMode.operandBytes : AddrMode → List Byte
  | .impl | .acc => []
  | .imm d | .zp d | .zpX d | .zpY d | .indX d | .indY d | .rel d => [d]
  | .abs w | .absX w | .absY w | .ind w => [loByte w, hiByte w]

/-- The addressing mode of the decode record (30 R80: "a fixed triple"). An undecoded byte has none; it is given
Implied, since nothing but the byte itself is fetched (R92). -/
def Instr.mode : Instr → AddrMode
  | .ora m | .and m | .eor m | .adc m | .sta m | .lda m | .cmp m | .sbc m => m
  | .asl m | .rol m | .lsr m | .ror m | .stx m | .ldx m | .dec m | .inc m => m
  | .bit m | .sty m | .ldy m | .cpy m | .cpx m => m
  | .lax m | .sax m | .sha m | .dcp m | .isc m | .rla m | .rra m | .slo m | .sre m => m
  | .jmpAbs w | .jsr w => .abs w
  | .jmpInd w => .ind w
  | .bpl d | .bmi d | .bvc d | .bvs d | .bcc d | .bcs d | .bne d | .beq d => .rel d
  | .alr d | .anc0B d | .anc2B d | .arr d | .axs d | .sbcEB d => .imm d
  | .php | .clc | .plp | .sec | .pha | .cli | .pla | .sei | .dey | .tya | .tay | .clv | .iny | .cld | .inx | .sed => .impl
  | .txa | .txs | .tax | .tsx | .dex | .nop | .nopDA | .nopFA | .brk | .rti | .rts | .undecoded _ => .impl

/-- Instruction length in bytes (30 R93). -/
def Instr.length (i : Instr) : Nat := i.mode.length

/-! ### The dispatch -/

/-- The submodes of group 1 keyed by `bbb` (R84). -/
def group1Mode (bbb : Nat) (d : Byte) (w : Addr) : AddrMode :=
  match bbb with
  | 0 => .indX d
  | 1 => .zp d
  | 2 => .imm d
  | 3 => .abs w
  | 4 => .indY d
  | 5 => .zpX d
  | 6 => .absY w
  | _ => .absX w

/-- Group 1, `cc == 01` (R84): operation by `aaa`, mode by `bbb`; STA has no Immediate. -/
def decodeGroup1 (op : Byte) (aaa bbb : Nat) (d : Byte) (w : Addr) : Instr :=
  let m := group1Mode bbb d w
  match aaa with
  | 0 => .ora m
  | 1 => .and m
  | 2 => .eor m
  | 3 => .adc m
  | 4 => if bbb = 2 then .undecoded op else .sta m
  | 5 => .lda m
  | 6 => .cmp m
  | _ => .sbc m

/-- The shifts and rotates, and DEC and INC, by `bbb` (R85); `hasAcc` admits the Accumulator form. -/
def group2Mode (hasAcc : Bool) (bbb : Nat) (d : Byte) (w : Addr) : Option AddrMode :=
  match bbb with
  | 1 => some (.zp d)
  | 2 => if hasAcc then some .acc else none
  | 3 => some (.abs w)
  | 5 => some (.zpX d)
  | 7 => some (.absX w)
  | _ => none

/-- STX by `bbb` (R85): ZeroPage,Y, and no Absolute,Y. -/
def stxMode (bbb : Nat) (d : Byte) (w : Addr) : Option AddrMode :=
  match bbb with
  | 1 => some (.zp d)
  | 3 => some (.abs w)
  | 5 => some (.zpY d)
  | _ => none

/-- LDX by `bbb` (R85): Immediate, and Y as index. -/
def ldxMode (bbb : Nat) (d : Byte) (w : Addr) : Option AddrMode :=
  match bbb with
  | 0 => some (.imm d)
  | 1 => some (.zp d)
  | 3 => some (.abs w)
  | 5 => some (.zpY d)
  | 7 => some (.absY w)
  | _ => none

/-- An operation at the mode its group's table lists, or no decode path (R82 line 7). -/
def atMode (op : Byte) (f : AddrMode → Instr) (m : Option AddrMode) : Instr :=
  match m with
  | some m => f m
  | none => .undecoded op

/-- Group 2, `cc == 10` (R85). -/
def decodeGroup2 (op : Byte) (aaa bbb : Nat) (d : Byte) (w : Addr) : Instr :=
  match aaa with
  | 0 => atMode op .asl (group2Mode true bbb d w)
  | 1 => atMode op .rol (group2Mode true bbb d w)
  | 2 => atMode op .lsr (group2Mode true bbb d w)
  | 3 => atMode op .ror (group2Mode true bbb d w)
  | 4 => atMode op .stx (stxMode bbb d w)
  | 5 => atMode op .ldx (ldxMode bbb d w)
  | 6 => atMode op .dec (group2Mode false bbb d w)
  | _ => atMode op .inc (group2Mode false bbb d w)

/-- BIT by `bbb` (R86). -/
def bitMode (bbb : Nat) (d : Byte) (w : Addr) : Option AddrMode :=
  match bbb with
  | 1 => some (.zp d)
  | 3 => some (.abs w)
  | _ => none

/-- STY by `bbb` (R86). -/
def styMode (bbb : Nat) (d : Byte) (w : Addr) : Option AddrMode :=
  match bbb with
  | 1 => some (.zp d)
  | 3 => some (.abs w)
  | 5 => some (.zpX d)
  | _ => none

/-- LDY by `bbb` (R86). -/
def ldyMode (bbb : Nat) (d : Byte) (w : Addr) : Option AddrMode :=
  match bbb with
  | 0 => some (.imm d)
  | 1 => some (.zp d)
  | 3 => some (.abs w)
  | 5 => some (.zpX d)
  | 7 => some (.absX w)
  | _ => none

/-- CPY and CPX by `bbb` (R86). -/
def compareIndexMode (bbb : Nat) (d : Byte) (w : Addr) : Option AddrMode :=
  match bbb with
  | 0 => some (.imm d)
  | 1 => some (.zp d)
  | 3 => some (.abs w)
  | _ => none

/-- Group 3, `cc == 00` and `bbb` not 100 (R86). -/
def decodeGroup3 (op : Byte) (aaa bbb : Nat) (d : Byte) (w : Addr) : Instr :=
  match aaa with
  | 1 => atMode op .bit (bitMode bbb d w)
  | 2 => if bbb = 3 then .jmpAbs w else .undecoded op
  | 3 => if bbb = 3 then .jmpInd w else .undecoded op
  | 4 => atMode op .sty (styMode bbb d w)
  | 5 => atMode op .ldy (ldyMode bbb d w)
  | 6 => atMode op .cpy (compareIndexMode bbb d w)
  | 7 => atMode op .cpx (compareIndexMode bbb d w)
  | _ => .undecoded op

/-- The conditional branches, `cc == 00` and `bbb == 100`, keyed by `aaa` (R86). -/
def decodeBranch (aaa : Nat) (d : Byte) : Instr :=
  match aaa with
  | 0 => .bpl d
  | 1 => .bmi d
  | 2 => .bvc d
  | 3 => .bvs d
  | 4 => .bcc d
  | 5 => .bcs d
  | 6 => .bne d
  | _ => .beq d

/-- Single-byte group 1, low nibble 8, keyed by the high nibble (R87). -/
def decodeSingle1 (hn : Nat) : Instr :=
  match hn with
  | 0x0 => .php
  | 0x1 => .clc
  | 0x2 => .plp
  | 0x3 => .sec
  | 0x4 => .pha
  | 0x5 => .cli
  | 0x6 => .pla
  | 0x7 => .sei
  | 0x8 => .dey
  | 0x9 => .tya
  | 0xA => .tay
  | 0xB => .clv
  | 0xC => .iny
  | 0xD => .cld
  | 0xE => .inx
  | _ => .sed

/-- Single-byte group 2, low nibble A and high nibble at least 8 (R88). -/
def decodeSingle2 (hn : Nat) : Instr :=
  match hn with
  | 0x8 => .txa
  | 0x9 => .txs
  | 0xA => .tax
  | 0xB => .tsx
  | 0xC => .dex
  | 0xD => .nopDA
  | 0xE => .nop
  | _ => .nopFA

/-- The irregular and illegal opcodes, "matched by exact opcode value" (R82 line 1, R89, R90). -/
def decodeExact (op : Nat) (d : Byte) (w : Addr) : Option Instr :=
  match op with
  -- irregular (R89)
  | 0x00 => some .brk
  | 0x20 => some (.jsr w)
  | 0x40 => some .rti
  | 0x60 => some .rts
  -- illegal (R90)
  | 0x4B => some (.alr d)
  | 0x0B => some (.anc0B d)
  | 0x2B => some (.anc2B d)
  | 0x6B => some (.arr d)
  | 0xCB => some (.axs d)
  | 0xA7 => some (.lax (.zp d))
  | 0xB7 => some (.lax (.zpY d))
  | 0xAF => some (.lax (.abs w))
  | 0xBF => some (.lax (.absY w))
  | 0xA3 => some (.lax (.indX d))
  | 0xB3 => some (.lax (.indY d))
  | 0x87 => some (.sax (.zp d))
  | 0x97 => some (.sax (.zpY d))
  | 0x8F => some (.sax (.abs w))
  | 0x83 => some (.sax (.indX d))
  | 0x9F => some (.sha (.absY w))
  | 0x93 => some (.sha (.indY d))
  | 0xEB => some (.sbcEB d)
  | 0xC7 => some (.dcp (.zp d))
  | 0xD7 => some (.dcp (.zpX d))
  | 0xCF => some (.dcp (.abs w))
  | 0xDF => some (.dcp (.absX w))
  | 0xDB => some (.dcp (.absY w))
  | 0xC3 => some (.dcp (.indX d))
  | 0xD3 => some (.dcp (.indY d))
  | 0xE7 => some (.isc (.zp d))
  | 0xF7 => some (.isc (.zpX d))
  | 0xEF => some (.isc (.abs w))
  | 0xFF => some (.isc (.absX w))
  | 0xFB => some (.isc (.absY w))
  | 0xE3 => some (.isc (.indX d))
  | 0xF3 => some (.isc (.indY d))
  | 0x27 => some (.rla (.zp d))
  | 0x37 => some (.rla (.zpX d))
  | 0x2F => some (.rla (.abs w))
  | 0x3F => some (.rla (.absX w))
  | 0x3B => some (.rla (.absY w))
  | 0x23 => some (.rla (.indX d))
  | 0x33 => some (.rla (.indY d))
  | 0x67 => some (.rra (.zp d))
  | 0x77 => some (.rra (.zpX d))
  | 0x6F => some (.rra (.abs w))
  | 0x7F => some (.rra (.absX w))
  | 0x7B => some (.rra (.absY w))
  | 0x63 => some (.rra (.indX d))
  | 0x73 => some (.rra (.indY d))
  | 0x07 => some (.slo (.zp d))
  | 0x17 => some (.slo (.zpX d))
  | 0x0F => some (.slo (.abs w))
  | 0x1F => some (.slo (.absX w))
  | 0x1B => some (.slo (.absY w))
  | 0x03 => some (.slo (.indX d))
  | 0x13 => some (.slo (.indY d))
  | 0x47 => some (.sre (.zp d))
  | 0x57 => some (.sre (.zpX d))
  | 0x4F => some (.sre (.abs w))
  | 0x5F => some (.sre (.absX w))
  | 0x5B => some (.sre (.absY w))
  | 0x43 => some (.sre (.indX d))
  | 0x53 => some (.sre (.indY d))
  | _ => none

/-- `Decode` of an opcode byte with its operand bytes (R82, in its priority order; R81's fields). `b1`, `b2` are the bytes
that follow the opcode; the mode decides how many of them are read, and the others change nothing. Total: a byte with no
decode path is `undecoded`, whose meaning is the fatal condition of R92. -/
def decodeOp (op b1 b2 : Byte) : Instr :=
  let w := mkAddr b2 b1
  match decodeExact op.toNat b1 w with
  | some i => i
  | none =>
    let hn := (op >>> 4).toNat
    let ln := (op &&& 0x0F).toNat
    let aaa := (op >>> 5).toNat
    let bbb := ((op >>> 2) &&& 0x07).toNat
    let cc := (op &&& 0x03).toNat
    if ln = 0x8 then decodeSingle1 hn
    else if ln = 0xA ∧ 0x8 ≤ hn then decodeSingle2 hn
    else if cc = 1 then decodeGroup1 op aaa bbb b1 w
    else if cc = 2 then decodeGroup2 op aaa bbb b1 w
    else if cc = 0 then (if bbb = 4 then decodeBranch aaa b1 else decodeGroup3 op aaa bbb b1 w)
    else .undecoded op

/-- The length an opcode byte alone determines (R80, R93). -/
def opcodeLength (op : Byte) : Nat := (decodeOp op 0 0).length

/-- Why a byte sequence is rejected. An undecoded opcode is no rejection: it decodes to `Instr.undecoded`. -/
inductive DecodeError where
  /-- No byte at all. -/
  | empty
  /-- The opcode is there and an operand byte it needs is not. -/
  | truncated (op : Byte)
  deriving DecidableEq, Repr

/-- The decoder on a byte sequence: the instruction and the bytes after it, or the reason there is none (R93). -/
def decode : List Byte → Except DecodeError (Instr × List Byte)
  | [] => .error .empty
  | op :: rest =>
    if rest.length < opcodeLength op - 1 then .error (.truncated op)
    else .ok (decodeOp op (rest.getD 0 0) (rest.getD 1 0), rest.drop (opcodeLength op - 1))

/-- The instruction whose bits are `w`, numbered as spec/opcode_table.json numbers them: byte 0 in bits 7..0, the next
byte in bits 15..8, then bits 23..16; the bits above `nbits` are 0 (30 R80, R96). -/
def decodeTableWord (nbits w : Nat) : Option Instr :=
  let v := w % 2 ^ nbits
  match decode [BitVec.ofNat 8 v, BitVec.ofNat 8 (v / 256), BitVec.ofNat 8 (v / 65536)] with
  | .ok (i, _) => some i
  | .error _ => none

/-! ### The encoder -/

/-- `op = aaa * 32 + bbb * 4 + cc` (R81). -/
def matrixByte (aaa bbb cc : Nat) : Byte := BitVec.ofNat 8 (aaa * 32 + bbb * 4 + cc)

/-- The `bbb` column of a mode in group 1, and in the illegal opcodes that follow group 1's table with X as index (R84,
R90). -/
def AddrMode.column : AddrMode → Option Nat
  | .indX _ => some 0
  | .zp _ => some 1
  | .imm _ => some 2
  | .abs _ => some 3
  | .indY _ => some 4
  | .zpX _ => some 5
  | .absY _ => some 6
  | .absX _ => some 7
  | .zpY _ | .ind _ | .acc | .impl | .rel _ => none

/-- The column of a group 2 or group 3 mode (R85, R86): Immediate 0, ZeroPage 1, Accumulator 2, Absolute 3, the indexed
zero-page mode 5, the indexed absolute mode 7. -/
def AddrMode.column23 : AddrMode → Option Nat
  | .imm _ => some 0
  | .zp _ => some 1
  | .acc => some 2
  | .abs _ => some 3
  | .zpX _ | .zpY _ => some 5
  | .absX _ | .absY _ => some 7
  | .indX _ | .indY _ | .ind _ | .impl | .rel _ => none

/-- The column of LAX and SAX, where Y replaces X as the index (R90). -/
def AddrMode.columnY : AddrMode → Option Nat
  | .indX _ => some 0
  | .zp _ => some 1
  | .abs _ => some 3
  | .indY _ => some 4
  | .zpY _ => some 5
  | .absY _ => some 7
  | .imm _ | .zpX _ | .absX _ | .ind _ | .acc | .impl | .rel _ => none

/-- The opcode byte at a column, where the mode is one the operation has. -/
def opcodeAt (legal : Bool) (aaa cc : Nat) (bbb : Option Nat) : Option Byte :=
  if legal then bbb.map fun b => matrixByte aaa b cc else none

/-- The opcode byte of an instruction, none where it has no encoding (R84 to R90, R92). -/
def Instr.opcode : Instr → Option Byte
  | .ora m => opcodeAt m.inGroup1 0 1 m.column
  | .and m => opcodeAt m.inGroup1 1 1 m.column
  | .eor m => opcodeAt m.inGroup1 2 1 m.column
  | .adc m => opcodeAt m.inGroup1 3 1 m.column
  | .sta m => opcodeAt m.inSta 4 1 m.column
  | .lda m => opcodeAt m.inGroup1 5 1 m.column
  | .cmp m => opcodeAt m.inGroup1 6 1 m.column
  | .sbc m => opcodeAt m.inGroup1 7 1 m.column
  | .asl m => opcodeAt m.inShift 0 2 m.column23
  | .rol m => opcodeAt m.inShift 1 2 m.column23
  | .lsr m => opcodeAt m.inShift 2 2 m.column23
  | .ror m => opcodeAt m.inShift 3 2 m.column23
  | .stx m => opcodeAt m.inStx 4 2 m.column23
  | .ldx m => opcodeAt m.inLdx 5 2 m.column23
  | .dec m => opcodeAt m.inIncDec 6 2 m.column23
  | .inc m => opcodeAt m.inIncDec 7 2 m.column23
  | .bit m => opcodeAt m.inBit 1 0 m.column23
  | .jmpAbs _ => some 0x4C
  | .jmpInd _ => some 0x6C
  | .sty m => opcodeAt m.inSty 4 0 m.column23
  | .ldy m => opcodeAt m.inLdy 5 0 m.column23
  | .cpy m => opcodeAt m.inCompareIndex 6 0 m.column23
  | .cpx m => opcodeAt m.inCompareIndex 7 0 m.column23
  | .bpl _ => some 0x10
  | .bmi _ => some 0x30
  | .bvc _ => some 0x50
  | .bvs _ => some 0x70
  | .bcc _ => some 0x90
  | .bcs _ => some 0xB0
  | .bne _ => some 0xD0
  | .beq _ => some 0xF0
  | .php => some 0x08
  | .clc => some 0x18
  | .plp => some 0x28
  | .sec => some 0x38
  | .pha => some 0x48
  | .cli => some 0x58
  | .pla => some 0x68
  | .sei => some 0x78
  | .dey => some 0x88
  | .tya => some 0x98
  | .tay => some 0xA8
  | .clv => some 0xB8
  | .iny => some 0xC8
  | .cld => some 0xD8
  | .inx => some 0xE8
  | .sed => some 0xF8
  | .txa => some 0x8A
  | .txs => some 0x9A
  | .tax => some 0xAA
  | .tsx => some 0xBA
  | .dex => some 0xCA
  | .nopDA => some 0xDA
  | .nop => some 0xEA
  | .nopFA => some 0xFA
  | .brk => some 0x00
  | .jsr _ => some 0x20
  | .rti => some 0x40
  | .rts => some 0x60
  | .alr _ => some 0x4B
  | .anc0B _ => some 0x0B
  | .anc2B _ => some 0x2B
  | .arr _ => some 0x6B
  | .axs _ => some 0xCB
  | .sbcEB _ => some 0xEB
  | .slo m => opcodeAt m.inIllegalRmw 0 3 m.column
  | .rla m => opcodeAt m.inIllegalRmw 1 3 m.column
  | .sre m => opcodeAt m.inIllegalRmw 2 3 m.column
  | .rra m => opcodeAt m.inIllegalRmw 3 3 m.column
  | .sax m => opcodeAt m.inSax 4 3 m.columnY
  | .lax m => opcodeAt m.inLax 5 3 m.columnY
  | .dcp m => opcodeAt m.inIllegalRmw 6 3 m.column
  | .isc m => opcodeAt m.inIllegalRmw 7 3 m.column
  | .sha m =>
    match m with
    | .absY _ => some 0x9F
    | .indY _ => some 0x93
    | .imm _ | .zp _ | .zpX _ | .zpY _ | .abs _ | .absX _ | .indX _ | .ind _ | .acc | .impl | .rel _ => none
  | .undecoded op => if undecodedBytes.contains op then some op else none

/-- The bytes of a well-formed instruction, opcode first (R80); no bytes for a form that has no encoding. -/
def encode (i : Instr) : List Byte :=
  match i.opcode with
  | some op => op :: i.mode.operandBytes
  | none => []

end Sys2Proof
end

