-- ==== Sys2Proof/Machine/Memory.lean ====
section
/-! DEFINITION. The 65536 bytes behind the bus, as FlatRAM64K holds them (20_memory rules R50, R67): a list of cells in one
canonical form, addresses strictly rising, no cell equal to what an unlisted address reads as. -/

namespace Sys2Proof.Machine

/-- Memory as data: the bytes that differ from `Memory.unlisted`. -/
abbrev Memory := List Host.Cell

/-- What an address with no cell reads as: 0x00, FlatRAM64K's initial content (R67).
DESIGN CHOICE, unsafe: the content of RAM at power-on is the platform's (R341, D29); assumption log 2. -/
def Memory.unlisted : Byte := 0x00

/-- The byte at an address. -/
def Memory.get : Memory → Nat → Byte
  | [], _ => Memory.unlisted
  | (a, v) :: rest, k => if a = k then v else Memory.get rest k

/-- Memory without the cells of an address. -/
def Memory.erase : Memory → Nat → Memory
  | [], _ => []
  | (a, v) :: rest, k => if a = k then Memory.erase rest k else (a, v) :: Memory.erase rest k

/-- A new cell at its place in the order. -/
def Memory.insert : Memory → Nat → Byte → Memory
  | [], k, v => [(k, v)]
  | (a, w) :: rest, k, v => if k < a then (k, v) :: (a, w) :: rest else (a, w) :: Memory.insert rest k v

/-- The write `mem[k] <- v` (R67): the canonical form is kept, so writing the unlisted value removes the cell. -/
def Memory.set (m : Memory) (k : Nat) (v : Byte) : Memory :=
  if v = Memory.unlisted then Memory.erase m k else Memory.insert (Memory.erase m k) k v

/-- Canonical form, from a least address on: strictly rising addresses below 65536, no cell at the unlisted value. -/
def Memory.wfFrom : Nat → Memory → Bool
  | _, [] => true
  | lo, (a, v) :: rest => decide (lo ≤ a) && decide (a < 65536) && decide (v ≠ Memory.unlisted) && Memory.wfFrom (a + 1) rest

/-- The canonical form of a memory. -/
def Memory.wf (m : Memory) : Bool := Memory.wfFrom 0 m

/-- The word whose low byte is at `a` and high byte at the next address modulo 65536, without the bus events
(`MemRead16`, R11, R55). -/
def Memory.word (m : Memory) (a : Addr) : Addr := mkAddr (m.get (a + 1).toNat) (m.get a.toNat)

end Sys2Proof.Machine
end

