-- ==== Sys2Proof/Config.lean ====
section
/-! DEFINITION. The parameters of 00_scope rule R5 as named fields: those the spec decides or leaves OPEN, and the fixed reset
values, the cycle table and the flag positions with them. The widths, the page and the address space are the types of
Word.lean. The values are the spec's, given by `Sys2Proof.Machine.config` (Machine/Params.lean); assumption log 10. -/

namespace Sys2Proof

/-- The eight flags, by the letters of 10 R26. -/
inductive Flag where
  | C | Z | I | D | B | U | V | N
  deriving DecidableEq, Repr

/-- The two treatments of the Break and Break2 bits when PLP or RTI restore the flags (93 U4, decision D4). -/
inductive FlagRestore where
  /-- Force bit 5 to 1 and keep the live bit 4: the spec's choice. -/
  | keepLiveBForceU
  /-- The popped byte becomes P as it is: the alternative the spec records. -/
  | truncate
  deriving DecidableEq, Repr

/-- What is behind the memory port, as data (20 R51, R52). FlatRAM64K has the first three; another bus keeps what its devices
hold in the fourth. Assumption log 1. -/
structure BusState where
  /-- The bytes of plain memory. -/
  mem : Machine.Memory
  /-- The pending NMI flag (60 R305). -/
  nmiPending : Bool
  /-- The running total of the tick arguments (20 R67). -/
  ticks : Nat
  /-- Anything else a bus holds (device registers, a script of answers), as numbers. -/
  device : List Nat
  deriving DecidableEq, Repr

/-- An implementation of the bus contract (20 R51): the four calls, each with the answer and what the bus is afterwards. A read
always answers a byte: there is no bus error. -/
structure Bus where
  /-- `read(addr: u16) -> u8`; a device may change by being read (20 R56). -/
  read : BusState → Addr → Byte × BusState
  /-- `write(addr: u16, value: u8)`. -/
  write : BusState → Addr → Byte → BusState
  /-- `tick(cycles)`; the frame-complete answer is not used by the core (00 R7). -/
  tick : BusState → Nat → BusState
  /-- `poll_nmi()`: the pending flag, consumed. -/
  pollNmi : BusState → Bool × BusState

/-- What one implementation fixes (00_scope R5). -/
structure Config where
  /-- High byte of every stack address. -/
  stackPage : Byte
  /-- Address of the NMI vector's low byte. -/
  vecNmi : Addr
  /-- Address of the reset vector's low byte. -/
  vecReset : Addr
  /-- Address of the BRK vector's low byte. -/
  vecBrk : Addr
  /-- A after reset. -/
  aReset : Byte
  /-- X after reset. -/
  xReset : Byte
  /-- Y after reset. -/
  yReset : Byte
  /-- SP after reset. -/
  spReset : Byte
  /-- P after reset. -/
  pReset : Byte
  /-- Bit position of each flag in P. -/
  flagBit : Flag → Nat
  /-- Base cycle count of each opcode byte. -/
  cyc : Byte → Nat
  /-- The fixed interrupt-latency cycle cost (OPEN). -/
  nmiCycles : Nat
  /-- Whether BRK with I set ends the run. -/
  brkHalt : Bool
  /-- Whether a pop that carries SP past its reset value ends the run: the test-harness guard (decision D5, 93 U5). -/
  spOverflowHalt : Bool
  /-- Break-bit handling of PLP and RTI. -/
  flagRestore : FlagRestore
  /-- Whether 0xDA and 0xFA are NOPs (false: fatal). -/
  nopDaFa : Bool
  /-- The value SHA stores, from A, X and the high byte of the base (OPEN function). -/
  shaValue : Byte → Byte → Byte → Byte
  /-- The platform behind the memory port (OPEN). -/
  bus : Bus

end Sys2Proof
end

