-- ==== Sys2Proof/Machine/Params.lean ====
section
/-! DEFINITION. The values of the parameters: the "value" column of 00_scope rule R5, with the cycle table of 70 rule R349 and
the reference bus of 20 rule R67. -/

namespace Sys2Proof.Machine

/-- Bit position in P (10 R26, decision D1). -/
def flagPosition : Flag → Nat
  | .C => 0
  | .Z => 1
  | .I => 2
  | .D => 3
  | .B => 4
  | .U => 5
  | .V => 6
  | .N => 7

/-- One row of R349's table, the sixteen opcodes of a high nibble; 0 stands for an undecoded byte. -/
def cycRow (hn : Nat) : List Nat :=
  match hn with
  | 0x0 => [7, 6, 0, 8, 0, 3, 5, 5, 3, 2, 2, 2, 0, 4, 6, 6]
  | 0x1 => [2, 5, 0, 8, 0, 4, 6, 6, 2, 4, 0, 7, 0, 4, 7, 7]
  | 0x2 => [6, 6, 0, 8, 3, 3, 5, 5, 4, 2, 2, 2, 4, 4, 6, 6]
  | 0x3 => [2, 5, 0, 8, 0, 4, 6, 6, 2, 4, 0, 7, 0, 4, 7, 7]
  | 0x4 => [6, 6, 0, 8, 0, 3, 5, 5, 3, 2, 2, 2, 3, 4, 6, 6]
  | 0x5 => [2, 5, 0, 8, 0, 4, 6, 6, 2, 4, 0, 7, 0, 4, 7, 7]
  | 0x6 => [6, 6, 0, 8, 0, 3, 5, 5, 4, 2, 2, 2, 5, 4, 6, 6]
  | 0x7 => [2, 5, 0, 8, 0, 4, 6, 6, 2, 4, 0, 7, 0, 4, 7, 7]
  | 0x8 => [0, 6, 0, 6, 3, 3, 3, 3, 2, 0, 2, 0, 4, 4, 4, 4]
  | 0x9 => [2, 6, 0, 6, 4, 4, 4, 4, 2, 5, 2, 0, 0, 5, 0, 5]
  | 0xA => [2, 6, 2, 6, 3, 3, 3, 3, 2, 2, 2, 0, 4, 4, 4, 4]
  | 0xB => [2, 5, 0, 5, 4, 4, 4, 4, 2, 4, 2, 0, 4, 4, 4, 4]
  | 0xC => [2, 6, 0, 8, 3, 3, 5, 5, 2, 2, 2, 2, 4, 4, 6, 6]
  | 0xD => [2, 5, 0, 8, 0, 4, 6, 6, 2, 4, 2, 7, 0, 4, 7, 7]
  | 0xE => [2, 6, 0, 8, 3, 3, 5, 5, 2, 2, 2, 2, 4, 4, 6, 6]
  | _ => [2, 5, 0, 8, 0, 4, 6, 6, 2, 4, 2, 7, 0, 4, 7, 7]

/-- `CYC(op)` (70 R349). -/
def cycTable (op : Byte) : Nat := (cycRow (op >>> 4).toNat).getD (op &&& 0x0F).toNat 0

/-- `FlatRAM64K` (20 R67): 65536 bytes of plain memory, a running total of ticks, a flag the poll clears; it never raises an
NMI by itself. -/
def flatRam64K : Bus where
  read b a := (b.mem.get a.toNat, b)
  write b a v := { b with mem := b.mem.set a.toNat v }
  tick b n := { b with ticks := b.ticks + n }
  pollNmi b := (b.nmiPending, { b with nmiPending := false })

/-- The spec's parameter values, the OPEN ones at their defaults (00_scope R5; assumption log 1, 10 and 11). -/
def config : Config where
  stackPage := 0x01
  vecNmi := 0xFFFA
  vecReset := 0xFFFC
  vecBrk := 0xFFFE
  aReset := 0x00
  xReset := 0x00
  yReset := 0x00
  spReset := 0xFD
  pReset := 0x24
  flagBit := flagPosition
  cyc := cycTable
  nmiCycles := 7
  brkHalt := true
  spOverflowHalt := false
  flagRestore := .keepLiveBForceU
  nopDaFa := true
  shaValue := fun a x baseHi => a &&& x &&& (baseHi + 1)
  bus := flatRam64K

end Sys2Proof.Machine
end

