-- ==== Sys2Proof/Machine/Cycles.lean ====
section
/-! DEFINITION. The cycle accountant (40 rules R130 to R134): `cyc = CYC(op) + penalties`, the base count from the parameter
`CYC` of 00 R5, the page-cross penalty in the read shape, the branch penalties here. -/

namespace Sys2Proof.Machine

/-- `CYC(op)`, the parameter (70 R349). -/
def cyc (op : Byte) : Nat := config.cyc op

/-- The base cycle count of an instruction, that of its opcode byte (40 R131); 0 for one that no byte encodes (assumption
log 12). -/
def baseCycles (i : Instr) : Nat :=
  match i.opcode with
  | some op => cyc op
  | none => 0

/-- What a taken branch costs above its base: 1, and 1 more when the target's page is not the next instruction's (R134). -/
def takenPenalty (next target : Addr) : Nat := 1 + (hiByte target != hiByte next).toNat

end Sys2Proof.Machine
end

