-- ==== Sys2Proof/Machine/Flags.lean ====
section
/-! DEFINITION. The status flags and every flag computation: 10_state rules R26 to R28, 40 R140 and R145, ADC_core and
Compare of 41, the shift and rotate functions of 42, the flags of ARR. All are functions of bytes; Ops.lean and the
family files apply them to the state. -/

namespace Sys2Proof.Machine

/-- Bit position in P, a parameter (10 R26, 00 R5). -/
def flagBit (f : Flag) : Nat := config.flagBit f

/-- `P.f` (00 R9). -/
def getFlag (f : Flag) (p : Byte) : Bool := p.getLsbD (flagBit f)

/-- `P.f <- b`: one bit written, the others left (00 R9). -/
def setFlag (f : Flag) (b : Bool) (p : Byte) : Byte :=
  if b then p ||| (1#8 <<< flagBit f) else p &&& ~~~(1#8 <<< flagBit f)

/-- `SetZN(v)` (40 R140). -/
def setZN (v : Byte) (p : Byte) : Byte := setFlag .N v.msb (setFlag .Z (v == 0) p)

/-- The byte PHP and BRK push: B and U set, `P | 0x30` at the spec's flag positions (R28). -/
def pushedByBreak (p : Byte) : Byte := setFlag .U true (setFlag .B true p)

/-- The byte NMI service pushes: B clear and U set, `(P & 0xEF) | 0x20` (R28). -/
def pushedByNmi (p : Byte) : Byte := setFlag .U true (setFlag .B false p)

/-- `RestoreFlags(v)` of PLP and RTI, by the parameter `PLP_RTI_BREAK`: `(v & 0xCF) | 0x20 | (P & 0x10)`, U forced and the live
B kept (40 R145). -/
def restoreFlags (v p : Byte) : Byte :=
  match config.flagRestore with
  | .keepLiveBForceU => setFlag .U true (setFlag .B (getFlag .B p) v)
  | .truncate => v

/-- The 9-bit sum of ADC_core, as a number from 0 to 511 (41 R154). -/
def adcSum (a m : Byte) (c : Bool) : Nat := a.toNat + m.toNat + c.toNat

/-- The 8-bit result of ADC_core. -/
def adcResult (a m : Byte) (c : Bool) : Byte := BitVec.ofNat 8 (adcSum a m c)

/-- The overflow of ADC_core: `((r ^ A) & (r ^ m) & 0x80) != 0` (41 R154). -/
def adcOverflow (a m : Byte) (c : Bool) : Bool :=
  let r := adcResult a m c
  (r ^^^ a) &&& (r ^^^ m) &&& 0x80 != 0

/-- P after ADC_core: C, V, then Z and N of the result (41 R154). -/
def adcFlags (a m : Byte) (p : Byte) : Byte :=
  let c := getFlag .C p
  setZN (adcResult a m c) (setFlag .V (adcOverflow a m c) (setFlag .C (decide (0xFF < adcSum a m c)) p))

/-- P after `Compare(reg, m)` (41 R157). -/
def compareFlags (reg m : Byte) (p : Byte) : Byte :=
  setFlag .N (reg - m).msb (setFlag .Z (reg == m) (setFlag .C (decide (m.toNat ≤ reg.toNat)) p))

/-- P after BIT: Z from `A & M`, V and N from bits 6 and 7 of M (43 R190). -/
def bitFlags (a m : Byte) (p : Byte) : Byte :=
  setFlag .N (m.getLsbD 7) (setFlag .V (m.getLsbD 6) (setFlag .Z (a &&& m == 0) p))

/-- The function of an operation on one byte: result and P, from the byte and P (42 R170). -/
abbrev ByteOp := Byte → Byte → Byte × Byte

/-- ASL (42 R171). -/
def aslOp : ByteOp := fun v p => (v <<< 1, setFlag .C (v.getLsbD 7) p)

/-- ROL, through the previous carry (42 R172). -/
def rolOp : ByteOp := fun v p => ((v <<< 1) ||| (BitVec.ofBool (getFlag .C p)).setWidth 8, setFlag .C (v.getLsbD 7) p)

/-- LSR (42 R173). -/
def lsrOp : ByteOp := fun v p => (v >>> 1, setFlag .C (v.getLsbD 0) p)

/-- ROR, through the previous carry (42 R174). -/
def rorOp : ByteOp :=
  fun v p => ((v >>> 1) ||| ((BitVec.ofBool (getFlag .C p)).setWidth 8 <<< 7), setFlag .C (v.getLsbD 0) p)

/-- DEC, no carry written (42 R177). -/
def decOp : ByteOp := fun v p => (v - 1, p)

/-- INC, no carry written (42 R178). -/
def incOp : ByteOp := fun v p => (v + 1, p)

/-- The result of ARR: `(t >> 1) | (P.C << 7)` for `t = A & M` (46 R263). -/
def arrResult (a m p : Byte) : Byte := ((a &&& m) >>> 1) ||| ((BitVec.ofBool (getFlag .C p)).setWidth 8 <<< 7)

/-- P after ARR with result `r`: Z and N of `r`, C its bit 6, V its bit 6 xor bit 5 (46 R263). -/
def arrFlags (r p : Byte) : Byte :=
  setFlag .V (r.getLsbD 6 ^^ r.getLsbD 5) (setFlag .C (r.getLsbD 6) (setZN r p))

end Sys2Proof.Machine
end

