-- ==== Sys2Proof/Machine/State.lean ====
section
/-! DEFINITION. The state of the machine: the six registers and the run state of 10_state, and the environment the core
reads and writes, the data of the bus (20_memory rules R52, R67) with the inputs of 00_scope rule R7. -/

namespace Sys2Proof.Machine

/-- The reason of a fatal condition, with the information 60 R302 records. -/
inductive FatalReason where
  /-- The opcode byte at `pc` has no decode path (30 R92). -/
  | unimplementedOpcode (op : Byte) (pc : Addr)
  /-- The resolver was asked for the address of a mode that has none (40 R121, 93 U2). -/
  | invalidAddressingModeUse
  deriving DecidableEq, Repr

/-- The run state (10 R33). -/
inductive RunState where
  /-- A step exists. -/
  | running
  /-- The run has ended normally; no step exists. -/
  | halted
  /-- The run was aborted by a fatal condition; no step exists. -/
  | faulted (r : FatalReason)
  deriving DecidableEq, Repr

/-- One event at a port of the block (00 R7, R11). -/
inductive BusEvent where
  /-- `MemRead(a, 1)` answered `v`. -/
  | read (a : Addr) (v : Byte)
  /-- `MemWrite(a, 1, v)`. -/
  | write (a : Addr) (v : Byte)
  /-- `Tick(n)`. -/
  | tick (n : Nat)
  /-- `PollNmi()` answered `b`. -/
  | pollNmi (b : Bool)
  deriving DecidableEq, Repr

/-- The machine's state: the core's own registers and run state, the host's input, and the bus's data as the parent `BusState`
(`mem`, `nmiPending`, `ticks`, `device`; the environment's, 20 R52, R67; assumption log 1, 3, 7). -/
structure State extends BusState where
  /-- Accumulator (R21). -/
  a : Byte
  /-- Index register X (R22). -/
  x : Byte
  /-- Index register Y (R23). -/
  y : Byte
  /-- Stack pointer, low byte of the stack address (R24). -/
  sp : Byte
  /-- Program counter (R25). -/
  pc : Addr
  /-- Status flags (R26). -/
  p : Byte
  /-- Run state (R33). -/
  run : RunState
  /-- The level of the `halt_in` input (R36, 40 R101); the host's, assumption log 3. -/
  haltIn : Bool
  /-- The bus events of the last step or reset, in order (20 R56); the model's record, assumption log 7. -/
  events : List BusEvent
  deriving DecidableEq, Repr

/-- Why a step does not exist: the two run states that only reset leaves (10 R33, 93 U17). -/
inductive Fault where
  /-- Raised by `step` on a HALTED core. Safe: the spec has no step there, and the state stands. -/
  | haltedCore
  /-- Raised by `step` on a FAULTED core, with the reason. Safe: the spec has no step there, and the state stands. -/
  | faultedCore (r : FatalReason)
  deriving DecidableEq, Repr

/-- Refusals. No arm of `exec` uses one: every instruction of the table has its meaning. -/
inductive Refusal where
  /-- Raised by an arm of `exec` whose instruction has no meaning yet. Safe: nothing is claimed of it. -/
  | notModelled (mnemonic : String)
  deriving DecidableEq, Repr

/-- The outcome of an instruction or of a step. -/
abbrev Result := Host.Outcome State Fault Refusal

/-- The machine right after reset on FlatRAM64K with no byte written (10 R38, 70 R340, 20 R67): the registers of R38, PC
the word at the reset vector, the two vector reads as the reset's bus events. Assumption log 2, 3, 7, 8. -/
def State.reset : State where
  a := config.aReset
  x := config.xReset
  y := config.yReset
  sp := config.spReset
  pc := Memory.word [] config.vecReset
  p := config.pReset
  run := .running
  haltIn := false
  nmiPending := false
  mem := []
  ticks := 0
  device := []
  events := [.read config.vecReset Memory.unlisted, .read (config.vecReset + 1) Memory.unlisted]

end Sys2Proof.Machine
end

