-- ==== Sys2Proof/Machine/Ops.lean ====
section
/-! DEFINITION. The named operations over memory and registers: the port events of 00_scope R11, the stack of 40 R141 to R144,
the end of an instruction R105, the fatal abort R12, taking an exception (60 R308, 45 R250) and returning from one (45 R252),
and the host's events (00 R6): reset, the NMI raise, the halt input. Whatever reaches a port takes the bus as its last
argument (20 R52), the configuration's where none is given. -/

namespace Sys2Proof.Machine

/-! ### Port events -/

/-- The byte plain memory holds at an address, without a bus event: FlatRAM64K's answer to a read of it (20 R67). -/
def byteAt (s : State) (a : Addr) : Byte := s.mem.get a.toNat

/-- One event at the end of the step's record (20 R56). -/
def logEvent (s : State) (e : BusEvent) : State := { s with events := s.events ++ [e] }

/-- `MemRead(a, 1)`: one read event, answered by the bus (00 R11, 20 R51). -/
def memRead (s : State) (a : Addr) (bus : Bus := config.bus) : Byte × State :=
  let r := bus.read s.toBusState a
  (r.1, logEvent { s with toBusState := r.2 } (.read a r.1))

/-- `MemWrite(a, 1, v)` (00 R11, 20 R51). -/
def memWrite (s : State) (a : Addr) (v : Byte) (bus : Bus := config.bus) : State :=
  logEvent { s with toBusState := bus.write s.toBusState a v } (.write a v)

/-- `Tick(n)` (00 R11, 20 R51). -/
def tick (s : State) (n : Nat) (bus : Bus := config.bus) : State :=
  logEvent { s with toBusState := bus.tick s.toBusState n } (.tick n)

/-- `PollNmi()`: the flag is answered and consumed in one event (60 R305). -/
def pollNmi (s : State) (bus : Bus := config.bus) : Bool × State :=
  let r := bus.pollNmi s.toBusState
  (r.1, logEvent { s with toBusState := r.2 } (.pollNmi r.1))

/-- Two reads, the first the low byte: the 16-bit composites of 20 R55, by their two addresses. -/
def memReadPair (s : State) (aLo aHi : Addr) (bus : Bus := config.bus) : Addr × State :=
  let l := memRead s aLo bus
  let h := memRead l.2 aHi bus
  (mkAddr h.1 l.1, h.2)

/-- `MemRead16(a)`: the second byte at `(a + 1) mod 65536` (00 R11). -/
def memRead16 (s : State) (a : Addr) (bus : Bus := config.bus) : Addr × State := memReadPair s a (a + 1) bus

/-- `MemRead16ZP(z)`: the second byte at `(z + 1) mod 256` in page 0 (00 R11). -/
def memRead16ZP (s : State) (z : Byte) (bus : Bus := config.bus) : Addr × State :=
  memReadPair s (zext16 z) (zext16 (z + 1)) bus

/-! ### The stack -/

/-- The stack address `{STACK_PAGE, sp}` (10 R24). -/
def stackAddr (sp : Byte) : Addr := mkAddr config.stackPage sp

/-- `Push(v)`: write, then decrement (40 R141). -/
def push (s : State) (v : Byte) (bus : Bus := config.bus) : State :=
  let w := memWrite s (stackAddr s.sp) v bus
  { w with sp := s.sp - 1 }

/-- The run state after a pop: with the test-harness guard `SP_OVERFLOW_HALT`, a pop that carries SP past its reset value ends
the run; without it, the spec's value, every pop wraps silently (40 R142, 93 U5; the condition is the model's, log 10). -/
def runAfterPop (s : State) : RunState :=
  if config.spOverflowHalt && decide (config.spReset.toNat ≤ s.sp.toNat) then .halted else s.run

/-- `Pop()`: increment, then read (40 R142). -/
def pop (s : State) (bus : Bus := config.bus) : Byte × State :=
  let sp := s.sp + 1
  memRead { s with sp := sp, run := runAfterPop s } (stackAddr sp) bus

/-- `Push16(w)`: high byte first (40 R143). -/
def push16 (s : State) (w : Addr) (bus : Bus := config.bus) : State :=
  push (push s (hiByte w) bus) (loByte w) bus

/-- `Pop16()`: low byte first (40 R144). -/
def pop16 (s : State) (bus : Bus := config.bus) : Addr × State :=
  let l := pop s bus
  let h := pop l.2 bus
  (mkAddr h.1 l.1, h.2)

/-! ### The end of an instruction -/

/-- `Tick(cyc); PC <- target` (40 R105). -/
def finishAt (s : State) (cyc : Nat) (target : Addr) (bus : Bus := config.bus) : State :=
  let t := tick s cyc bus
  { t with pc := target }

/-- `Tick(cyc); PC <- (pc0 + L) mod 65536`, for an instruction that transfers no control (40 R105). -/
def retire (s : State) (len cyc : Nat) (bus : Bus := config.bus) : State :=
  finishAt s cyc (s.pc + BitVec.ofNat 16 len) bus

/-- `raise Fatal(r)`: the run state becomes FAULTED and nothing else changes (00 R12). -/
def raiseFatal (s : State) (r : FatalReason) : State := { s with run := .faulted r }

/-! ### Taking an exception and returning from one -/

/-- The two vectored events of the block (60 R309). -/
inductive ExceptionKind where
  /-- NMI service (60 R308). -/
  | nmi
  /-- The software break (45 R250). -/
  | brk
  deriving DecidableEq, Repr

/-- The PC an exception saves: NMI the unfetched instruction's, BRK `pc0 + 2` (60 R309). -/
def exceptionReturn (k : ExceptionKind) (pc : Addr) : Addr :=
  match k with
  | .nmi => pc
  | .brk => pc + 2

/-- The flags byte an exception saves (60 R309, 10 R28). -/
def exceptionFlags (k : ExceptionKind) (p : Byte) : Byte :=
  match k with
  | .nmi => pushedByNmi p
  | .brk => pushedByBreak p

/-- The frame of an exception: PC high byte, PC low byte, flags, and then `P.I <- 1` (60 R308, 45 R250). -/
def pushFrame (k : ExceptionKind) (s : State) (bus : Bus := config.bus) : State :=
  let f := push (push16 s (exceptionReturn k s.pc) bus) (exceptionFlags k s.p) bus
  { f with p := setFlag .I true s.p }

/-- Taking an exception: the frame, then the tick and the vector read, in NMI service's order (tick first, 60 R308) or in
BRK's (vector first, 45 R250); PC is the word at the vector. -/
def takeException (k : ExceptionKind) (s : State) (bus : Bus := config.bus) : State :=
  let f := pushFrame k s bus
  match k with
  | .nmi =>
    let v := memRead16 (tick f config.nmiCycles bus) config.vecNmi bus
    { v.2 with pc := v.1 }
  | .brk =>
    let v := memRead16 f config.vecBrk bus
    finishAt v.2 (baseCycles .brk) v.1 bus

/-- Returning from an exception: flags popped and restored, then PC popped and used as it is (45 R252). -/
def returnFromException (s : State) (bus : Bus := config.bus) : State :=
  let v := pop s bus
  let w := pop16 { v.2 with p := restoreFlags v.1 s.p } bus
  finishAt w.2 (baseCycles .rti) w.1 bus

/-! ### The host's events, between steps -/

/-- `Reset()` (70 R340): the registers, PC from the reset vector, RUNNING; two read events and no tick. Memory, the NMI flag
and `halt_in` are not touched (R341); power-on and warm reset are the same (R342). -/
def hostReset (s : State) (bus : Bus := config.bus) : State :=
  let v := memRead16 { s with events := [] } config.vecReset bus
  { v.2 with
    a := config.aReset, x := config.xReset, y := config.yReset, sp := config.spReset, p := config.pReset,
    pc := v.1, run := .running }

/-- The environment raises the NMI pending flag; a raise while it is true changes nothing (60 R304, R305 d). -/
def raiseNmi (s : State) : State := { s with nmiPending := true }

/-- The host drives the halt input (00 R7). -/
def setHaltIn (s : State) (level : Bool) : State := { s with haltIn := level }

end Sys2Proof.Machine
end

