-- ==== Sys2Proof/Machine/Operands.lean ====
section
/-! DEFINITION. The addressing-mode resolver (40 rules R110 to R124) and the operand read. The operand bytes `d8`, `a16` of a
mode were read when the instruction was fetched (Fetch.lean; assumption log 6), so what the resolver reads here is the
pointers. -/

namespace Sys2Proof.Machine

/-- What `Resolve` returns: the effective address, the page-cross flag, and the high byte of the base the index was added to,
which SHA uses (40 R110, 46 R267). -/
structure Resolved where
  ea : Addr
  crossed : Bool
  baseHi : Byte
  deriving DecidableEq, Repr

/-- A base plus a zero-extended index; crossed when the high byte changed (40 R116, R117, R119, R124). -/
def indexed (base : Addr) (index : Byte) : Resolved :=
  let ea := base + zext16 index
  { ea := ea, crossed := hiByte ea != hiByte base, baseHi := hiByte base }

/-- An address no index was added to, or whose index addition stays in page 0: no page is crossed (40 R124). -/
def uncrossed (ea : Addr) : Resolved := { ea := ea, crossed := false, baseHi := hiByte ea }

/-- `Resolve(mode, pc0)` (40 R111 to R121): address and page-cross flag, with the pointer reads as bus events. Accumulator,
and Implied and Relative with it (93 U2; assumption log 12), have no address: fatal. -/
def resolve (m : AddrMode) (s : State) (bus : Bus := config.bus) : Except FatalReason (Resolved × State) :=
  match m with
  | .imm _ => .ok (uncrossed (s.pc + 1), s)
  | .zp d => .ok (uncrossed (zext16 d), s)
  | .zpX d => .ok (uncrossed (zext16 (d + s.x)), s)
  | .zpY d => .ok (uncrossed (zext16 (d + s.y)), s)
  | .abs w => .ok (uncrossed w, s)
  | .absX w => .ok (indexed w s.x, s)
  | .absY w => .ok (indexed w s.y, s)
  | .indX d =>
    let r := memRead16ZP s (d + s.x) bus
    .ok (uncrossed r.1, r.2)
  | .indY d =>
    let r := memRead16ZP s d bus
    .ok (indexed r.1 s.y, r.2)
  | .ind w =>
    let r := memReadPair s w (nextInPage w) bus
    .ok (uncrossed r.1, r.2)
  | .acc => .error .invalidAddressingModeUse
  | .impl => .error .invalidAddressingModeUse
  | .rel _ => .error .invalidAddressingModeUse

/-- The operand byte `M` (41 R150): for Immediate the byte the fetch has read at `pc0 + 1`, the one read such an operand
costs (40 R111); otherwise one read at the effective address. -/
def readOperand (m : AddrMode) (ea : Addr) (s : State) (bus : Bus := config.bus) : Byte × State :=
  match m with
  | .imm d => (d, s)
  | .zp _ | .zpX _ | .zpY _ | .abs _ | .absX _ | .absY _ | .indX _ | .indY _ | .ind _ | .acc | .impl | .rel _ =>
    memRead s ea bus

/-- The target of a relative branch: `(pc0 + 2 + sext_16(d8)) mod 65536` (40 R123). -/
def branchTarget (pc : Addr) (d8 : Byte) : Addr := pc + 2 + sext16 d8

end Sys2Proof.Machine
end

