-- ==== Sys2Proof/Machine/Shapes.lean ====
section
/-! DEFINITION. The common shapes of the instruction rules: the reading operations (41 R150), the stores (41 R155), the
read-modify-write operations (42 R170, 46 R260 c), the one-byte register operations (44) and the branches (43 R197). A
shape takes the instruction it is the meaning of, for its mode, length and base cycle count. -/

namespace Sys2Proof.Machine

/-- The read shape (41 R150): resolve, one operand read, the operation `f` on the operand, the base cycles and the
page-cross penalty (40 R132). -/
def readShape (i : Instr) (f : Byte → State → State) (s : State) (bus : Bus := config.bus) : Result :=
  match resolve i.mode s bus with
  | .error r => .next (raiseFatal s r)
  | .ok q =>
    let d := readOperand i.mode q.1.ea q.2 bus
    .next (retire (f d.1 d.2) i.length (baseCycles i + q.1.crossed.toNat) bus)

/-- The store shape (41 R155): resolve, one write of `val`, no read of the target, the base cycles alone: the
page-cross cycle is always paid (40 R133). -/
def storeShape (i : Instr) (val : Resolved → Byte) (s : State) (bus : Bus := config.bus) : Result :=
  match resolve i.mode s bus with
  | .error r => .next (raiseFatal s r)
  | .ok q => .next (retire (memWrite q.2 q.1.ea (val q.1) bus) i.length (baseCycles i) bus)

/-- The memory forms of the read-modify-write shape (42 R170, 46 R260 c): resolve, one read, one write of the new value, then
`g` with the value written. -/
def modifyShape (i : Instr) (f : ByteOp) (g : Byte → State → State) (s : State) (bus : Bus := config.bus) : Result :=
  match resolve i.mode s bus with
  | .error r => .next (raiseFatal s r)
  | .ok q =>
    let d := memRead q.2 q.1.ea bus
    let r := f d.1 d.2.p
    .next (retire (g r.1 (memWrite { d.2 with p := r.2 } q.1.ea r.1 bus)) i.length (baseCycles i) bus)

/-- `SetZN(v)` on the state (40 R140). -/
def applyZN (v : Byte) (s : State) : State := { s with p := setZN v s.p }

/-- `A <- v; SetZN(A)`. -/
def loadA (v : Byte) (s : State) : State := { s with a := v, p := setZN v s.p }

/-- `X <- v; SetZN(X)`. -/
def loadX (v : Byte) (s : State) : State := { s with x := v, p := setZN v s.p }

/-- `Y <- v; SetZN(Y)`. -/
def loadY (v : Byte) (s : State) : State := { s with y := v, p := setZN v s.p }

/-- `ADC_core(m)` on the state (41 R154). -/
def adcCore (m : Byte) (s : State) : State :=
  { s with a := adcResult s.a m (getFlag .C s.p), p := adcFlags s.a m s.p }

/-- `Compare(reg, m)` on the state (41 R157). -/
def compareCore (reg m : Byte) (s : State) : State := { s with p := compareFlags reg m s.p }

/-- The Accumulator form of a shift or rotate (42 R170, 40 R121): no resolver call, no bus access. -/
def accumulatorShape (i : Instr) (f : ByteOp) (s : State) (bus : Bus := config.bus) : Result :=
  let r := f s.a s.p
  .next (retire { s with a := r.1, p := setZN r.1 r.2 } i.length (baseCycles i) bus)

/-- A shift or rotate: the Accumulator is "handled as a special case by each caller" (40 R110, 42 R170). -/
def shiftShape (i : Instr) (f : ByteOp) (s : State) (bus : Bus := config.bus) : Result :=
  match i.mode with
  | .acc => accumulatorShape i f s bus
  | .imm _ | .zp _ | .zpX _ | .zpY _ | .abs _ | .absX _ | .absY _ | .indX _ | .indY _ | .ind _ | .impl | .rel _ =>
    modifyShape i f applyZN s bus

/-- A register or flag operation, with no bus access but the tick (44). -/
def registerShape (i : Instr) (f : State → State) (s : State) (bus : Bus := config.bus) : Result :=
  .next (retire (f s) i.length (baseCycles i) bus)

/-- A conditional branch (43 R197). -/
def branchShape (i : Instr) (cond : Bool) (d8 : Byte) (s : State) (bus : Bus := config.bus) : Result :=
  let next := s.pc + 2
  let target := branchTarget s.pc d8
  if cond then .next (finishAt s (baseCycles i + takenPenalty next target) target bus)
  else .next (finishAt s (baseCycles i) next bus)

end Sys2Proof.Machine
end

