-- ==== Sys2Proof/Machine/Group1.lean ====
section
/-! DEFINITION. Group 1 (file 41): ORA, AND, EOR, ADC, STA, LDA, CMP, SBC. -/

namespace Sys2Proof.Machine

/-- ORA (R151). -/
def execOra (m : AddrMode) (s : State) (bus : Bus := config.bus) : Result :=
  readShape (.ora m) (fun v t => loadA (t.a ||| v) t) s bus

/-- AND (R152). -/
def execAnd (m : AddrMode) (s : State) (bus : Bus := config.bus) : Result :=
  readShape (.and m) (fun v t => loadA (t.a &&& v) t) s bus

/-- EOR (R153). -/
def execEor (m : AddrMode) (s : State) (bus : Bus := config.bus) : Result :=
  readShape (.eor m) (fun v t => loadA (t.a ^^^ v) t) s bus

/-- ADC (R154); DecimalMode is not consulted (10 R29). -/
def execAdc (m : AddrMode) (s : State) (bus : Bus := config.bus) : Result := readShape (.adc m) adcCore s bus

/-- STA (R155). -/
def execSta (m : AddrMode) (s : State) (bus : Bus := config.bus) : Result := storeShape (.sta m) (fun _ => s.a) s bus

/-- LDA (R156). -/
def execLda (m : AddrMode) (s : State) (bus : Bus := config.bus) : Result := readShape (.lda m) loadA s bus

/-- CMP (R157). -/
def execCmp (m : AddrMode) (s : State) (bus : Bus := config.bus) : Result :=
  readShape (.cmp m) (fun v t => compareCore t.a v t) s bus

/-- SBC, ADC of the complement (R158). -/
def execSbc (m : AddrMode) (s : State) (bus : Bus := config.bus) : Result :=
  readShape (.sbc m) (fun v t => adcCore (v ^^^ 0xFF) t) s bus

end Sys2Proof.Machine
end

