-- ==== Sys2Proof/Machine/Group2.lean ====
section
/-! DEFINITION. Group 2 (file 42): ASL, ROL, LSR, ROR, STX, LDX, DEC, INC. -/

namespace Sys2Proof.Machine

/-- ASL (R171). -/
def execAsl (m : AddrMode) (s : State) (bus : Bus := config.bus) : Result := shiftShape (.asl m) aslOp s bus

/-- ROL (R172). -/
def execRol (m : AddrMode) (s : State) (bus : Bus := config.bus) : Result := shiftShape (.rol m) rolOp s bus

/-- LSR (R173). -/
def execLsr (m : AddrMode) (s : State) (bus : Bus := config.bus) : Result := shiftShape (.lsr m) lsrOp s bus

/-- ROR (R174). -/
def execRor (m : AddrMode) (s : State) (bus : Bus := config.bus) : Result := shiftShape (.ror m) rorOp s bus

/-- STX (R175). -/
def execStx (m : AddrMode) (s : State) (bus : Bus := config.bus) : Result := storeShape (.stx m) (fun _ => s.x) s bus

/-- LDX (R176). -/
def execLdx (m : AddrMode) (s : State) (bus : Bus := config.bus) : Result := readShape (.ldx m) loadX s bus

/-- DEC (R177). -/
def execDec (m : AddrMode) (s : State) (bus : Bus := config.bus) : Result := modifyShape (.dec m) decOp applyZN s bus

/-- INC (R178). -/
def execInc (m : AddrMode) (s : State) (bus : Bus := config.bus) : Result := modifyShape (.inc m) incOp applyZN s bus

end Sys2Proof.Machine
end

