-- ==== Sys2Proof/Machine/Group3.lean ====
section
/-! DEFINITION. Group 3 and the conditional branches (file 43): BIT, JMP, JMP (indirect), STY, LDY, CPY, CPX; BPL, BMI, BVC, BVS,
BCC, BCS, BNE, BEQ. -/

namespace Sys2Proof.Machine

/-- BIT (R190). -/
def execBit (m : AddrMode) (s : State) (bus : Bus := config.bus) : Result :=
  readShape (.bit m) (fun v t => { t with p := bitFlags t.a v t.p }) s bus

/-- A jump to the resolved address (R191, R192). -/
def jumpShape (i : Instr) (s : State) (bus : Bus := config.bus) : Result :=
  match resolve i.mode s bus with
  | .error r => .next (raiseFatal s r)
  | .ok q => .next (finishAt q.2 (baseCycles i) q.1.ea bus)

/-- JMP absolute (R191). -/
def execJmpAbs (a16 : Addr) (s : State) (bus : Bus := config.bus) : Result := jumpShape (.jmpAbs a16) s bus

/-- JMP (indirect), with the page-wrap bug of 40 R120 (R192). -/
def execJmpInd (a16 : Addr) (s : State) (bus : Bus := config.bus) : Result := jumpShape (.jmpInd a16) s bus

/-- STY (R193). -/
def execSty (m : AddrMode) (s : State) (bus : Bus := config.bus) : Result := storeShape (.sty m) (fun _ => s.y) s bus

/-- LDY (R194). -/
def execLdy (m : AddrMode) (s : State) (bus : Bus := config.bus) : Result := readShape (.ldy m) loadY s bus

/-- CPY (R195). -/
def execCpy (m : AddrMode) (s : State) (bus : Bus := config.bus) : Result :=
  readShape (.cpy m) (fun v t => compareCore t.y v t) s bus

/-- CPX (R196). -/
def execCpx (m : AddrMode) (s : State) (bus : Bus := config.bus) : Result :=
  readShape (.cpx m) (fun v t => compareCore t.x v t) s bus

/-- BPL: N = 0 (R198). -/
def execBpl (d8 : Byte) (s : State) (bus : Bus := config.bus) : Result :=
  branchShape (.bpl d8) (!getFlag .N s.p) d8 s bus

/-- BMI: N = 1 (R199). -/
def execBmi (d8 : Byte) (s : State) (bus : Bus := config.bus) : Result :=
  branchShape (.bmi d8) (getFlag .N s.p) d8 s bus

/-- BVC: V = 0 (R200). -/
def execBvc (d8 : Byte) (s : State) (bus : Bus := config.bus) : Result :=
  branchShape (.bvc d8) (!getFlag .V s.p) d8 s bus

/-- BVS: V = 1 (R201). -/
def execBvs (d8 : Byte) (s : State) (bus : Bus := config.bus) : Result :=
  branchShape (.bvs d8) (getFlag .V s.p) d8 s bus

/-- BCC: C = 0 (R202). -/
def execBcc (d8 : Byte) (s : State) (bus : Bus := config.bus) : Result :=
  branchShape (.bcc d8) (!getFlag .C s.p) d8 s bus

/-- BCS: C = 1 (R203). -/
def execBcs (d8 : Byte) (s : State) (bus : Bus := config.bus) : Result :=
  branchShape (.bcs d8) (getFlag .C s.p) d8 s bus

/-- BNE: Z = 0 (R204). -/
def execBne (d8 : Byte) (s : State) (bus : Bus := config.bus) : Result :=
  branchShape (.bne d8) (!getFlag .Z s.p) d8 s bus

/-- BEQ: Z = 1 (R205). -/
def execBeq (d8 : Byte) (s : State) (bus : Bus := config.bus) : Result :=
  branchShape (.beq d8) (getFlag .Z s.p) d8 s bus

end Sys2Proof.Machine
end

