-- ==== Sys2Proof/Machine/Illegal.lean ====
section
/-! DEFINITION. The illegal opcodes (file 46): ALR, ANC, ARR, AXS, LAX, SAX, SHA, SBC (0xEB), DCP, ISC, RLA, RRA, SLO, SRE. -/

namespace Sys2Proof.Machine

/-- ALR: AND, then LSR on A (R261). -/
def alrOn (v : Byte) (s : State) : State :=
  let r := lsrOp (s.a &&& v) s.p
  { s with a := r.1, p := setZN r.1 r.2 }

/-- ANC: AND, then C from bit 7 of the result (R262). -/
def ancOn (v : Byte) (s : State) : State :=
  let t := s.a &&& v
  { s with a := t, p := setFlag .C (t.getLsbD 7) (setZN t s.p) }

/-- ARR (R263). -/
def arrOn (v : Byte) (s : State) : State :=
  let r := arrResult s.a v s.p
  { s with a := r, p := arrFlags r s.p }

/-- AXS: `X <- (A & X) - M`, carry as in Compare, no borrow in (R264). -/
def axsOn (v : Byte) (s : State) : State :=
  let t := s.a &&& s.x
  { s with x := t - v, p := setZN (t - v) (setFlag .C (decide (v.toNat ≤ t.toNat)) s.p) }

/-- ALR (R261). -/
def execAlr (d8 : Byte) (s : State) (bus : Bus := config.bus) : Result := readShape (.alr d8) alrOn s bus

/-- ANC, opcode 0x0B (R262). -/
def execAnc0B (d8 : Byte) (s : State) (bus : Bus := config.bus) : Result := readShape (.anc0B d8) ancOn s bus

/-- ANC, opcode 0x2B (R262). -/
def execAnc2B (d8 : Byte) (s : State) (bus : Bus := config.bus) : Result := readShape (.anc2B d8) ancOn s bus

/-- ARR (R263). -/
def execArr (d8 : Byte) (s : State) (bus : Bus := config.bus) : Result := readShape (.arr d8) arrOn s bus

/-- AXS (R264). -/
def execAxs (d8 : Byte) (s : State) (bus : Bus := config.bus) : Result := readShape (.axs d8) axsOn s bus

/-- LAX (R265). -/
def execLax (m : AddrMode) (s : State) (bus : Bus := config.bus) : Result :=
  readShape (.lax m) (fun v t => { loadA v t with x := v }) s bus

/-- SAX (R266). -/
def execSax (m : AddrMode) (s : State) (bus : Bus := config.bus) : Result :=
  storeShape (.sax m) (fun _ => s.a &&& s.x) s bus

/-- SHA (R267), by the parameter `SHA_VALUE`. -/
def execSha (m : AddrMode) (s : State) (bus : Bus := config.bus) : Result :=
  storeShape (.sha m) (fun q => config.shaValue s.a s.x q.baseHi) s bus

/-- SBC, second encoding (R268). -/
def execSbcEB (d8 : Byte) (s : State) (bus : Bus := config.bus) : Result :=
  readShape (.sbcEB d8) (fun v t => adcCore (v ^^^ 0xFF) t) s bus

/-- DCP: DEC, then CMP (R269). -/
def execDcp (m : AddrMode) (s : State) (bus : Bus := config.bus) : Result :=
  modifyShape (.dcp m) decOp (fun r t => compareCore t.a r t) s bus

/-- ISC: INC, then SBC (R270). -/
def execIsc (m : AddrMode) (s : State) (bus : Bus := config.bus) : Result :=
  modifyShape (.isc m) incOp (fun r t => adcCore (r ^^^ 0xFF) t) s bus

/-- RLA: ROL, then AND (R271). -/
def execRla (m : AddrMode) (s : State) (bus : Bus := config.bus) : Result :=
  modifyShape (.rla m) rolOp (fun r t => loadA (t.a &&& r) t) s bus

/-- RRA: ROR, then ADC with the carry the rotate left (R272). -/
def execRra (m : AddrMode) (s : State) (bus : Bus := config.bus) : Result := modifyShape (.rra m) rorOp adcCore s bus

/-- SLO: ASL, then ORA (R273). -/
def execSlo (m : AddrMode) (s : State) (bus : Bus := config.bus) : Result :=
  modifyShape (.slo m) aslOp (fun r t => loadA (t.a ||| r) t) s bus

/-- SRE: LSR, then EOR (R274). -/
def execSre (m : AddrMode) (s : State) (bus : Bus := config.bus) : Result :=
  modifyShape (.sre m) lsrOp (fun r t => loadA (t.a ^^^ r) t) s bus

end Sys2Proof.Machine
end

