-- ==== Sys2Proof/Machine/Irregular.lean ====
section
/-! DEFINITION. The irregular opcodes (file 45): BRK, JSR, RTI, RTS; and the undecoded bytes (30 R92). -/

namespace Sys2Proof.Machine

/-- BRK (R250): the exception is taken, and the run halts afterwards when I was set before it. -/
def execBrk (s : State) (bus : Bus := config.bus) : Result :=
  let t := takeException .brk s bus
  .next (if config.brkHalt && getFlag .I s.p then { t with run := .halted } else t)

/-- JSR (R251): the address of the JSR's last byte is pushed. -/
def execJsr (a16 : Addr) (s : State) (bus : Bus := config.bus) : Result :=
  .next (finishAt (push16 s (s.pc + 2) bus) (baseCycles (.jsr a16)) a16 bus)

/-- RTI (R252). -/
def execRti (s : State) (bus : Bus := config.bus) : Result := .next (returnFromException s bus)

/-- RTS (R253): one past the popped address. -/
def execRts (s : State) (bus : Bus := config.bus) : Result :=
  let w := pop16 s bus
  .next (finishAt w.2 (baseCycles .rts) (w.1 + 1) bus)

/-- A byte with no decode path (30 R92): `raise Fatal(UnimplementedOpcode(op, pc0))`. -/
def execUndecoded (op : Byte) (s : State) : Result :=
  .next (raiseFatal s (.unimplementedOpcode op s.pc))

end Sys2Proof.Machine
end

