-- ==== Sys2Proof/Machine/SingleByte.lean ====
section
/-! DEFINITION. The single-byte groups (file 44): PHP CLC PLP SEC PHA CLI PLA SEI DEY TYA TAY CLV INY CLD INX SED, and
TXA TXS TAX TSX DEX NOP with the unofficial NOPs. -/

namespace Sys2Proof.Machine

/-- One flag written, `P.f <- b`. -/
def writeFlag (f : Flag) (b : Bool) (s : State) : State := { s with p := setFlag f b s.p }

/-- PHP: the pushed copy has Break and Break2 set (R220). -/
def execPhp (s : State) (bus : Bus := config.bus) : Result :=
  .next (retire (push s (pushedByBreak s.p) bus) 1 (baseCycles .php) bus)

/-- CLC (R221). -/
def execClc (s : State) (bus : Bus := config.bus) : Result := registerShape .clc (writeFlag .C false) s bus

/-- PLP (R222). -/
def execPlp (s : State) (bus : Bus := config.bus) : Result :=
  let v := pop s bus
  .next (retire { v.2 with p := restoreFlags v.1 s.p } 1 (baseCycles .plp) bus)

/-- SEC (R223). -/
def execSec (s : State) (bus : Bus := config.bus) : Result := registerShape .sec (writeFlag .C true) s bus

/-- PHA (R224). -/
def execPha (s : State) (bus : Bus := config.bus) : Result := .next (retire (push s s.a bus) 1 (baseCycles .pha) bus)

/-- CLI (R225). -/
def execCli (s : State) (bus : Bus := config.bus) : Result := registerShape .cli (writeFlag .I false) s bus

/-- PLA (R226). -/
def execPla (s : State) (bus : Bus := config.bus) : Result :=
  let v := pop s bus
  .next (retire (loadA v.1 v.2) 1 (baseCycles .pla) bus)

/-- SEI (R227). -/
def execSei (s : State) (bus : Bus := config.bus) : Result := registerShape .sei (writeFlag .I true) s bus

/-- DEY (R228). -/
def execDey (s : State) (bus : Bus := config.bus) : Result := registerShape .dey (fun t => loadY (t.y - 1) t) s bus

/-- TYA (R229). -/
def execTya (s : State) (bus : Bus := config.bus) : Result := registerShape .tya (fun t => loadA t.y t) s bus

/-- TAY (R230). -/
def execTay (s : State) (bus : Bus := config.bus) : Result := registerShape .tay (fun t => loadY t.a t) s bus

/-- CLV (R231). -/
def execClv (s : State) (bus : Bus := config.bus) : Result := registerShape .clv (writeFlag .V false) s bus

/-- INY (R232). -/
def execIny (s : State) (bus : Bus := config.bus) : Result := registerShape .iny (fun t => loadY (t.y + 1) t) s bus

/-- CLD (R233). -/
def execCld (s : State) (bus : Bus := config.bus) : Result := registerShape .cld (writeFlag .D false) s bus

/-- INX (R234). -/
def execInx (s : State) (bus : Bus := config.bus) : Result := registerShape .inx (fun t => loadX (t.x + 1) t) s bus

/-- SED (R235). -/
def execSed (s : State) (bus : Bus := config.bus) : Result := registerShape .sed (writeFlag .D true) s bus

/-- TXA (R236). -/
def execTxa (s : State) (bus : Bus := config.bus) : Result := registerShape .txa (fun t => loadA t.x t) s bus

/-- TXS, the one transfer that writes no flag (R237, decision D22). -/
def execTxs (s : State) (bus : Bus := config.bus) : Result := registerShape .txs (fun t => { t with sp := t.x }) s bus

/-- TAX (R238). -/
def execTax (s : State) (bus : Bus := config.bus) : Result := registerShape .tax (fun t => loadX t.a t) s bus

/-- TSX (R239). -/
def execTsx (s : State) (bus : Bus := config.bus) : Result := registerShape .tsx (fun t => loadX t.sp t) s bus

/-- DEX (R240). -/
def execDex (s : State) (bus : Bus := config.bus) : Result := registerShape .dex (fun t => loadX (t.x - 1) t) s bus

/-- NOP, opcode 0xEA (R241). -/
def execNop (s : State) (bus : Bus := config.bus) : Result := registerShape .nop id s bus

/-- An unofficial NOP, by the parameter `NOP_DA_FA` (R241, decision D11): a NOP, or the fatal alternative. -/
def unofficialNop (i : Instr) (op : Byte) (s : State) (bus : Bus := config.bus) : Result :=
  if config.nopDaFa then registerShape i id s bus else .next (raiseFatal s (.unimplementedOpcode op s.pc))

/-- The unofficial NOP 0xDA (R241). -/
def execNopDA (s : State) (bus : Bus := config.bus) : Result := unofficialNop .nopDA 0xDA s bus

/-- The unofficial NOP 0xFA (R241). -/
def execNopFA (s : State) (bus : Bus := config.bus) : Result := unofficialNop .nopFA 0xFA s bus

end Sys2Proof.Machine
end

