-- ==== Sys2Proof/Machine/Dispatch.lean ====
section
/-! DEFINITION. The dispatch: one arm per instruction, each a call of its meaning. -/

namespace Sys2Proof.Machine

/-- The effect of an instruction whose bytes have been fetched (40 R100, `Execute`). -/
def exec (i : Instr) (s : State) : Host.Outcome State Fault Refusal :=
  match i with
  -- Group 1, cc = 01 (R84; R150 to R158)
  | .ora m => Sys2Proof.Machine.execOra m s
  | .and m => Sys2Proof.Machine.execAnd m s
  | .eor m => Sys2Proof.Machine.execEor m s
  | .adc m => Sys2Proof.Machine.execAdc m s
  | .sta m => Sys2Proof.Machine.execSta m s
  | .lda m => Sys2Proof.Machine.execLda m s
  | .cmp m => Sys2Proof.Machine.execCmp m s
  | .sbc m => Sys2Proof.Machine.execSbc m s
  -- Group 2, cc = 10 (R85; R170 to R178)
  | .asl m => Sys2Proof.Machine.execAsl m s
  | .rol m => Sys2Proof.Machine.execRol m s
  | .lsr m => Sys2Proof.Machine.execLsr m s
  | .ror m => Sys2Proof.Machine.execRor m s
  | .stx m => Sys2Proof.Machine.execStx m s
  | .ldx m => Sys2Proof.Machine.execLdx m s
  | .dec m => Sys2Proof.Machine.execDec m s
  | .inc m => Sys2Proof.Machine.execInc m s
  -- Group 3, cc = 00 (R86; R190 to R196)
  | .bit m => Sys2Proof.Machine.execBit m s
  | .jmpAbs a16 => Sys2Proof.Machine.execJmpAbs a16 s
  | .jmpInd a16 => Sys2Proof.Machine.execJmpInd a16 s
  | .sty m => Sys2Proof.Machine.execSty m s
  | .ldy m => Sys2Proof.Machine.execLdy m s
  | .cpy m => Sys2Proof.Machine.execCpy m s
  | .cpx m => Sys2Proof.Machine.execCpx m s
  -- Conditional branches (R86; R197 to R205)
  | .bpl d8 => Sys2Proof.Machine.execBpl d8 s
  | .bmi d8 => Sys2Proof.Machine.execBmi d8 s
  | .bvc d8 => Sys2Proof.Machine.execBvc d8 s
  | .bvs d8 => Sys2Proof.Machine.execBvs d8 s
  | .bcc d8 => Sys2Proof.Machine.execBcc d8 s
  | .bcs d8 => Sys2Proof.Machine.execBcs d8 s
  | .bne d8 => Sys2Proof.Machine.execBne d8 s
  | .beq d8 => Sys2Proof.Machine.execBeq d8 s
  -- Single-byte group 1, low nibble 8 (R87; R220 to R235)
  | .php => Sys2Proof.Machine.execPhp s
  | .clc => Sys2Proof.Machine.execClc s
  | .plp => Sys2Proof.Machine.execPlp s
  | .sec => Sys2Proof.Machine.execSec s
  | .pha => Sys2Proof.Machine.execPha s
  | .cli => Sys2Proof.Machine.execCli s
  | .pla => Sys2Proof.Machine.execPla s
  | .sei => Sys2Proof.Machine.execSei s
  | .dey => Sys2Proof.Machine.execDey s
  | .tya => Sys2Proof.Machine.execTya s
  | .tay => Sys2Proof.Machine.execTay s
  | .clv => Sys2Proof.Machine.execClv s
  | .iny => Sys2Proof.Machine.execIny s
  | .cld => Sys2Proof.Machine.execCld s
  | .inx => Sys2Proof.Machine.execInx s
  | .sed => Sys2Proof.Machine.execSed s
  -- Single-byte group 2, low nibble A (R88; R236 to R241)
  | .txa => Sys2Proof.Machine.execTxa s
  | .txs => Sys2Proof.Machine.execTxs s
  | .tax => Sys2Proof.Machine.execTax s
  | .tsx => Sys2Proof.Machine.execTsx s
  | .dex => Sys2Proof.Machine.execDex s
  | .nop => Sys2Proof.Machine.execNop s
  | .nopDA => Sys2Proof.Machine.execNopDA s
  | .nopFA => Sys2Proof.Machine.execNopFA s
  -- Irregular opcodes (R89; R250 to R253)
  | .brk => Sys2Proof.Machine.execBrk s
  | .jsr a16 => Sys2Proof.Machine.execJsr a16 s
  | .rti => Sys2Proof.Machine.execRti s
  | .rts => Sys2Proof.Machine.execRts s
  -- Illegal opcodes (R90; R260 to R274)
  | .alr d8 => Sys2Proof.Machine.execAlr d8 s
  | .anc0B d8 => Sys2Proof.Machine.execAnc0B d8 s
  | .anc2B d8 => Sys2Proof.Machine.execAnc2B d8 s
  | .arr d8 => Sys2Proof.Machine.execArr d8 s
  | .axs d8 => Sys2Proof.Machine.execAxs d8 s
  | .lax m => Sys2Proof.Machine.execLax m s
  | .sax m => Sys2Proof.Machine.execSax m s
  | .sha m => Sys2Proof.Machine.execSha m s
  | .sbcEB d8 => Sys2Proof.Machine.execSbcEB d8 s
  | .dcp m => Sys2Proof.Machine.execDcp m s
  | .isc m => Sys2Proof.Machine.execIsc m s
  | .rla m => Sys2Proof.Machine.execRla m s
  | .rra m => Sys2Proof.Machine.execRra m s
  | .slo m => Sys2Proof.Machine.execSlo m s
  | .sre m => Sys2Proof.Machine.execSre m s
  | .undecoded op => Sys2Proof.Machine.execUndecoded op s

end Sys2Proof.Machine
end

