-- ==== Sys2Proof/Machine/Fetch.lean ====
section
/-! DEFINITION. The fetch/decode/execute FSM (40 rule R100): fetching an instruction's bytes, the boundary where the halt input
and the NMI flag are looked at, and the whole step. Step.lean calls it. -/

namespace Sys2Proof.Machine

/-- The opcode fetch, Decode, and the operand byte reads in their order (40 R103, R104, R110; 30 R93): the instruction, and
the state with the read events. Addresses wrap modulo 65536 (10 R25). -/
def fetchInstr (s : State) (bus : Bus := config.bus) : Instr × State :=
  let op := memRead s s.pc bus
  match opcodeLength op.1 with
  | 1 => (decodeOp op.1 0 0, op.2)
  | 2 =>
    let b1 := memRead op.2 (s.pc + 1) bus
    (decodeOp op.1 b1.1 0, b1.2)
  | _ =>
    let b1 := memRead op.2 (s.pc + 1) bus
    let b2 := memRead b1.2 (s.pc + 2) bus
    (decodeOp op.1 b1.1 b2.1, b2.2)

/-- A step of a RUNNING core, in the priority of 60 R310: the halt input, then a pending NMI, then one instruction, which
`execute` runs. -/
def boundary (s : State) (bus : Bus := config.bus) (execute : Instr → State → Result := exec) : Result :=
  if s.haltIn then .next { s with run := .halted }
  else
    let q := pollNmi s bus
    if q.1 then .next (takeException .nmi q.2 bus)
    else
      let f := fetchInstr q.2 bus
      execute f.1 f.2

/-- `Step()` (40 R100): it exists only in run state RUNNING (10 R33); its record of bus events starts empty. -/
def coreStep (s : State) (bus : Bus := config.bus) (execute : Instr → State → Result := exec) : Result :=
  match s.run with
  | .running => boundary { s with events := [] } bus execute
  | .halted => .fault .haltedCore
  | .faulted r => .fault (.faultedCore r)

/-- The bytes `bs` stored at ascending addresses from `a` on. -/
def storeBytes (m : Memory) (a : Addr) : List Byte → Memory
  | [] => m
  | b :: bs => storeBytes (m.set a.toNat b) (a + 1) bs

/-- The three bytes of a table word: byte 0 in bits 7..0, the bits above `nbits` zero (30 R80, R96). -/
def tableWordBytes (nbits w : Nat) : List Byte :=
  let v := w % 2 ^ nbits
  [BitVec.ofNat 8 v, BitVec.ofNat 8 (v / 256), BitVec.ofNat 8 (v / 65536)]

end Sys2Proof.Machine
end

