-- ==== Sys2Proof/Machine/Step.lean ====
section
/-! DEFINITION. One step of the machine, and the placing of an instruction where it fetches next. -/

namespace Sys2Proof.Machine

/-- One step (40 R100). -/
def step (s : State) : Host.Outcome State Fault Refusal := coreStep s

/-- `s` with the instruction of a table word at PC, and with what the next step needs to fetch it: the core running, the halt
input low and no NMI pending. Assumption log 13. -/
def State.withFetchWord (s : State) (nbits w : Nat) : State :=
  { s with mem := storeBytes s.mem s.pc (tableWordBytes nbits w), run := .running, haltIn := false, nmiPending := false }

end Sys2Proof.Machine
end

