-- ==== Sys2Proof/Machine/OnBus.lean ====
section
/-! DEFINITION. The same core on any bus (20_memory rule R52: "A model should take the bus as a parameter"): the meanings and
the step, with the bus as an argument. On the configuration's bus they are `exec` and `step`. -/

namespace Sys2Proof.Machine

/-- The effect of a fetched instruction on a bus: `exec` with every meaning given that bus. -/
def execOn (bus : Bus) (i : Instr) (s : State) : Result :=
  match i with
  -- Group 1, cc = 01 (R84; R150 to R158)
  | .ora m => execOra m s bus
  | .and m => execAnd m s bus
  | .eor m => execEor m s bus
  | .adc m => execAdc m s bus
  | .sta m => execSta m s bus
  | .lda m => execLda m s bus
  | .cmp m => execCmp m s bus
  | .sbc m => execSbc m s bus
  -- Group 2, cc = 10 (R85; R170 to R178)
  | .asl m => execAsl m s bus
  | .rol m => execRol m s bus
  | .lsr m => execLsr m s bus
  | .ror m => execRor m s bus
  | .stx m => execStx m s bus
  | .ldx m => execLdx m s bus
  | .dec m => execDec m s bus
  | .inc m => execInc m s bus
  -- Group 3, cc = 00 (R86; R190 to R196)
  | .bit m => execBit m s bus
  | .jmpAbs a16 => execJmpAbs a16 s bus
  | .jmpInd a16 => execJmpInd a16 s bus
  | .sty m => execSty m s bus
  | .ldy m => execLdy m s bus
  | .cpy m => execCpy m s bus
  | .cpx m => execCpx m s bus
  -- Conditional branches (R86; R197 to R205)
  | .bpl d8 => execBpl d8 s bus
  | .bmi d8 => execBmi d8 s bus
  | .bvc d8 => execBvc d8 s bus
  | .bvs d8 => execBvs d8 s bus
  | .bcc d8 => execBcc d8 s bus
  | .bcs d8 => execBcs d8 s bus
  | .bne d8 => execBne d8 s bus
  | .beq d8 => execBeq d8 s bus
  -- Single-byte group 1, low nibble 8 (R87; R220 to R235)
  | .php => execPhp s bus
  | .clc => execClc s bus
  | .plp => execPlp s bus
  | .sec => execSec s bus
  | .pha => execPha s bus
  | .cli => execCli s bus
  | .pla => execPla s bus
  | .sei => execSei s bus
  | .dey => execDey s bus
  | .tya => execTya s bus
  | .tay => execTay s bus
  | .clv => execClv s bus
  | .iny => execIny s bus
  | .cld => execCld s bus
  | .inx => execInx s bus
  | .sed => execSed s bus
  -- Single-byte group 2, low nibble A (R88; R236 to R241)
  | .txa => execTxa s bus
  | .txs => execTxs s bus
  | .tax => execTax s bus
  | .tsx => execTsx s bus
  | .dex => execDex s bus
  | .nop => execNop s bus
  | .nopDA => execNopDA s bus
  | .nopFA => execNopFA s bus
  -- Irregular opcodes (R89; R250 to R253)
  | .brk => execBrk s bus
  | .jsr a16 => execJsr a16 s bus
  | .rti => execRti s bus
  | .rts => execRts s bus
  -- Illegal opcodes (R90; R260 to R274)
  | .alr d8 => execAlr d8 s bus
  | .anc0B d8 => execAnc0B d8 s bus
  | .anc2B d8 => execAnc2B d8 s bus
  | .arr d8 => execArr d8 s bus
  | .axs d8 => execAxs d8 s bus
  | .lax m => execLax m s bus
  | .sax m => execSax m s bus
  | .sha m => execSha m s bus
  | .sbcEB d8 => execSbcEB d8 s bus
  | .dcp m => execDcp m s bus
  | .isc m => execIsc m s bus
  | .rla m => execRla m s bus
  | .rra m => execRra m s bus
  | .slo m => execSlo m s bus
  | .sre m => execSre m s bus
  | .undecoded op => execUndecoded op s

/-- `Step()` on a bus (40 R100). -/
def stepOn (bus : Bus) (s : State) : Result := coreStep s bus (execOn bus)

end Sys2Proof.Machine
end

