-- ==== Sys2Proof/Safety.lean ====
section
/-! DEFINITION. The terms claims are stated in: the invariant of every reachable state, what a normal end is, which flags an
instruction leaves alone, what an operand read and a resolved address are, and the penalties of 70 rule R348. -/

namespace Sys2Proof.Machine

/-- The invariant of 10 R28 with the memory's canonical form: the live P has `U = 1` and `B = 0`. -/
def State.Inv (s : State) : Prop :=
  Memory.wf s.mem = true ∧ getFlag .U s.p = true ∧ getFlag .B s.p = false

/-- The end a claim about a run may accept: HALTED, never FAULTED (60 R321). -/
def State.endedNormally (s : State) : Prop := s.run = .halted

/-- Every flag but the written ones is as it was (10 R27). -/
def flagsKept (written : List Flag) (p q : Byte) : Prop := ∀ f, f ∉ written → getFlag f q = getFlag f p

/-- The flags after a "register-load-like" result `v`: Z and N from it, the others kept (40 R140). -/
def loadFlags (v p q : Byte) : Prop :=
  (getFlag .Z q = true ↔ v = 0) ∧ getFlag .N q = v.getLsbD 7 ∧ flagsKept [.Z, .N] p q

/-- The flags after `Compare(reg, m)`: C, Z, N by the unsigned order, equality and the wrapped difference (41 R157). -/
def comparedFlags (reg m p q : Byte) : Prop :=
  (getFlag .C q = true ↔ m.toNat ≤ reg.toNat) ∧ (getFlag .Z q = true ↔ reg = m) ∧
  getFlag .N q = (reg - m).getLsbD 7 ∧ flagsKept [.C, .Z, .N] p q

/-- The flags after an addition with result `r` of `a`, `m` and the carry of `p`, read as arithmetic (41 R154): C the unsigned
carry-out, V the signed result outside −128 to +127. -/
def addedFlags (a m p r q : Byte) : Prop :=
  (getFlag .C q = true ↔ 255 < a.toNat + m.toNat + (getFlag .C p).toNat) ∧
  (getFlag .V q = true ↔
    a.toInt + m.toInt + (getFlag .C p).toNat < -128 ∨ 127 < a.toInt + m.toInt + (getFlag .C p).toNat) ∧
  (getFlag .Z q = true ↔ r = 0) ∧ getFlag .N q = r.getLsbD 7 ∧ flagsKept [.C, .V, .Z, .N] p q

/-- The 8-bit result of an addition with carry (41 R154). -/
def isSum (a m p r : Byte) : Prop := r.toNat = (a.toNat + m.toNat + (getFlag .C p).toNat) % 256

/-- The resolver answers `q` and leaves the state as it was but for the pointer reads it adds to the record, `evs` the record
after them (40 R110). -/
def Addresses (m : AddrMode) (s : State) (q : Resolved) (evs : List BusEvent) : Prop :=
  resolve m s = .ok (q, { s with events := evs })

/-- The resolver answers `q` and `v` is the operand byte `M`, with `evs` the record after the reads. For Immediate it is the
operand's own byte `d8`, which the fetch has read, and nothing more is read (40 R111; the model's choice, assumption log 6);
for every other mode it is the byte at the effective address, read once, after the pointer (41 R150). -/
def ReadsOperand (m : AddrMode) (s : State) (q : Resolved) (v : Byte) (evs : List BusEvent) : Prop :=
  ∃ pointer, Addresses m s q pointer ∧
    match m with
    | .imm d => v = d ∧ evs = pointer
    | .zp _ | .zpX _ | .zpY _ | .abs _ | .absX _ | .absY _ | .indX _ | .indY _ | .ind _ | .acc | .impl | .rel _ =>
      v = byteAt s q.ea ∧ evs = pointer ++ [.read q.ea v]

/-- The end of an instruction that transfers no control (40 R105), from a state `u` that has its register and memory effects:
PC past its `len` bytes, `n` cycles on the total, the record `evs` closed by the one tick. -/
def retired (u : State) (evs : List BusEvent) (len n : Nat) : State :=
  { u with pc := u.pc + BitVec.ofNat 16 len, ticks := u.ticks + n, events := evs ++ [.tick n] }

/-- The end of a control transfer (40 R105): PC the target. -/
def transferred (u : State) (evs : List BusEvent) (target : Addr) (n : Nat) : State :=
  { u with pc := target, ticks := u.ticks + n, events := evs ++ [.tick n] }

/-- One byte stored at `a`, every other byte of memory as before, read byte by byte. -/
def storesByte (s t : State) (a : Addr) (v : Byte) : Prop :=
  byteAt t a = v ∧ ∀ k, k ≠ a → byteAt t k = byteAt s k

/-- One cell of the opcode map with its cycle count: an addressing mode with its operand, the opcode byte, the base count of
R349, and whether the cell is marked `+p`. -/
structure Form where
  mode : AddrMode
  opcode : Byte
  cycles : Nat
  pays : Bool
  deriving DecidableEq, Repr

/-- The eight cells of a reading operation of group 1, in R84's column order, with the cycles of 41 R150. -/
def group1Forms (d : Byte) (w : Addr) (indX zp imm abs indY zpX absY absX : Byte) : List Form :=
  [⟨.indX d, indX, 6, false⟩, ⟨.zp d, zp, 3, false⟩, ⟨.imm d, imm, 2, false⟩, ⟨.abs w, abs, 4, false⟩,
   ⟨.indY d, indY, 5, true⟩, ⟨.zpX d, zpX, 4, false⟩, ⟨.absY w, absY, 4, true⟩, ⟨.absX w, absX, 4, true⟩]

/-- The memory cells of a shift or rotate, or of DEC or INC: zp, zp,X, abs, abs,X (R85, 42 R170). -/
def modifyForms (d : Byte) (w : Addr) (zp zpX abs absX : Byte) : List Form :=
  [⟨.zp d, zp, 5, false⟩, ⟨.zpX d, zpX, 6, false⟩, ⟨.abs w, abs, 6, false⟩, ⟨.absX w, absX, 7, false⟩]

/-- The seven cells of an illegal read-modify-write opcode, in R90's order, with the cycles of 46 R260. -/
def illegalForms (d : Byte) (w : Addr) (zp zpX abs absX absY indX indY : Byte) : List Form :=
  [⟨.zp d, zp, 5, false⟩, ⟨.zpX d, zpX, 6, false⟩, ⟨.abs w, abs, 6, false⟩, ⟨.absX w, absX, 7, false⟩,
   ⟨.absY w, absY, 7, false⟩, ⟨.indX d, indX, 8, false⟩, ⟨.indY d, indY, 8, false⟩]

/-- `i` at the cell `f` has that opcode and completes in the read shape of 41 R150: the operand `v` is read, the effect relates
it to a state `u`, and the instruction ends from `u` with the cell's cycles. -/
def CompletesReading (i : Instr) (f : Form) (s : State) (effect : Byte → State → Prop) : Prop :=
  i.opcode = some f.opcode ∧ ∃ q v evs u, ReadsOperand f.mode s q v evs ∧ effect v u ∧
    exec i s = .next (retired u evs f.mode.length (f.cycles + (f.pays && q.crossed).toNat))

/-- `i` at the cell `f` has that opcode and completes in the store shape of 41 R155: one write of `val` at the resolved
address, nothing else changed but PC, the tick total and the record. -/
def CompletesStoring (i : Instr) (f : Form) (s : State) (val : Resolved → Byte) : Prop :=
  i.opcode = some f.opcode ∧ ∃ q evs t, Addresses f.mode s q evs ∧ exec i s = .next t ∧ storesByte s t q.ea (val q) ∧
    t = retired { s with mem := t.mem } (evs ++ [.write q.ea (val q)]) f.mode.length f.cycles

/-- `i` at the cell `f` has that opcode and completes in the read-modify-write shape of 42 R170 and 46 R260: one read of `v`,
one write of the new value `r`, both at the resolved address, the effect relating the two to a state `u` of the registers. -/
def CompletesModifying (i : Instr) (f : Form) (s : State) (effect : Byte → Byte → State → Prop) : Prop :=
  i.opcode = some f.opcode ∧ ∃ q evs r u t, Addresses f.mode s q evs ∧ effect (byteAt s q.ea) r u ∧ exec i s = .next t ∧
    storesByte s t q.ea r ∧
    t = retired { u with mem := t.mem } (evs ++ [.read q.ea (byteAt s q.ea), .write q.ea r]) f.mode.length f.cycles

/-- `i` is the one-byte instruction `op`, completes in `n` cycles with no bus access of its own, and its effect is `u`. -/
def CompletesInRegisters (i : Instr) (op : Byte) (n : Nat) (s u : State) : Prop :=
  i.opcode = some op ∧ exec i s = .next (retired u s.events 1 n)

/-- A left shift by one with `fill` in the vacated bit (42 R171, R172). -/
def shiftedLeft (v r : Byte) (fill : Bool) : Prop :=
  r.getLsbD 0 = fill ∧ ∀ k, k < 7 → r.getLsbD (k + 1) = v.getLsbD k

/-- A right shift by one with `fill` in the vacated bit (42 R173, R174). -/
def shiftedRight (v r : Byte) (fill : Bool) : Prop :=
  r.getLsbD 7 = fill ∧ ∀ k, k < 7 → r.getLsbD k = v.getLsbD (k + 1)

/-- The flags of a shift or rotate with result `r` and carry-out `c`: C, Z, N (42 R170 to R174). -/
def shiftFlags (c : Bool) (r p q : Byte) : Prop :=
  getFlag .C q = c ∧ (getFlag .Z q = true ↔ r = 0) ∧ getFlag .N q = r.getLsbD 7 ∧ flagsKept [.C, .Z, .N] p q

/-- One flag written, the other seven kept. -/
def flagWritten (f : Flag) (b : Bool) (p q : Byte) : Prop := getFlag f q = b ∧ flagsKept [f] p q

/-- The addresses an instruction stores to: the resolved address of a store or a read-modify-write, the stack slots of the
pushers; none for any other form. -/
def storeAddrs (i : Instr) (s : State) : List Addr :=
  match i with
  | .sta m | .stx m | .sty m | .sax m | .sha m | .dec m | .inc m | .asl m | .rol m | .lsr m | .ror m
  | .dcp m | .isc m | .rla m | .rra m | .slo m | .sre m =>
    match resolve m s with
    | .ok q => [q.1.ea]
    | .error _ => []
  | .php | .pha => [stackAddr s.sp]
  | .jsr _ => [stackAddr s.sp, stackAddr (s.sp - 1)]
  | .brk => [stackAddr s.sp, stackAddr (s.sp - 1), stackAddr (s.sp - 2)]
  | _ => []

/-- The instructions that transfer control (43 R206), and the undecoded bytes, which leave PC where it is (30 R92). -/
def movesPc : Instr → Bool
  | .jmpAbs _ | .jmpInd _ | .jsr _ | .rts | .rti | .brk => true
  | .bpl _ | .bmi _ | .bvc _ | .bvs _ | .bcc _ | .bcs _ | .bne _ | .beq _ => true
  | .undecoded _ => true
  | _ => false

/-- The instructions that write A (10 R21). -/
def writesA : Instr → Bool
  | .ora _ | .and _ | .eor _ | .adc _ | .sbc _ | .sbcEB _ | .lda _ | .pla | .txa | .tya => true
  | .asl .acc | .lsr .acc | .rol .acc | .ror .acc => true
  | .alr _ | .anc0B _ | .anc2B _ | .arr _ | .lax _ | .isc _ | .rla _ | .rra _ | .slo _ | .sre _ => true
  | _ => false

/-- The instructions that write X (10 R22). -/
def writesX : Instr → Bool
  | .ldx _ | .tax | .tsx | .inx | .dex | .lax _ | .axs _ => true
  | _ => false

/-- The instructions that write Y (10 R23). -/
def writesY : Instr → Bool
  | .ldy _ | .tay | .iny | .dey => true
  | _ => false

/-- The instructions that write SP (10 R24). -/
def writesSp : Instr → Bool
  | .pha | .php | .pla | .plp | .jsr _ | .rts | .rti | .brk | .txs => true
  | _ => false

/-- The "written by" column of 10 R27, instructions only: which instructions may change a flag. -/
def writesFlag (f : Flag) (i : Instr) : Bool :=
  match f with
  | .B => false
  | .U => match i with
    | .plp | .rti => true
    | _ => false
  | .D => match i with
    | .sed | .cld | .plp | .rti => true
    | _ => false
  | .I => match i with
    | .sei | .cli | .brk | .plp | .rti => true
    | _ => false
  | .V => match i with
    | .adc _ | .sbc _ | .sbcEB _ | .bit _ | .clv | .plp | .rti | .arr _ | .isc _ | .rra _ => true
    | _ => false
  | .C => match i with
    | .adc _ | .sbc _ | .sbcEB _ | .asl _ | .lsr _ | .rol _ | .ror _ | .cmp _ | .cpx _ | .cpy _ => true
    | .clc | .sec | .plp | .rti => true
    | .alr _ | .anc0B _ | .anc2B _ | .arr _ | .axs _ | .dcp _ | .isc _ | .rla _ | .rra _ | .slo _ | .sre _ => true
    | _ => false
  | .Z | .N => match i with
    | .ora _ | .and _ | .eor _ | .adc _ | .sbc _ | .sbcEB _ | .lda _ | .ldx _ | .ldy _ => true
    | .asl _ | .lsr _ | .rol _ | .ror _ | .inc _ | .dec _ | .inx | .iny | .dex | .dey => true
    | .tax | .tay | .txa | .tya | .tsx | .pla | .cmp _ | .cpx _ | .cpy _ | .bit _ | .plp | .rti => true
    | .alr _ | .anc0B _ | .anc2B _ | .arr _ | .axs _ | .lax _ => true
    | .dcp _ | .isc _ | .rla _ | .rra _ | .slo _ | .sre _ => true
    | _ => false

/-- The instructions that read D or I: the pushers of P, BRK's halt test, and those that write the flag (10 R27, R29, R30). -/
def touchesFlag (f : Flag) (i : Instr) : Bool :=
  writesFlag f i || match i with
    | .php | .brk => true
    | _ => false

/-- Two states that agree on the registers and on memory. -/
def sameRegistersAndMemory (s t : State) : Prop :=
  s.a = t.a ∧ s.x = t.x ∧ s.y = t.y ∧ s.sp = t.sp ∧ s.pc = t.pc ∧ s.p = t.p ∧ s.mem = t.mem

/-- Two states that agree on everything but the bus: the registers, the run state, the halt input and the record of bus events. -/
def sameCore (s t : State) : Prop :=
  s.a = t.a ∧ s.x = t.x ∧ s.y = t.y ∧ s.sp = t.sp ∧ s.pc = t.pc ∧ s.p = t.p ∧ s.run = t.run ∧ s.haltIn = t.haltIn ∧
  s.events = t.events

/-- Two buses that answer alike from the states `R` relates, and stay related by every call (20 R51, R52). -/
def busesAlike (b1 b2 : Bus) (R : BusState → BusState → Prop) : Prop :=
  ∀ x y, R x y →
    (∀ a, (b1.read x a).1 = (b2.read y a).1 ∧ R (b1.read x a).2 (b2.read y a).2) ∧
    (∀ a v, R (b1.write x a v) (b2.write y a v)) ∧ (∀ n, R (b1.tick x n) (b2.tick y n)) ∧
    (b1.pollNmi x).1 = (b2.pollNmi y).1 ∧ R (b1.pollNmi x).2 (b2.pollNmi y).2

/-- The read class of 40 R131, without the page-cross cycle; 0 for a mode the class does not have. -/
def readClassCycles : AddrMode → Nat
  | .imm _ => 2
  | .zp _ => 3
  | .zpX _ | .zpY _ | .abs _ | .absX _ | .absY _ => 4
  | .indX _ => 6
  | .indY _ => 5
  | .ind _ | .acc | .impl | .rel _ => 0

/-- The store class of 40 R131, with the page-cross cycle always paid (R133). -/
def storeClassCycles : AddrMode → Nat
  | .zp _ => 3
  | .zpX _ | .zpY _ | .abs _ => 4
  | .absX _ | .absY _ => 5
  | .indX _ | .indY _ => 6
  | .imm _ | .ind _ | .acc | .impl | .rel _ => 0

/-- The read-modify-write class of 40 R131, with the page-cross cycle always paid (R133). -/
def modifyClassCycles : AddrMode → Nat
  | .acc => 2
  | .zp _ => 5
  | .zpX _ | .zpY _ | .abs _ => 6
  | .absX _ | .absY _ => 7
  | .indX _ | .indY _ => 8
  | .imm _ | .ind _ | .impl | .rel _ => 0

/-- The base cycle count by the classes of 40 R131, the branches of R134 and the fixed constants of R135. -/
def classCycles : Instr → Nat
  | .ora m | .and m | .eor m | .adc m | .sbc m | .cmp m | .lda m | .ldx m | .ldy m | .bit m | .cpx m | .cpy m | .lax m =>
    readClassCycles m
  | .sta m | .stx m | .sty m | .sax m | .sha m => storeClassCycles m
  | .asl m | .lsr m | .rol m | .ror m | .inc m | .dec m | .dcp m | .isc m | .rla m | .rra m | .slo m | .sre m =>
    modifyClassCycles m
  | .brk => 7
  | .jsr _ | .rti | .rts => 6
  | .jmpInd _ => 5
  | .pla | .plp => 4
  | .jmpAbs _ | .pha | .php => 3
  | _ => 2

/-- The instructions whose cell of R349 is marked `+p`: the read class in an indexed mode (40 R132). -/
def paysPageCross : Instr → Bool
  | .ora m | .and m | .eor m | .adc m | .lda m | .cmp m | .sbc m | .ldx m | .ldy m | .lax m =>
    match m with
    | .absX _ | .absY _ | .indY _ => true
    | .imm _ | .zp _ | .zpX _ | .zpY _ | .abs _ | .indX _ | .ind _ | .acc | .impl | .rel _ => false
  | _ => false

/-- `p` of 70 R348: 1 when the cell is marked `+p` and the resolver reports a page cross. -/
def pagePenalty (i : Instr) (s : State) : Nat :=
  if paysPageCross i then
    match resolve i.mode s with
    | .ok q => q.1.crossed.toNat
    | .error _ => 0
  else 0

/-- The condition of a branch, none for any other instruction (30 R86). -/
def branchCondition (i : Instr) (p : Byte) : Option Bool :=
  match i with
  | .bpl _ => some (!getFlag .N p)
  | .bmi _ => some (getFlag .N p)
  | .bvc _ => some (!getFlag .V p)
  | .bvs _ => some (getFlag .V p)
  | .bcc _ => some (!getFlag .C p)
  | .bcs _ => some (getFlag .C p)
  | .bne _ => some (!getFlag .Z p)
  | .beq _ => some (getFlag .Z p)
  | _ => none

/-- `b` of 70 R348: 0 not taken, 1 taken within the page of `pc0 + 2`, 2 taken to another page. -/
def branchPenalty (i : Instr) (s : State) : Nat :=
  match branchCondition i s.p, i.mode with
  | some true, .rel d => if hiByte (branchTarget s.pc d) = hiByte (s.pc + 2) then 1 else 2
  | _, _ => 0

end Sys2Proof.Machine
end

