-- ==== Sys2Proof/Certificates/Slice0/Obligations.lean ====
section
/-! DEFINITION. The statements for the provers, from the numbered rules of spec/. Opcode bytes and cycle counts in them are
the spec's own choices from general knowledge (30 decision D12, 40 decision D13; assumption log 9). -/

open Sys2Proof Sys2Proof.Machine

/-! ### Encoding -/

/-- Decoding the encoding of a well-formed instruction gives it back, with every operand at every value, whatever bytes
follow (30 R80, R84 to R93). -/
def Obligations.DecodeInvertsEncode : Prop :=
  ∀ (i : Instr) (rest : List Byte), i.wf = true → decode (encode i ++ rest) = .ok (i, rest)

/-- The other direction: any three bytes decode to a well-formed instruction whose encoding is the first of them, as many as
the opcode's length says (30 R82, R91 to R93). -/
def Obligations.EncodeInvertsDecode : Prop :=
  ∀ op b1 b2 : Byte,
    (decodeOp op b1 b2).wf = true ∧ encode (decodeOp op b1 b2) = [op, b1, b2].take (opcodeLength op)

/-- "The opcode byte alone determines the length": 1, 2 or 3 bytes, whatever the operand bytes are (30 R80, R93). The spec gives
an undecoded byte no length; that it counts as one byte long here is the model's choice (assumption log 17). -/
def Obligations.OpcodeByteDeterminesLength : Prop :=
  ∀ op b1 b2 : Byte,
    (decodeOp op b1 b2).length = opcodeLength op ∧
    (opcodeLength op = 1 ∨ opcodeLength op = 2 ∨ opcodeLength op = 3)

/-- The 43 bytes with no decode path, and no other byte, decode to `undecoded`. One of them at PC makes the core FAULTED, with
no register, flag or memory change, no operand read and no tick; no further step exists, and reset leaves that state (30 R92,
whose state after the abort is decision D19). -/
def Obligations.UndecodedBytesAreFatal : Prop :=
  undecodedBytes.length = 43 ∧ undecodedBytes.Nodup ∧
  (∀ op b1 b2 : Byte, op ∈ undecodedBytes → decodeOp op b1 b2 = .undecoded op) ∧
  (∀ op b1 b2 o : Byte, op ∉ undecodedBytes → decodeOp op b1 b2 ≠ .undecoded o) ∧
  (∀ (s : State) (op : Byte), exec (.undecoded op) s = .next { s with run := .faulted (.unimplementedOpcode op s.pc) }) ∧
  ∀ s : State, s.run = .running → s.haltIn = false → s.nmiPending = false → byteAt s s.pc ∈ undecodedBytes →
    ∃ t, step s = .next t ∧
      t = { s with
        run := .faulted (.unimplementedOpcode (byteAt s s.pc) s.pc)
        events := [.pollNmi false, .read s.pc (byteAt s s.pc)] } ∧
      step t = .fault (.faultedCore (.unimplementedOpcode (byteAt s s.pc) s.pc)) ∧ (hostReset t).run = .running

/-- A few words of the opcode map, one or more a family, written out from 30 R84 to R90. -/
def Obligations.DecodeSanityWords : Prop :=
  decodeTableWord 16 0x1009 = some (.ora (.imm 0x10)) ∧
  decodeTableWord 24 0x1234BD = some (.lda (.absX 0x1234)) ∧
  decodeTableWord 16 0x20B6 = some (.ldx (.zpY 0x20)) ∧
  decodeTableWord 24 0x06FF6C = some (.jmpInd 0x06FF) ∧
  decodeTableWord 16 0xFED0 = some (.bne 0xFE) ∧
  decodeTableWord 8 0x28 = some .plp ∧
  decodeTableWord 8 0x9A = some .txs ∧
  decodeTableWord 24 0x800520 = some (.jsr 0x8005) ∧
  decodeTableWord 16 0x1093 = some (.sha (.indY 0x10)) ∧
  decodeTableWord 24 0x02F01B = some (.slo (.absY 0x02F0)) ∧
  decodeTableWord 8 0x89 = some (.undecoded 0x89)

/-! ### The step -/

/-- A RUNNING core with the halt input low and no NMI pending runs the instruction its bytes decode to: `step` is `exec` of it,
on the state whose record holds the poll and the reads of the instruction's bytes, opcode first (40 R100, R102 to R104). -/
def Obligations.StepRunsDecodedInstruction : Prop :=
  ∀ (s : State) (i : Instr) (rest : List Byte),
    s.run = .running → s.haltIn = false → s.nmiPending = false →
    decode [byteAt s s.pc, byteAt s (s.pc + 1), byteAt s (s.pc + 2)] = .ok (i, rest) →
    i.wf = true ∧
    step s = exec i { s with events := .pollNmi false ::
      [.read s.pc (byteAt s s.pc), .read (s.pc + 1) (byteAt s (s.pc + 1)),
       .read (s.pc + 2) (byteAt s (s.pc + 2))].take i.length }

/-- The halt input, sampled first: the run state becomes HALTED and the step does nothing else, no poll, no fetch, no tick, and
a pending NMI stays pending (40 R101; the order before the poll is decision D8). -/
def Obligations.HaltInputStopsFirst : Prop :=
  ∀ s : State, s.run = .running → s.haltIn = true → step s = .next { s with run := .halted, events := [] }

/-- A step exists exactly in run state RUNNING, on every bus, whatever it answers: a read never fails (20 R51). In HALTED and
FAULTED the step is the named fault, and reset leads back to RUNNING (40 R100, 10 R33; the fault outcomes are the model's,
assumption log 4). `step` is the step on the configuration's bus (20 R52). -/
def Obligations.StepExistsExactlyWhenRunning : Prop :=
  (∀ s : State, step s = stepOn config.bus s) ∧
  ∀ (bus : Bus) (s : State),
    ((∃ t, stepOn bus s = .next t) ↔ s.run = .running) ∧
    (s.run = .halted → stepOn bus s = .fault .haltedCore) ∧
    (∀ r, s.run = .faulted r → stepOn bus s = .fault (.faultedCore r)) ∧ (hostReset s bus).run = .running

/-- NMI service, the whole of a step that finds the flag pending, with I set as with I clear: the flag consumed; PC high, PC
low and the flags with B = 0 and U = 1 pushed; I set; the latency cycles ticked; PC from the vector; nothing else changed
(60 R306, R308; the tick before the vector read is decision D14, the vector and the 7 are D3 and D13). -/
def Obligations.PendingNmiIsServiced : Prop :=
  ∀ s : State, s.run = .running → s.haltIn = false → s.nmiPending = true →
    ∃ (t : State) (f : Byte), step s = .next t ∧
      (∀ g, getFlag g f = if g = .B then false else if g = .U then true else getFlag g s.p) ∧
      flagWritten .I true s.p t.p ∧
      t.sp.toNat = (s.sp.toNat + 253) % 256 ∧
      t.pc = mkAddr (byteAt s 0xFFFB) (byteAt s 0xFFFA) ∧
      byteAt t (mkAddr 0x01 s.sp) = hiByte s.pc ∧
      byteAt t (mkAddr 0x01 (s.sp - 1)) = loByte s.pc ∧
      byteAt t (mkAddr 0x01 (s.sp - 2)) = f ∧
      (∀ k, k ≠ mkAddr 0x01 s.sp → k ≠ mkAddr 0x01 (s.sp - 1) → k ≠ mkAddr 0x01 (s.sp - 2) →
        byteAt t k = byteAt s k) ∧
      t = { s with
        sp := t.sp, p := t.p, pc := t.pc, mem := t.mem, nmiPending := false, ticks := s.ticks + 7
        events := [.pollNmi true, .write (mkAddr 0x01 s.sp) (hiByte s.pc),
          .write (mkAddr 0x01 (s.sp - 1)) (loByte s.pc), .write (mkAddr 0x01 (s.sp - 2)) f, .tick 7,
          .read 0xFFFA (byteAt s 0xFFFA), .read 0xFFFB (byteAt s 0xFFFB)] }

/-- The laws of the NMI flag: (a) a poll of a true flag answers true and leaves it false, (b) of a false flag answers false
and leaves it false, (c) no instruction and no step sets it, (d) a raise of a true flag is not counted (60 R305; (d) is the
spec's own derivation from the source's words). A raise sets the flag and touches nothing else; so does the host with the
halt input (60 R304, 00 R7; that both land between steps is the model's, assumption log 3). -/
def Obligations.NmiFlagLaws : Prop :=
  (∀ s : State, s.nmiPending = true → (pollNmi s).1 = true ∧ (pollNmi s).2.nmiPending = false) ∧
  (∀ s : State, s.nmiPending = false → (pollNmi s).1 = false ∧ (pollNmi s).2.nmiPending = false) ∧
  (∀ (i : Instr) (s t : State), exec i s = .next t → t.nmiPending = s.nmiPending) ∧
  (∀ s t : State, step s = .next t → t.nmiPending = true → s.nmiPending = true) ∧
  (∀ s : State, raiseNmi s = { s with nmiPending := true } ∧ raiseNmi (raiseNmi s) = raiseNmi s) ∧
  ∀ (s : State) (b : Bool), setHaltIn s b = { s with haltIn := b }

/-- BRK: `pc0 + 2` and P with B and U set are pushed, I is set, PC is the word at the BRK vector, 7 cycles; the run ends
exactly when I was set before it (45 R250; I set by BRK is decision D7, the halt's reading D6, the vector D3). -/
def Obligations.BrkTakesTheBreak : Prop :=
  Instr.opcode .brk = some 0x00 ∧
  ∀ s : State, ∃ (t : State) (f : Byte), exec .brk s = .next t ∧
    (∀ g, getFlag g f = if g = .B ∨ g = .U then true else getFlag g s.p) ∧
    flagWritten .I true s.p t.p ∧
    t.sp.toNat = (s.sp.toNat + 253) % 256 ∧
    t.pc = mkAddr (byteAt s 0xFFFF) (byteAt s 0xFFFE) ∧
    t.run = (if getFlag .I s.p then .halted else s.run) ∧
    byteAt t (mkAddr 0x01 s.sp) = hiByte (s.pc + 2) ∧
    byteAt t (mkAddr 0x01 (s.sp - 1)) = loByte (s.pc + 2) ∧
    byteAt t (mkAddr 0x01 (s.sp - 2)) = f ∧
    (∀ k, k ≠ mkAddr 0x01 s.sp → k ≠ mkAddr 0x01 (s.sp - 1) → k ≠ mkAddr 0x01 (s.sp - 2) →
      byteAt t k = byteAt s k) ∧
    t = { s with
      sp := t.sp, p := t.p, pc := t.pc, mem := t.mem, run := t.run, ticks := s.ticks + 7
      events := s.events ++ [.write (mkAddr 0x01 s.sp) (hiByte (s.pc + 2)),
        .write (mkAddr 0x01 (s.sp - 1)) (loByte (s.pc + 2)), .write (mkAddr 0x01 (s.sp - 2)) f,
        .read 0xFFFE (byteAt s 0xFFFE), .read 0xFFFF (byteAt s 0xFFFF), .tick 7] }

/-- RTI: flags popped and restored (U forced, B kept), then PC popped low byte first and used as it is, 6 cycles (45 R252;
the flag restore is decision D4, the order of the pops D24). -/
def Obligations.RtiReturns : Prop :=
  Instr.opcode .rti = some 0x40 ∧
  ∀ s : State, ∃ p' : Byte,
    (∀ g, getFlag g p' = if g = .U then true else if g = .B then getFlag .B s.p
      else getFlag g (byteAt s (mkAddr 0x01 (s.sp + 1)))) ∧
    exec .rti s = .next (transferred { s with sp := s.sp + 3, p := p' }
      (s.events ++ [.read (mkAddr 0x01 (s.sp + 1)) (byteAt s (mkAddr 0x01 (s.sp + 1))),
        .read (mkAddr 0x01 (s.sp + 2)) (byteAt s (mkAddr 0x01 (s.sp + 2))),
        .read (mkAddr 0x01 (s.sp + 3)) (byteAt s (mkAddr 0x01 (s.sp + 3)))])
      (mkAddr (byteAt s (mkAddr 0x01 (s.sp + 3))) (byteAt s (mkAddr 0x01 (s.sp + 2)))) 6)

/-- RTI executed on the state an exception leaves. After an NMI service it resumes at the instruction that was not fetched,
after BRK at `pc0 + 2`; the stack pointer and C, Z, I, D, B, V, N are as they were
and U is set (60 R312). -/
def Obligations.RtiResumesAfterException : Prop :=
  (∀ s : State, s.run = .running → s.haltIn = false → s.nmiPending = true →
    ∃ t u, step s = .next t ∧ exec .rti t = .next u ∧ u.pc = s.pc ∧ u.sp = s.sp ∧
      getFlag .U u.p = true ∧ flagsKept [.U] s.p u.p ∧ u.a = s.a ∧ u.x = s.x ∧ u.y = s.y) ∧
  ∀ s : State, ∃ t u, exec .brk s = .next t ∧ exec .rti t = .next u ∧ u.pc = s.pc + 2 ∧ u.sp = s.sp ∧
    getFlag .U u.p = true ∧ flagsKept [.U] s.p u.p

/-- JSR pushes the address of its own last byte, high byte first, and jumps; RTS pops a word, low byte first, and goes on one
past it; 6 cycles each, no flag written (45 R251, R253; the split of the arithmetic is decision D24). -/
def Obligations.SubroutineCallAndReturn : Prop :=
  (∀ w, Instr.opcode (.jsr w) = some 0x20) ∧ Instr.opcode .rts = some 0x60 ∧
  (∀ (s : State) (w : Addr), ∃ t, exec (.jsr w) s = .next t ∧
    byteAt t (mkAddr 0x01 s.sp) = hiByte (s.pc + 2) ∧
    byteAt t (mkAddr 0x01 (s.sp - 1)) = loByte (s.pc + 2) ∧
    (∀ k, k ≠ mkAddr 0x01 s.sp → k ≠ mkAddr 0x01 (s.sp - 1) → byteAt t k = byteAt s k) ∧
    t = transferred { s with sp := s.sp - 2, mem := t.mem }
      (s.events ++ [.write (mkAddr 0x01 s.sp) (hiByte (s.pc + 2)),
        .write (mkAddr 0x01 (s.sp - 1)) (loByte (s.pc + 2))]) w 6) ∧
  ∀ s : State, exec .rts s = .next (transferred { s with sp := s.sp + 2 }
      (s.events ++ [.read (mkAddr 0x01 (s.sp + 1)) (byteAt s (mkAddr 0x01 (s.sp + 1))),
        .read (mkAddr 0x01 (s.sp + 2)) (byteAt s (mkAddr 0x01 (s.sp + 2)))])
      (mkAddr (byteAt s (mkAddr 0x01 (s.sp + 2))) (byteAt s (mkAddr 0x01 (s.sp + 1))) + 1) 6)

/-- RTS executed on the state a JSR leaves resumes exactly one byte past the JSR's operand, with the stack pointer restored,
wherever the stack pointer and the code are (45 R251, R253). -/
def Obligations.JsrThenRtsResumes : Prop :=
  ∀ (s : State) (w : Addr), ∃ t u, exec (.jsr w) s = .next t ∧ exec .rts t = .next u ∧
    u.pc = s.pc + 3 ∧ u.sp = s.sp ∧ u.p = s.p ∧ u.a = s.a ∧ u.x = s.x ∧ u.y = s.y

/-- Reset, from any state: A, X, Y zero, SP 0xFD, P 0x24, PC from the word at 0xFFFC, RUNNING; two reads, no tick; memory, the
NMI flag and the halt input untouched (70 R340, R341; A, X, Y and PC are decision D9). The machine's reset state is that of a
memory with nothing listed and no input asserted (10 R38; the model's choice, assumption log 2, 3, 7). -/
def Obligations.ResetSequence : Prop :=
  (∀ s : State, hostReset s = { s with
    a := 0x00, x := 0x00, y := 0x00, sp := 0xFD, p := 0x24, run := .running
    pc := mkAddr (byteAt s 0xFFFD) (byteAt s 0xFFFC)
    events := [.read 0xFFFC (byteAt s 0xFFFC), .read 0xFFFD (byteAt s 0xFFFD)] }) ∧
  State.reset.p = 0x24 ∧ State.reset.sp = 0xFD ∧ State.reset.a = 0 ∧ State.reset.x = 0 ∧ State.reset.y = 0 ∧
  State.reset.pc = 0x0000 ∧ State.reset.run = .running ∧ State.reset.mem = [] ∧
  State.reset.haltIn = false ∧ State.reset.nmiPending = false ∧ State.reset.ticks = 0 ∧
  hostReset State.reset = State.reset

/-! ### Helpers the instructions share -/

/-- `SetZN(v)`: Z exactly when v is zero, N its bit 7, the other six flags as they were (40 R140). -/
def Obligations.SetZNWritesZeroAndNegative : Prop :=
  ∀ v p : Byte, loadFlags v p (setZN v p)

/-- The layout of P, and `RestoreFlags(v)`. C, Z, I, D, B, U, V, N are bits 0 to 7 (10 R26, decision D1); a restore takes bits
7, 6, 3, 2, 1, 0 from v, sets bit 5 and keeps the live bit 4 (40 R145, decision D4). -/
def Obligations.FlagLayoutAndRestore : Prop :=
  (∀ p : Byte, getFlag .C p = p.getLsbD 0 ∧ getFlag .Z p = p.getLsbD 1 ∧ getFlag .I p = p.getLsbD 2 ∧
    getFlag .D p = p.getLsbD 3 ∧ getFlag .B p = p.getLsbD 4 ∧ getFlag .U p = p.getLsbD 5 ∧
    getFlag .V p = p.getLsbD 6 ∧ getFlag .N p = p.getLsbD 7) ∧
  ∀ v p : Byte, ∀ k, k < 8 →
    (restoreFlags v p).getLsbD k = if k = 5 then true else if k = 4 then p.getLsbD 4 else v.getLsbD k

/-- The stack: a push writes at `{0x01, SP}` and decrements modulo 256, a pop increments and reads; 16-bit pushes go high byte
first and 16-bit pops low byte first; a pop after a push gives the byte back (40 R141 to R144, decisions D2, D23). -/
def Obligations.StackPushAndPop : Prop :=
  (∀ (s : State) (v : Byte), storesByte s (push s v) (mkAddr 0x01 s.sp) v ∧
    (push s v).sp.toNat = (s.sp.toNat + 255) % 256 ∧
    push s v = { s with
      sp := (push s v).sp, mem := (push s v).mem, events := s.events ++ [.write (mkAddr 0x01 s.sp) v] }) ∧
  (∀ s : State, (pop s).1 = byteAt s (mkAddr 0x01 (s.sp + 1)) ∧ (pop s).2.sp.toNat = (s.sp.toNat + 1) % 256 ∧
    (pop s).2 = { s with
      sp := (pop s).2.sp
      events := s.events ++ [.read (mkAddr 0x01 (s.sp + 1)) (byteAt s (mkAddr 0x01 (s.sp + 1)))] }) ∧
  (∀ (s : State) (w : Addr), push16 s w = push (push s (hiByte w)) (loByte w)) ∧
  (∀ (s : State) (v : Byte), (pop (push s v)).1 = v ∧ (pop (push s v)).2.sp = s.sp) ∧
  ∀ (s : State) (w : Addr), (pop16 (push16 s w)).1 = w ∧ (pop16 (push16 s w)).2.sp = s.sp

/-- Plain memory: a read answers the last byte written to the address and no write touches another address; two canonical
memories that answer alike are the same data, and a write keeps the canonical form (20 R62, R67; the form is the model's). -/
def Obligations.MemoryIsPlain : Prop :=
  (∀ (s : State) (a : Addr) (v : Byte), storesByte s (memWrite s a v) a v) ∧
  (∀ (m : Memory) (a : Addr) (v : Byte), m.wf = true → (m.set a.toNat v).wf = true) ∧
  ∀ m n : Memory, m.wf = true → n.wf = true → (∀ k, m.get k = n.get k) → m = n

/-! ### The addressing-mode resolver -/

/-- The direct modes, with their wraps: Immediate the address after the opcode; the zero-page modes truncated to 8 bits;
Absolute the operand; Absolute,X and Absolute,Y the sum modulo 65536, crossed exactly when the high byte changes (40 R111
to R117, R124). That the resolver reads nothing for them is the model's choice: the fetch has read their operand bytes
(assumption log 6). -/
def Obligations.DirectModeAddresses : Prop :=
  ∀ (s : State) (d : Byte) (w : Addr),
    (∃ q, Addresses (.imm d) s q s.events ∧ q.ea.toNat = (s.pc.toNat + 1) % 65536 ∧ q.crossed = false) ∧
    (∃ q, Addresses (.zp d) s q s.events ∧ q.ea.toNat = d.toNat ∧ q.crossed = false) ∧
    (∃ q, Addresses (.zpX d) s q s.events ∧ q.ea.toNat = (d.toNat + s.x.toNat) % 256 ∧ q.crossed = false) ∧
    (∃ q, Addresses (.zpY d) s q s.events ∧ q.ea.toNat = (d.toNat + s.y.toNat) % 256 ∧ q.crossed = false) ∧
    (∃ q, Addresses (.abs w) s q s.events ∧ q.ea = w ∧ q.crossed = false) ∧
    (∃ q, Addresses (.absX w) s q s.events ∧ q.ea.toNat = (w.toNat + s.x.toNat) % 65536 ∧
      (q.crossed = true ↔ q.ea.toNat / 256 ≠ w.toNat / 256)) ∧
    ∃ q, Addresses (.absY w) s q s.events ∧ q.ea.toNat = (w.toNat + s.y.toNat) % 65536 ∧
      (q.crossed = true ↔ q.ea.toNat / 256 ≠ w.toNat / 256)

/-- Indirect,X and Indirect,Y: the pointer's two bytes come from page 0, low byte first, its location wrapping; Y is added
after the pointer is read, and only that addition can cross a page (40 R118, R119; the second byte's wrap is decision D15). -/
def Obligations.ZeroPagePointerModes : Prop :=
  ∀ (s : State) (d : Byte),
    (∃ q, ∃ z l h : Byte, z.toNat = (d.toNat + s.x.toNat) % 256 ∧ l = s.mem.get z.toNat ∧
      h = s.mem.get ((z.toNat + 1) % 256) ∧
      Addresses (.indX d) s q (s.events ++ [.read (mkAddr 0 z) l, .read (mkAddr 0 (z + 1)) h]) ∧
      q.ea.toNat = 256 * h.toNat + l.toNat ∧ q.crossed = false) ∧
    ∃ q, ∃ l h : Byte, l = s.mem.get d.toNat ∧ h = s.mem.get ((d.toNat + 1) % 256) ∧
      Addresses (.indY d) s q (s.events ++ [.read (mkAddr 0 d) l, .read (mkAddr 0 (d + 1)) h]) ∧
      q.ea.toNat = (256 * h.toNat + l.toNat + s.y.toNat) % 65536 ∧
      (q.crossed = true ↔ q.ea.toNat / 256 ≠ h.toNat)

/-- Indirect, the mode of JMP alone: the target's low byte is read at the pointer and its high byte at the pointer with only
the low byte incremented, which is `p + 1`, but `p & 0xFF00` when the pointer's low byte is 0xFF; no page is crossed. A
step at such a JMP reads the pointer from the two bytes after the opcode, low byte first, then the target, and goes there
(40 R120). -/
def Obligations.IndirectPointerStaysInPage : Prop :=
  (∀ (i : Instr) (p : Addr), i.wf = true → (i.mode = .ind p ↔ i = .jmpInd p)) ∧
  (∀ p : Addr, let aHi := mkAddr (hiByte p) (loByte p + 1)
    (p.toNat % 256 = 255 → aHi.toNat = p.toNat - 255 ∧ aHi = p &&& 0xFF00) ∧
    (p.toNat % 256 ≠ 255 → aHi.toNat = p.toNat + 1) ∧
    ∀ s : State, ∃ q,
      Addresses (.ind p) s q (s.events ++ [.read p (byteAt s p), .read aHi (byteAt s aHi)]) ∧
      q.ea.toNat = 256 * (byteAt s aHi).toNat + (byteAt s p).toNat ∧ q.crossed = false) ∧
  ∀ (s : State) (p : Addr), s.run = .running → s.haltIn = false → s.nmiPending = false →
    decodeOp (byteAt s s.pc) (byteAt s (s.pc + 1)) (byteAt s (s.pc + 2)) = .jmpInd p →
    let aHi := mkAddr (hiByte p) (loByte p + 1)
    p = mkAddr (byteAt s (s.pc + 2)) (byteAt s (s.pc + 1)) ∧
    ∃ t n, step s = .next t ∧ t.pc = mkAddr (byteAt s aHi) (byteAt s p) ∧
      t.events = [.pollNmi false, .read s.pc (byteAt s s.pc), .read (s.pc + 1) (byteAt s (s.pc + 1)),
        .read (s.pc + 2) (byteAt s (s.pc + 2)), .read p (byteAt s p), .read aHi (byteAt s aHi), .tick n]

/-- The resolver asked for the Accumulator's address is the fatal usage error, which takes no effect but the fault. The four
instructions that have the mode, and no others, work on A directly, with no bus access after the opcode fetch; no
well-formed instruction ever asks: from a RUNNING core none leaves that fault (40 R121, R106). -/
def Obligations.AccumulatorHasNoAddress : Prop :=
  (∀ s : State, resolve .acc s = .error .invalidAddressingModeUse ∧
    exec (.lda .acc) s = .next { s with run := .faulted .invalidAddressingModeUse }) ∧
  (∀ i : Instr, (i.wf = true ∧ i.mode = .acc) ↔ i ∈ [.asl .acc, .rol .acc, .lsr .acc, .ror .acc]) ∧
  (∀ i ∈ [Instr.asl .acc, .rol .acc, .lsr .acc, .ror .acc], ∀ s : State, ∃ a p n,
    exec i s = .next (retired { s with a := a, p := p } s.events 1 n)) ∧
  ∀ (i : Instr) (s t : State), i.wf = true → s.run = .running → exec i s = .next t →
    t.run ≠ .faulted .invalidAddressingModeUse

/-! ### Group 1 and the loads, stores and compares of the other groups -/

/-- ORA, AND, EOR in their eight modes: A the bitwise result, Z and N from it, nothing else (41 R150 to R153). -/
def Obligations.LogicInstructions : Prop :=
  ∀ (s : State) (d : Byte) (w : Addr),
    (∀ f ∈ group1Forms d w 0x01 0x05 0x09 0x0D 0x11 0x15 0x19 0x1D,
      CompletesReading (.ora f.mode) f s fun v u => u = { s with a := s.a ||| v, p := u.p } ∧ loadFlags u.a s.p u.p) ∧
    (∀ f ∈ group1Forms d w 0x21 0x25 0x29 0x2D 0x31 0x35 0x39 0x3D,
      CompletesReading (.and f.mode) f s fun v u => u = { s with a := s.a &&& v, p := u.p } ∧ loadFlags u.a s.p u.p) ∧
    ∀ f ∈ group1Forms d w 0x41 0x45 0x49 0x4D 0x51 0x55 0x59 0x5D,
      CompletesReading (.eor f.mode) f s fun v u => u = { s with a := s.a ^^^ v, p := u.p } ∧ loadFlags u.a s.p u.p

/-- ADC in its eight modes: the 9-bit sum's low byte to A, C the carry-out, V the signed overflow, Z and N, whatever D is
(41 R154, 10 R29). -/
def Obligations.AddWithCarry : Prop :=
  ∀ (s : State) (d : Byte) (w : Addr), ∀ f ∈ group1Forms d w 0x61 0x65 0x69 0x6D 0x71 0x75 0x79 0x7D,
    CompletesReading (.adc f.mode) f s fun v u =>
      u = { s with a := u.a, p := u.p } ∧ isSum s.a v s.p u.a ∧ addedFlags s.a v s.p u.a u.p

/-- SBC in its eight modes and in its second encoding: A − M − (1 − C) modulo 256, C the absence of a borrow, V the signed
difference outside −128 to +127, Z and N (41 R158, 46 R268). -/
def Obligations.SubtractWithBorrow : Prop :=
  ∀ (s : State) (d : Byte) (w : Addr),
    let effect := fun (v : Byte) (u : State) =>
      let borrow := 1 - (getFlag .C s.p).toNat
      u = { s with a := u.a, p := u.p } ∧
      (u.a.toNat : Int) = ((s.a.toNat : Int) - v.toNat - borrow) % 256 ∧
      (getFlag .C u.p = true ↔ v.toNat + borrow ≤ s.a.toNat) ∧
      (getFlag .V u.p = true ↔ s.a.toInt - v.toInt - borrow < -128 ∨ 127 < s.a.toInt - v.toInt - borrow) ∧
      (getFlag .Z u.p = true ↔ u.a = 0) ∧ getFlag .N u.p = u.a.getLsbD 7 ∧ flagsKept [.C, .V, .Z, .N] s.p u.p
    (∀ f ∈ group1Forms d w 0xE1 0xE5 0xE9 0xED 0xF1 0xF5 0xF9 0xFD, CompletesReading (.sbc f.mode) f s effect) ∧
    CompletesReading (.sbcEB d) ⟨.imm d, 0xEB, 2, false⟩ s effect

/-- "SBC(a, operand, carry-in) must equal ADC(a, ~operand, carry-in) bit-for-bit including all four flags": on Immediate
operands the two instructions leave the same state (41 R158). -/
def Obligations.SubtractIsAddOfComplement : Prop :=
  ∀ (s : State) (d : Byte),
    exec (.sbc (.imm d)) s = exec (.adc (.imm (~~~d))) s ∧ exec (.sbcEB d) s = exec (.adc (.imm (~~~d))) s

/-- LDA, LDX, LDY and LAX in all their modes: the operand to the register (LAX: to A and X), Z and N from it
(41 R156, 42 R176, 43 R194, 46 R265). -/
def Obligations.LoadInstructions : Prop :=
  ∀ (s : State) (d : Byte) (w : Addr),
    (∀ f ∈ group1Forms d w 0xA1 0xA5 0xA9 0xAD 0xB1 0xB5 0xB9 0xBD,
      CompletesReading (.lda f.mode) f s fun v u => u = { s with a := v, p := u.p } ∧ loadFlags v s.p u.p) ∧
    (∀ f ∈ [⟨.imm d, 0xA2, 2, false⟩, ⟨.zp d, 0xA6, 3, false⟩, ⟨.zpY d, 0xB6, 4, false⟩, ⟨.abs w, 0xAE, 4, false⟩,
        ⟨.absY w, 0xBE, 4, true⟩],
      CompletesReading (.ldx f.mode) f s fun v u => u = { s with x := v, p := u.p } ∧ loadFlags v s.p u.p) ∧
    (∀ f ∈ [⟨.imm d, 0xA0, 2, false⟩, ⟨.zp d, 0xA4, 3, false⟩, ⟨.zpX d, 0xB4, 4, false⟩, ⟨.abs w, 0xAC, 4, false⟩,
        ⟨.absX w, 0xBC, 4, true⟩],
      CompletesReading (.ldy f.mode) f s fun v u => u = { s with y := v, p := u.p } ∧ loadFlags v s.p u.p) ∧
    ∀ f ∈ [⟨.zp d, 0xA7, 3, false⟩, ⟨.zpY d, 0xB7, 4, false⟩, ⟨.abs w, 0xAF, 4, false⟩, ⟨.absY w, 0xBF, 4, true⟩,
        ⟨.indX d, 0xA3, 6, false⟩, ⟨.indY d, 0xB3, 5, true⟩],
      CompletesReading (.lax f.mode) f s fun v u => u = { s with a := v, x := v, p := u.p } ∧ loadFlags v s.p u.p

/-- CMP, CPX and CPY in all their modes: C the unsigned register ≥ memory, Z the equality, N bit 7 of the wrapped
difference; the register and V unchanged (41 R157, 43 R195, R196). -/
def Obligations.CompareInstructions : Prop :=
  ∀ (s : State) (d : Byte) (w : Addr),
    (∀ f ∈ group1Forms d w 0xC1 0xC5 0xC9 0xCD 0xD1 0xD5 0xD9 0xDD,
      CompletesReading (.cmp f.mode) f s fun v u => u = { s with p := u.p } ∧ comparedFlags s.a v s.p u.p) ∧
    (∀ f ∈ [⟨.imm d, 0xE0, 2, false⟩, ⟨.zp d, 0xE4, 3, false⟩, ⟨.abs w, 0xEC, 4, false⟩],
      CompletesReading (.cpx f.mode) f s fun v u => u = { s with p := u.p } ∧ comparedFlags s.x v s.p u.p) ∧
    ∀ f ∈ [⟨.imm d, 0xC0, 2, false⟩, ⟨.zp d, 0xC4, 3, false⟩, ⟨.abs w, 0xCC, 4, false⟩],
      CompletesReading (.cpy f.mode) f s fun v u => u = { s with p := u.p } ∧ comparedFlags s.y v s.p u.p

/-- BIT: Z from `A & M`, V and N bits 6 and 7 of M; A and C unchanged (43 R190). -/
def Obligations.BitTest : Prop :=
  ∀ (s : State) (d : Byte) (w : Addr), ∀ f ∈ [⟨.zp d, 0x24, 3, false⟩, ⟨.abs w, 0x2C, 4, false⟩],
    CompletesReading (.bit f.mode) f s fun v u =>
      u = { s with p := u.p } ∧ (getFlag .Z u.p = true ↔ s.a &&& v = 0) ∧ getFlag .V u.p = v.getLsbD 6 ∧
      getFlag .N u.p = v.getLsbD 7 ∧ flagsKept [.Z, .V, .N] s.p u.p

/-- STA, STX, STY and SAX in all their modes: one write of A, X, Y, or A and X; no flag written, the indexed cycle always
paid (41 R155, 42 R175, 43 R193, 46 R266). -/
def Obligations.StoreInstructions : Prop :=
  ∀ (s : State) (d : Byte) (w : Addr),
    (∀ f ∈ [⟨.indX d, 0x81, 6, false⟩, ⟨.zp d, 0x85, 3, false⟩, ⟨.abs w, 0x8D, 4, false⟩, ⟨.indY d, 0x91, 6, false⟩,
        ⟨.zpX d, 0x95, 4, false⟩, ⟨.absY w, 0x99, 5, false⟩, ⟨.absX w, 0x9D, 5, false⟩],
      CompletesStoring (.sta f.mode) f s fun _ => s.a) ∧
    (∀ f ∈ [⟨.zp d, 0x86, 3, false⟩, ⟨.zpY d, 0x96, 4, false⟩, ⟨.abs w, 0x8E, 4, false⟩],
      CompletesStoring (.stx f.mode) f s fun _ => s.x) ∧
    (∀ f ∈ [⟨.zp d, 0x84, 3, false⟩, ⟨.zpX d, 0x94, 4, false⟩, ⟨.abs w, 0x8C, 4, false⟩],
      CompletesStoring (.sty f.mode) f s fun _ => s.y) ∧
    ∀ f ∈ [⟨.zp d, 0x87, 3, false⟩, ⟨.zpY d, 0x97, 4, false⟩, ⟨.abs w, 0x8F, 4, false⟩, ⟨.indX d, 0x83, 6, false⟩],
      CompletesStoring (.sax f.mode) f s fun _ => s.a &&& s.x

/-- SHA: one write of A and X and the base's high byte plus one, at the ordinary indexed address. The value is the default
of the OPEN parameter `SHA_VALUE` (46 R267, decision D17; assumption log 11): a claim about it holds for that default. -/
def Obligations.ShaStoresDefaultValue : Prop :=
  ∀ (s : State) (d : Byte) (w : Addr),
    CompletesStoring (.sha (.absY w)) ⟨.absY w, 0x9F, 5, false⟩ s (fun _ => s.a &&& s.x &&& (hiByte w + 1)) ∧
    CompletesStoring (.sha (.indY d)) ⟨.indY d, 0x93, 6, false⟩ s
      (fun _ => s.a &&& s.x &&& (s.mem.get ((d.toNat + 1) % 256) + 1))

/-! ### Read-modify-write -/

/-- ASL and ROL, in memory and on the accumulator: every bit moves up one, bit 0 is 0 or the previous carry, C is the old
bit 7, Z and N from the result (42 R170 to R172). -/
def Obligations.LeftShifts : Prop :=
  ∀ (s : State) (d : Byte) (w : Addr),
    let effect := fun (fill : Bool) (v r : Byte) (u : State) =>
      shiftedLeft v r fill ∧ u = { s with p := u.p } ∧ shiftFlags (v.getLsbD 7) r s.p u.p
    (∀ f ∈ modifyForms d w 0x06 0x16 0x0E 0x1E, CompletesModifying (.asl f.mode) f s (effect false)) ∧
    (∀ f ∈ modifyForms d w 0x26 0x36 0x2E 0x3E, CompletesModifying (.rol f.mode) f s (effect (getFlag .C s.p))) ∧
    (∃ u, CompletesInRegisters (.asl .acc) 0x0A 2 s u ∧ u = { s with a := u.a, p := u.p } ∧
      shiftedLeft s.a u.a false ∧ shiftFlags (s.a.getLsbD 7) u.a s.p u.p) ∧
    ∃ u, CompletesInRegisters (.rol .acc) 0x2A 2 s u ∧ u = { s with a := u.a, p := u.p } ∧
      shiftedLeft s.a u.a (getFlag .C s.p) ∧ shiftFlags (s.a.getLsbD 7) u.a s.p u.p

/-- LSR and ROR, in memory and on the accumulator: every bit moves down one, bit 7 is 0 or the previous carry, C is the old
bit 0, Z and N from the result (42 R170, R173, R174). -/
def Obligations.RightShifts : Prop :=
  ∀ (s : State) (d : Byte) (w : Addr),
    let effect := fun (fill : Bool) (v r : Byte) (u : State) =>
      shiftedRight v r fill ∧ u = { s with p := u.p } ∧ shiftFlags (v.getLsbD 0) r s.p u.p
    (∀ f ∈ modifyForms d w 0x46 0x56 0x4E 0x5E, CompletesModifying (.lsr f.mode) f s (effect false)) ∧
    (∀ f ∈ modifyForms d w 0x66 0x76 0x6E 0x7E, CompletesModifying (.ror f.mode) f s (effect (getFlag .C s.p))) ∧
    (∃ u, CompletesInRegisters (.lsr .acc) 0x4A 2 s u ∧ u = { s with a := u.a, p := u.p } ∧
      shiftedRight s.a u.a false ∧ shiftFlags (s.a.getLsbD 0) u.a s.p u.p) ∧
    ∃ u, CompletesInRegisters (.ror .acc) 0x6A 2 s u ∧ u = { s with a := u.a, p := u.p } ∧
      shiftedRight s.a u.a (getFlag .C s.p) ∧ shiftFlags (s.a.getLsbD 0) u.a s.p u.p

/-- INC and DEC: one more or one less modulo 256, Z and N from the result, C and V unchanged (42 R170, R177, R178). -/
def Obligations.IncrementDecrementMemory : Prop :=
  ∀ (s : State) (d : Byte) (w : Addr),
    (∀ f ∈ modifyForms d w 0xC6 0xD6 0xCE 0xDE, CompletesModifying (.dec f.mode) f s fun v r u =>
      r.toNat = (v.toNat + 255) % 256 ∧ u = { s with p := u.p } ∧ loadFlags r s.p u.p) ∧
    ∀ f ∈ modifyForms d w 0xE6 0xF6 0xEE 0xFE, CompletesModifying (.inc f.mode) f s fun v r u =>
      r.toNat = (v.toNat + 1) % 256 ∧ u = { s with p := u.p } ∧ loadFlags r s.p u.p

/-- SLO, RLA and SRE: memory shifted or rotated, then the bitwise operation of A with the byte written; C the bit shifted
off, Z and N from A (46 R260, R271, R273, R274; decision D17). -/
def Obligations.IllegalShiftAndLogic : Prop :=
  ∀ (s : State) (d : Byte) (w : Addr),
    (∀ f ∈ illegalForms d w 0x07 0x17 0x0F 0x1F 0x1B 0x03 0x13, CompletesModifying (.slo f.mode) f s fun v r u =>
      shiftedLeft v r false ∧ u = { s with a := s.a ||| r, p := u.p } ∧ shiftFlags (v.getLsbD 7) u.a s.p u.p) ∧
    (∀ f ∈ illegalForms d w 0x27 0x37 0x2F 0x3F 0x3B 0x23 0x33, CompletesModifying (.rla f.mode) f s fun v r u =>
      shiftedLeft v r (getFlag .C s.p) ∧ u = { s with a := s.a &&& r, p := u.p } ∧
      shiftFlags (v.getLsbD 7) u.a s.p u.p) ∧
    ∀ f ∈ illegalForms d w 0x47 0x57 0x4F 0x5F 0x5B 0x43 0x53, CompletesModifying (.sre f.mode) f s fun v r u =>
      shiftedRight v r false ∧ u = { s with a := s.a ^^^ r, p := u.p } ∧ shiftFlags (v.getLsbD 0) u.a s.p u.p

/-- DCP, ISC and RRA: memory decremented and compared with A; incremented and subtracted from A; rotated right and added to A
with the carry the rotate left (46 R260, R269, R270, R272; decision D17). -/
def Obligations.IllegalModifyAndArithmetic : Prop :=
  ∀ (s : State) (d : Byte) (w : Addr),
    (∀ f ∈ illegalForms d w 0xC7 0xD7 0xCF 0xDF 0xDB 0xC3 0xD3, CompletesModifying (.dcp f.mode) f s fun v r u =>
      r.toNat = (v.toNat + 255) % 256 ∧ u = { s with p := u.p } ∧ comparedFlags s.a r s.p u.p) ∧
    (∀ f ∈ illegalForms d w 0xE7 0xF7 0xEF 0xFF 0xFB 0xE3 0xF3, CompletesModifying (.isc f.mode) f s fun v r u =>
      r.toNat = (v.toNat + 1) % 256 ∧ u = { s with a := u.a, p := u.p } ∧ isSum s.a (~~~r) s.p u.a ∧
      addedFlags s.a (~~~r) s.p u.a u.p) ∧
    ∀ f ∈ illegalForms d w 0x67 0x77 0x6F 0x7F 0x7B 0x63 0x73, CompletesModifying (.rra f.mode) f s fun v r u =>
      shiftedRight v r (getFlag .C s.p) ∧ u = { s with a := u.a, p := u.p } ∧
      ∃ p', flagWritten .C (v.getLsbD 0) s.p p' ∧ isSum s.a r p' u.a ∧ addedFlags s.a r p' u.a u.p

/-- ALR, ANC (both encodings), ARR and AXS, 2 cycles each: the results and the carry rules of 46 R261 to R264
(decision D17). -/
def Obligations.IllegalImmediates : Prop :=
  ∀ (s : State) (d : Byte),
    CompletesReading (.alr d) ⟨.imm d, 0x4B, 2, false⟩ s (fun v u =>
      u = { s with a := u.a, p := u.p } ∧ shiftedRight (s.a &&& v) u.a false ∧
      shiftFlags ((s.a &&& v).getLsbD 0) u.a s.p u.p) ∧
    (∀ io ∈ [(Instr.anc0B d, (0x0B : Byte)), (Instr.anc2B d, 0x2B)],
      CompletesReading io.1 ⟨.imm d, io.2, 2, false⟩ s fun v u =>
        u = { s with a := s.a &&& v, p := u.p } ∧ shiftFlags (u.a.getLsbD 7) u.a s.p u.p) ∧
    CompletesReading (.arr d) ⟨.imm d, 0x6B, 2, false⟩ s (fun v u =>
      u = { s with a := u.a, p := u.p } ∧ shiftedRight (s.a &&& v) u.a (getFlag .C s.p) ∧
      getFlag .C u.p = u.a.getLsbD 6 ∧ getFlag .V u.p = (u.a.getLsbD 6 ^^ u.a.getLsbD 5) ∧
      (getFlag .Z u.p = true ↔ u.a = 0) ∧ getFlag .N u.p = u.a.getLsbD 7 ∧ flagsKept [.C, .V, .Z, .N] s.p u.p) ∧
    CompletesReading (.axs d) ⟨.imm d, 0xCB, 2, false⟩ s (fun v u =>
      u = { s with x := u.x, p := u.p } ∧ (u.x.toNat : Int) = (((s.a &&& s.x).toNat : Int) - v.toNat) % 256 ∧
      comparedFlags (s.a &&& s.x) v s.p u.p)

/-! ### Control flow -/

/-- JMP absolute and indirect: PC the resolved address, 3 and 5 cycles, nothing else changed (43 R191, R192). -/
def Obligations.JumpInstructions : Prop :=
  ∀ (s : State) (w : Addr),
    (∃ q evs, Addresses (.abs w) s q evs ∧ Instr.opcode (.jmpAbs w) = some 0x4C ∧ q.ea = w ∧
      exec (.jmpAbs w) s = .next (transferred s evs w 3)) ∧
    ∃ q evs, Addresses (.ind w) s q evs ∧ Instr.opcode (.jmpInd w) = some 0x6C ∧
      exec (.jmpInd w) s = .next (transferred s evs q.ea 5)

/-- The eight branches: on their flag they go to `pc0 + 2` plus the signed displacement modulo 65536, for 3 cycles, 4 when
that leaves the page of `pc0 + 2`; else to `pc0 + 2` for 2 cycles; nothing else changes (43 R197 to R205; the page
comparison's base is decision D21). -/
def Obligations.ConditionalBranches : Prop :=
  ∀ (s : State) (d : Byte), ∃ target : Addr,
    (target.toNat : Int) = ((s.pc.toNat : Int) + 2 + d.toInt) % 65536 ∧
    ∀ iof ∈ [(Instr.bpl d, (0x10 : Byte), !getFlag .N s.p), (Instr.bmi d, 0x30, getFlag .N s.p),
        (Instr.bvc d, 0x50, !getFlag .V s.p), (Instr.bvs d, 0x70, getFlag .V s.p),
        (Instr.bcc d, 0x90, !getFlag .C s.p), (Instr.bcs d, 0xB0, getFlag .C s.p),
        (Instr.bne d, 0xD0, !getFlag .Z s.p), (Instr.beq d, 0xF0, getFlag .Z s.p)],
      Instr.opcode iof.1 = some iof.2.1 ∧
      exec iof.1 s = .next (
        if iof.2.2 = false then transferred s s.events (s.pc + 2) 2
        else if target.toNat / 256 = (s.pc + 2).toNat / 256 then transferred s s.events target 3
        else transferred s s.events target 4)

/-! ### Single-byte instructions -/

/-- CLC, SEC, CLI, SEI, CLV, CLD, SED: one flag takes its value, nothing else changes, 2 cycles
(44 R221, R223, R225, R227, R231, R233, R235). -/
def Obligations.FlagInstructions : Prop :=
  ∀ s : State, ∀ iofb ∈ [(Instr.clc, (0x18 : Byte), Flag.C, false), (.sec, 0x38, .C, true), (.cli, 0x58, .I, false),
      (.sei, 0x78, .I, true), (.clv, 0xB8, .V, false), (.cld, 0xD8, .D, false), (.sed, 0xF8, .D, true)],
    ∃ u, CompletesInRegisters iofb.1 iofb.2.1 2 s u ∧ u = { s with p := u.p } ∧
      flagWritten iofb.2.2.1 iofb.2.2.2 s.p u.p

/-- TAX, TAY, TXA, TYA, TSX copy and set Z and N; TXS copies and writes no flag; 2 cycles
(44 R229, R230, R236 to R239; TXS's flags are decision D22). -/
def Obligations.TransferInstructions : Prop :=
  ∀ s : State,
    (∃ u, CompletesInRegisters .tax 0xAA 2 s u ∧ u = { s with x := s.a, p := u.p } ∧ loadFlags s.a s.p u.p) ∧
    (∃ u, CompletesInRegisters .tay 0xA8 2 s u ∧ u = { s with y := s.a, p := u.p } ∧ loadFlags s.a s.p u.p) ∧
    (∃ u, CompletesInRegisters .txa 0x8A 2 s u ∧ u = { s with a := s.x, p := u.p } ∧ loadFlags s.x s.p u.p) ∧
    (∃ u, CompletesInRegisters .tya 0x98 2 s u ∧ u = { s with a := s.y, p := u.p } ∧ loadFlags s.y s.p u.p) ∧
    (∃ u, CompletesInRegisters .tsx 0xBA 2 s u ∧ u = { s with x := s.sp, p := u.p } ∧ loadFlags s.sp s.p u.p) ∧
    CompletesInRegisters .txs 0x9A 2 s { s with sp := s.x }

/-- INX, INY, DEX, DEY: one more or one less modulo 256, Z and N from the result, C and V unchanged, 2 cycles
(44 R228, R232, R234, R240). -/
def Obligations.IndexIncrementDecrement : Prop :=
  ∀ s : State,
    (∃ u, CompletesInRegisters .inx 0xE8 2 s u ∧ u = { s with x := u.x, p := u.p } ∧
      u.x.toNat = (s.x.toNat + 1) % 256 ∧ loadFlags u.x s.p u.p) ∧
    (∃ u, CompletesInRegisters .iny 0xC8 2 s u ∧ u = { s with y := u.y, p := u.p } ∧
      u.y.toNat = (s.y.toNat + 1) % 256 ∧ loadFlags u.y s.p u.p) ∧
    (∃ u, CompletesInRegisters .dex 0xCA 2 s u ∧ u = { s with x := u.x, p := u.p } ∧
      u.x.toNat = (s.x.toNat + 255) % 256 ∧ loadFlags u.x s.p u.p) ∧
    ∃ u, CompletesInRegisters .dey 0x88 2 s u ∧ u = { s with y := u.y, p := u.p } ∧
      u.y.toNat = (s.y.toNat + 255) % 256 ∧ loadFlags u.y s.p u.p

/-- NOP and the two unofficial NOPs: only PC, 2 cycles (44 R241; 0xDA and 0xFA are decision D11). -/
def Obligations.NoOperations : Prop :=
  ∀ s : State, ∀ io ∈ [(Instr.nop, (0xEA : Byte)), (.nopDA, 0xDA), (.nopFA, 0xFA)], CompletesInRegisters io.1 io.2 2 s s

/-- PHA and PHP store one byte at `{0x01, SP}` and decrement SP, 3 cycles, no flag written; PHP's byte is P with B and U set
(44 R220, R224). -/
def Obligations.PushInstructions : Prop :=
  Instr.opcode .pha = some 0x48 ∧ Instr.opcode .php = some 0x08 ∧
  ∀ s : State, ∀ f : Byte, (∀ g, getFlag g f = if g = .B ∨ g = .U then true else getFlag g s.p) →
    ∀ iv ∈ [(Instr.pha, s.a), (.php, f)], ∃ t, exec iv.1 s = .next t ∧ storesByte s t (mkAddr 0x01 s.sp) iv.2 ∧
      t = retired { s with sp := s.sp - 1, mem := t.mem } (s.events ++ [.write (mkAddr 0x01 s.sp) iv.2]) 1 3

/-- PLA and PLP read one byte at `{0x01, SP + 1}` and increment SP, 4 cycles; PLA loads A and sets Z and N; PLP restores the
flags, U forced to 1 and B kept (44 R222, R226; the restore is decision D4). -/
def Obligations.PullInstructions : Prop :=
  Instr.opcode .pla = some 0x68 ∧ Instr.opcode .plp = some 0x28 ∧
  ∀ s : State, ∀ v : Byte, v = byteAt s (mkAddr 0x01 (s.sp + 1)) →
    (∃ u, u = { s with sp := s.sp + 1, a := v, p := u.p } ∧ loadFlags v s.p u.p ∧
      exec .pla s = .next (retired u (s.events ++ [.read (mkAddr 0x01 (s.sp + 1)) v]) 1 4)) ∧
    ∃ u, u = { s with sp := s.sp + 1, p := u.p } ∧
      (∀ g, getFlag g u.p = if g = .U then true else if g = .B then getFlag .B s.p else getFlag g v) ∧
      exec .plp s = .next (retired u (s.events ++ [.read (mkAddr 0x01 (s.sp + 1)) v]) 1 4)

/-- PHP then PLP restores P exactly, B included, when the live U is 1, and the stack pointer always (44 R222). -/
def Obligations.PhpThenPlpRestores : Prop :=
  ∀ s : State, ∃ t u, exec .php s = .next t ∧ exec .plp t = .next u ∧ u.sp = s.sp ∧
    flagsKept [.U] s.p u.p ∧ (getFlag .U s.p = true → u.p = s.p)

/-! ### The whole machine -/

/-- Every step keeps the invariant: the live P has U = 1 and B = 0, and memory keeps its canonical form (10 R28). -/
def Obligations.StepKeepsInvariant : Prop :=
  ∀ s t : State, State.Inv s → step s = .next t → State.Inv t

/-- The reset state has the invariant, a host reset of any state with canonical memory has it, and the host's other events
keep it (10 R28, R38). -/
def Obligations.ResetEstablishesInvariant : Prop :=
  State.Inv State.reset ∧ (∀ s : State, s.mem.wf = true → State.Inv (hostReset s)) ∧
  ∀ (s : State) (b : Bool), State.Inv s → State.Inv (raiseNmi s) ∧ State.Inv (setHaltIn s b)

/-- DecimalMode has no effect on any computation: an instruction that neither writes D nor pushes P commutes with writing D
(10 R29, decision D16). -/
def Obligations.DecimalModeIsInert : Prop :=
  ∀ (i : Instr) (s t : State) (b : Bool), touchesFlag .D i = false → exec i s = .next t →
    exec i { s with p := setFlag .D b s.p } = .next { t with p := setFlag .D b t.p }

/-- InterruptDisable is read by nothing but BRK's halt test and the pushers of P: any other instruction that does not write I
commutes with writing I, and a pending NMI is serviced whatever I is: the same registers, cycles and consumed flag, and of
the bytes of memory only the pushed flags can differ (10 R30, 60 R322). -/
def Obligations.InterruptDisableMasksNothing : Prop :=
  (∀ (i : Instr) (s t : State) (b : Bool), touchesFlag .I i = false → exec i s = .next t →
    exec i { s with p := setFlag .I b s.p } = .next { t with p := setFlag .I b t.p }) ∧
  ∀ (s : State) (b : Bool), s.run = .running → s.haltIn = false → s.nmiPending = true →
    ∃ t u, step s = .next t ∧ step { s with p := setFlag .I b s.p } = .next u ∧ t.nmiPending = false ∧
      u = { t with mem := u.mem, events := u.events } ∧ ∀ k, k ≠ mkAddr 0x01 (s.sp - 2) → byteAt u k = byteAt t k

/-- What an instruction computes depends on the registers and memory alone: not on the tick total, the record, the run state
or the inputs (10 R34, 40 R108, 70 R347). On any bus the core sees its platform through the bus's answers alone: on two buses
that answer alike, a step from the same core state makes the same accesses and leaves the same core state (20 R51, R52). -/
def Obligations.EffectsReadRegistersAndMemoryOnly : Prop :=
  (∀ (i : Instr) (s s' t : State), sameRegistersAndMemory s s' → exec i s = .next t →
    ∃ t', exec i s' = .next t' ∧ sameRegistersAndMemory t t' ∧ t.ticks - s.ticks = t'.ticks - s'.ticks) ∧
  ∀ (b1 b2 : Bus) (R : BusState → BusState → Prop), busesAlike b1 b2 R →
    ∀ s1 s2 t1 : State, sameCore s1 s2 → R s1.toBusState s2.toBusState → stepOn b1 s1 = .next t1 →
      ∃ t2, stepOn b2 s2 = .next t2 ∧ sameCore t1 t2 ∧ R t1.toBusState t2.toBusState

/-- An instruction changes no byte of memory but those at the addresses it stores to (20 R56). -/
def Obligations.MemoryFrame : Prop :=
  ∀ (i : Instr) (s t : State), exec i s = .next t → ∀ k, k ∉ storeAddrs i s → byteAt t k = byteAt s k

/-- A, X, Y and SP are changed only by the instructions 10 R21 to R24 list; no instruction changes an input. -/
def Obligations.RegisterWriters : Prop :=
  ∀ (i : Instr) (s t : State), exec i s = .next t →
    (writesA i = false → t.a = s.a) ∧ (writesX i = false → t.x = s.x) ∧ (writesY i = false → t.y = s.y) ∧
    (writesSp i = false → t.sp = s.sp) ∧ t.haltIn = s.haltIn ∧ t.nmiPending = s.nmiPending

/-- A flag is changed only by the instructions the "written by" column of 10 R27 lists for it; no instruction changes B. -/
def Obligations.FlagWriters : Prop :=
  ∀ (i : Instr) (s t : State) (f : Flag), exec i s = .next t → writesFlag f i = false → getFlag f t.p = getFlag f s.p

/-- Every well-formed instruction but the control transfers continues at `(pc0 + L) mod 65536` (40 R105, 43 R206). -/
def Obligations.SequentialFlow : Prop :=
  ∀ (i : Instr) (s : State), i.wf = true → movesPc i = false →
    ∃ t, exec i s = .next t ∧ t.pc.toNat = (s.pc.toNat + i.length) % 65536

/-- Of the instructions, only BRK with I set, which halts, and the undecoded bytes, which fault, end a run: any other
well-formed instruction leaves the run state alone (60 R320, R302). The halt input, which ends a run too, is no instruction
(`HaltInputStopsFirst`). -/
def Obligations.OnlyBreakAndUndecodedInstructionsEndRun : Prop :=
  ∀ (i : Instr) (s t : State), i.wf = true → exec i s = .next t → t.run ≠ s.run →
    (i = .brk ∧ getFlag .I s.p = true ∧ t.run = .halted) ∨
    ∃ op, i = .undecoded op ∧ t.run = .faulted (.unimplementedOpcode op s.pc)

/-- The cycles of every decoded instruction are its cell of R349 plus the page-cross and branch penalties (70 R348, R349,
decision D13), so every decoded instruction completes in every state; and that cell is the base count of the instruction's
class and mode (40 R131, R133, R135). -/
def Obligations.CyclesAreTableAndPenalties : Prop :=
  ∀ (i : Instr) (op : Byte), i.opcode = some op → op ∉ undecodedBytes →
    cyc op = classCycles i ∧
    ∀ s : State, ∃ t, exec i s = .next t ∧ t.ticks = s.ticks + cyc op + pagePenalty i s + branchPenalty i s

/-- Every decoded instruction forwards its cycles in exactly one tick, after all its reads and writes, and they are between 2
and 8 (40 R130, R137). -/
def Obligations.OneTickOfTwoToEight : Prop :=
  ∀ (i : Instr) (s t : State) (op : Byte), i.opcode = some op → op ∉ undecodedBytes → exec i s = .next t →
    ∃ (l : List BusEvent) (n : Nat), t.events = s.events ++ l ++ [.tick n] ∧ (∀ e ∈ l, ∀ k, e ≠ .tick k) ∧
      t.ticks = s.ticks + n ∧ 2 ≤ n ∧ n ≤ 8
end

