-- ==== Sys2Proof/Laws/AnyBus.lean ====
section
/-! SUPPORT. The core on two buses that answer alike (20 R52): each operation, given states that differ in the bus alone, makes
the same accesses, gives the same answers and leaves states that differ in the bus alone. And `execOn` on the configuration's
bus is `exec`. -/

namespace Sys2Proof.Machine

/-- The state with another bus's data behind the port. -/
def onBus (s : State) (b : BusState) : State := { s with toBusState := b }

@[simp] theorem onBus_self (s : State) : onBus s s.toBusState = s := rfl
@[simp] theorem onBus_onBus (s : State) (b c : BusState) : onBus (onBus s b) c = onBus s c := rfl
@[simp] theorem onBus_bus (s : State) (b : BusState) : (onBus s b).toBusState = b := rfl

/-- Two states that differ in the bus alone, by data the relation relates. -/
def Alike (R : BusState → BusState → Prop) (s t : State) : Prop := R s.toBusState t.toBusState ∧ t = onBus s t.toBusState

theorem alike_iff (R : BusState → BusState → Prop) (s t : State) :
    Alike R s t ↔ sameCore s t ∧ R s.toBusState t.toBusState := by
  obtain ⟨b, a, x, y, sp, pc, p, run, hi, ev⟩ := s
  obtain ⟨b', a', x', y', sp', pc', p', run', hi', ev'⟩ := t
  simp only [Alike, sameCore, onBus, State.mk.injEq, true_and, eq_comm (b := a'), eq_comm (b := x'), eq_comm (b := y'),
    eq_comm (b := sp'), eq_comm (b := pc'), eq_comm (b := p'), eq_comm (b := run'), eq_comm (b := hi'), eq_comm (b := ev')]
  exact and_comm

/-- The same next state but for the bus. -/
def AlikeResults (R : BusState → BusState → Prop) (r1 r2 : Result) : Prop :=
  ∃ s t, r1 = .next s ∧ r2 = .next t ∧ Alike R s t

/-- The core's own part of the state changed alike. -/
theorem Alike.map {R : BusState → BusState → Prop} {s t : State} (h : Alike R s t) (f : State → State)
    (hf : ∀ s b, f (onBus s b) = onBus (f s) b) : Alike R (f s) (f t) := by
  obtain ⟨hr, ht⟩ := h
  have hb : (f s).toBusState = s.toBusState := by
    have := congrArg State.toBusState (hf s s.toBusState)
    simpa using this
  rw [ht, hf]
  exact ⟨by simpa [hb] using hr, rfl⟩

variable {b1 b2 : Bus} {R : BusState → BusState → Prop}

theorem memRead_alike (h : busesAlike b1 b2 R) {s t : State} (hs : Alike R s t) (a : Addr) :
    (memRead s a b1).1 = (memRead t a b2).1 ∧ Alike R (memRead s a b1).2 (memRead t a b2).2 := by
  obtain ⟨hr, ht⟩ := hs
  have := (h _ _ hr).1 a
  rw [ht]
  exact ⟨this.1, this.2, by simp only [memRead, logEvent, onBus, this.1]⟩

theorem memWrite_alike (h : busesAlike b1 b2 R) {s t : State} (hs : Alike R s t) (a : Addr) (v : Byte) :
    Alike R (memWrite s a v b1) (memWrite t a v b2) := by
  obtain ⟨hr, ht⟩ := hs
  rw [ht]
  exact ⟨(h _ _ hr).2.1 a v, rfl⟩

theorem tick_alike (h : busesAlike b1 b2 R) {s t : State} (hs : Alike R s t) (n : Nat) :
    Alike R (tick s n b1) (tick t n b2) := by
  obtain ⟨hr, ht⟩ := hs
  rw [ht]
  exact ⟨(h _ _ hr).2.2.1 n, rfl⟩

theorem pollNmi_alike (h : busesAlike b1 b2 R) {s t : State} (hs : Alike R s t) :
    (pollNmi s b1).1 = (pollNmi t b2).1 ∧ Alike R (pollNmi s b1).2 (pollNmi t b2).2 := by
  obtain ⟨hr, ht⟩ := hs
  have := (h _ _ hr).2.2.2
  rw [ht]
  exact ⟨this.1, this.2, by simp only [pollNmi, logEvent, onBus, this.1]⟩

theorem memReadPair_alike (h : busesAlike b1 b2 R) {s t : State} (hs : Alike R s t) (aLo aHi : Addr) :
    (memReadPair s aLo aHi b1).1 = (memReadPair t aLo aHi b2).1 ∧
      Alike R (memReadPair s aLo aHi b1).2 (memReadPair t aLo aHi b2).2 := by
  have l := memRead_alike h hs aLo
  have u := memRead_alike h l.2 aHi
  exact ⟨by simp only [memReadPair, l.1, u.1], u.2⟩

theorem push_alike (h : busesAlike b1 b2 R) {s t : State} (hs : Alike R s t) (v : Byte) :
    Alike R (push s v b1) (push t v b2) := by
  have e : t.sp = s.sp := by rw [hs.2]; rfl
  have := (memWrite_alike h hs (stackAddr s.sp) v).map (fun u => { u with sp := s.sp - 1 }) fun _ _ => rfl
  simpa only [push, e] using this

theorem pop_alike (h : busesAlike b1 b2 R) {s t : State} (hs : Alike R s t) :
    (pop s b1).1 = (pop t b2).1 ∧ Alike R (pop s b1).2 (pop t b2).2 := by
  have e : t.sp = s.sp := by rw [hs.2]; rfl
  have er : runAfterPop t = runAfterPop s := by rw [hs.2]; rfl
  have := memRead_alike h (hs.map (fun u => { u with sp := s.sp + 1, run := runAfterPop s }) fun _ _ => rfl)
    (stackAddr (s.sp + 1))
  simpa only [pop, e, er] using this

theorem push16_alike (h : busesAlike b1 b2 R) {s t : State} (hs : Alike R s t) (w : Addr) :
    Alike R (push16 s w b1) (push16 t w b2) := push_alike h (push_alike h hs _) _

theorem pop16_alike (h : busesAlike b1 b2 R) {s t : State} (hs : Alike R s t) :
    (pop16 s b1).1 = (pop16 t b2).1 ∧ Alike R (pop16 s b1).2 (pop16 t b2).2 := by
  have l := pop_alike h hs
  have u := pop_alike h l.2
  exact ⟨by simp only [pop16, l.1, u.1], u.2⟩

theorem finishAt_alike (h : busesAlike b1 b2 R) {s t : State} (hs : Alike R s t) (n : Nat) (w : Addr) :
    Alike R (finishAt s n w b1) (finishAt t n w b2) :=
  (tick_alike h hs n).map (fun u => { u with pc := w }) fun _ _ => rfl

theorem retire_alike (h : busesAlike b1 b2 R) {s t : State} (hs : Alike R s t) (len n : Nat) :
    Alike R (retire s len n b1) (retire t len n b2) := by
  have e : t.pc = s.pc := by rw [hs.2]; rfl
  simpa only [retire, e] using finishAt_alike h hs n (s.pc + BitVec.ofNat 16 len)

theorem takeException_alike (h : busesAlike b1 b2 R) {s t : State} (hs : Alike R s t) (k : ExceptionKind) :
    Alike R (takeException k s b1) (takeException k t b2) := by
  have ep : t.p = s.p := by rw [hs.2]; rfl
  have ec : t.pc = s.pc := by rw [hs.2]; rfl
  have hf : Alike R (pushFrame k s b1) (pushFrame k t b2) := by
    have := (push_alike h (push16_alike h hs (exceptionReturn k s.pc)) (exceptionFlags k s.p)).map
      (fun u => { u with p := setFlag .I true s.p }) fun _ _ => rfl
    simpa only [pushFrame, ep, ec] using this
  cases k
  · have v := memReadPair_alike h (tick_alike h hf config.nmiCycles) config.vecNmi (config.vecNmi + 1)
    have := v.2.map (fun u => { u with pc := (memReadPair (tick (pushFrame .nmi s b1) config.nmiCycles b1) config.vecNmi
      (config.vecNmi + 1) b1).1 }) fun _ _ => rfl
    simpa only [takeException, memRead16, v.1] using this
  · have v := memReadPair_alike h hf config.vecBrk (config.vecBrk + 1)
    have := finishAt_alike h v.2 (baseCycles .brk) (memReadPair (pushFrame .brk s b1) config.vecBrk (config.vecBrk + 1) b1).1
    simpa only [takeException, memRead16, v.1] using this

theorem returnFromException_alike (h : busesAlike b1 b2 R) {s t : State} (hs : Alike R s t) :
    Alike R (returnFromException s b1) (returnFromException t b2) := by
  have ep : t.p = s.p := by rw [hs.2]; rfl
  have v := pop_alike h hs
  have w := pop16_alike h (v.2.map (fun u => { u with p := restoreFlags (pop s b1).1 s.p }) fun _ _ => rfl)
  have := finishAt_alike h w.2 (baseCycles .rti) (pop16 { (pop s b1).2 with p := restoreFlags (pop s b1).1 s.p } b1).1
  have w1 := w.1
  simp only [v.1] at this w1 ⊢
  simpa only [returnFromException, v.1, ep, w1] using this

/-- The resolver: the same refusal, or the same address with states that differ in the bus alone. -/
theorem resolve_alike (h : busesAlike b1 b2 R) {s t : State} (hs : Alike R s t) (m : AddrMode) :
    (∃ r, resolve m s b1 = .error r ∧ resolve m t b2 = .error r) ∨
    ∃ q u v, resolve m s b1 = .ok (q, u) ∧ resolve m t b2 = .ok (q, v) ∧ Alike R u v := by
  have ex : t.x = s.x := by rw [hs.2]; rfl
  have ey : t.y = s.y := by rw [hs.2]; rfl
  have ec : t.pc = s.pc := by rw [hs.2]; rfl
  cases m <;> simp only [resolve, memRead16ZP, ex, ey, ec]
  case acc => exact .inl ⟨_, rfl, rfl⟩
  case impl => exact .inl ⟨_, rfl, rfl⟩
  case rel => exact .inl ⟨_, rfl, rfl⟩
  case indX d =>
    have v := memReadPair_alike h hs (zext16 (d + s.x)) (zext16 (d + s.x + 1))
    exact .inr ⟨_, _, _, rfl, by rw [v.1], v.2⟩
  case indY d =>
    have v := memReadPair_alike h hs (zext16 d) (zext16 (d + 1))
    exact .inr ⟨_, _, _, rfl, by rw [v.1], v.2⟩
  case ind w =>
    have v := memReadPair_alike h hs w (nextInPage w)
    exact .inr ⟨_, _, _, rfl, by rw [v.1], v.2⟩
  all_goals exact .inr ⟨_, _, _, rfl, rfl, hs⟩

theorem readOperand_alike (h : busesAlike b1 b2 R) {s t : State} (hs : Alike R s t) (m : AddrMode) (ea : Addr) :
    (readOperand m ea s b1).1 = (readOperand m ea t b2).1 ∧ Alike R (readOperand m ea s b1).2 (readOperand m ea t b2).2 := by
  cases m
  case imm => exact ⟨rfl, hs⟩
  all_goals exact memRead_alike h hs ea

theorem raiseFatal_alike {s t : State} (hs : Alike R s t) (r : FatalReason) : Alike R (raiseFatal s r) (raiseFatal t r) :=
  hs.map (fun u => raiseFatal u r) fun _ _ => rfl

theorem readShape_alike (h : busesAlike b1 b2 R) {s t : State} (hs : Alike R s t) (i : Instr) (f : Byte → State → State)
    (hf : ∀ v s b, f v (onBus s b) = onBus (f v s) b) : AlikeResults R (readShape i f s b1) (readShape i f t b2) := by
  obtain ⟨r, h1, h2⟩ | ⟨q, u, v, h1, h2, huv⟩ := resolve_alike h hs i.mode <;> simp only [readShape, h1, h2]
  · exact ⟨_, _, rfl, rfl, raiseFatal_alike hs r⟩
  · have d := readOperand_alike h huv i.mode q.ea
    rw [d.1]
    exact ⟨_, _, rfl, rfl, retire_alike h (d.2.map _ (hf _)) _ _⟩

theorem storeShape_alike (h : busesAlike b1 b2 R) {s t : State} (hs : Alike R s t) (i : Instr) (val : Resolved → Byte) :
    AlikeResults R (storeShape i val s b1) (storeShape i val t b2) := by
  obtain ⟨r, h1, h2⟩ | ⟨q, u, v, h1, h2, huv⟩ := resolve_alike h hs i.mode <;> simp only [storeShape, h1, h2]
  · exact ⟨_, _, rfl, rfl, raiseFatal_alike hs r⟩
  · exact ⟨_, _, rfl, rfl, retire_alike h (memWrite_alike h huv _ _) _ _⟩

theorem modifyShape_alike (h : busesAlike b1 b2 R) {s t : State} (hs : Alike R s t) (i : Instr) (f : ByteOp)
    (g : Byte → State → State) (hg : ∀ v s b, g v (onBus s b) = onBus (g v s) b) :
    AlikeResults R (modifyShape i f g s b1) (modifyShape i f g t b2) := by
  obtain ⟨r, h1, h2⟩ | ⟨q, u, v, h1, h2, huv⟩ := resolve_alike h hs i.mode <;> simp only [modifyShape, h1, h2]
  · exact ⟨_, _, rfl, rfl, raiseFatal_alike hs r⟩
  · have d := memRead_alike h huv q.ea
    have ep : (memRead v q.ea b2).2.p = (memRead u q.ea b1).2.p := by rw [d.2.2]; rfl
    rw [ep, ← d.1]
    exact ⟨_, _, rfl, rfl, retire_alike h ((memWrite_alike h
      (d.2.map (fun w => { w with p := (f (memRead u q.ea b1).1 (memRead u q.ea b1).2.p).2 }) fun _ _ => rfl) _ _).map _
        (hg _)) _ _⟩

theorem registerShape_alike (h : busesAlike b1 b2 R) {s t : State} (hs : Alike R s t) (i : Instr) (f : State → State)
    (hf : ∀ s b, f (onBus s b) = onBus (f s) b) : AlikeResults R (registerShape i f s b1) (registerShape i f t b2) :=
  ⟨_, _, rfl, rfl, retire_alike h (hs.map f hf) _ _⟩

theorem shiftShape_alike (h : busesAlike b1 b2 R) {s t : State} (hs : Alike R s t) (i : Instr) (f : ByteOp) :
    AlikeResults R (shiftShape i f s b1) (shiftShape i f t b2) := by
  unfold shiftShape
  split
  · exact ⟨_, _, rfl, rfl, retire_alike h
      (hs.map (fun u => { u with a := (f u.a u.p).1, p := setZN (f u.a u.p).1 (f u.a u.p).2 }) fun _ _ => rfl) _ _⟩
  all_goals exact modifyShape_alike h hs i f applyZN fun _ _ _ => rfl

theorem jumpShape_alike (h : busesAlike b1 b2 R) {s t : State} (hs : Alike R s t) (i : Instr) :
    AlikeResults R (jumpShape i s b1) (jumpShape i t b2) := by
  obtain ⟨r, h1, h2⟩ | ⟨q, u, v, h1, h2, huv⟩ := resolve_alike h hs i.mode <;> simp only [jumpShape, h1, h2]
  · exact ⟨_, _, rfl, rfl, raiseFatal_alike hs r⟩
  · exact ⟨_, _, rfl, rfl, finishAt_alike h huv _ _⟩

theorem branchShape_alike (h : busesAlike b1 b2 R) {s t : State} (hs : Alike R s t) (i : Instr) (c : Bool) (d8 : Byte) :
    AlikeResults R (branchShape i c d8 s b1) (branchShape i c d8 t b2) := by
  have ec : t.pc = s.pc := by rw [hs.2]; rfl
  simp only [branchShape, ec]
  cases c
  · exact ⟨_, _, rfl, rfl, finishAt_alike h hs _ _⟩
  · exact ⟨_, _, rfl, rfl, finishAt_alike h hs _ _⟩

/-- The fetch reads the same bytes. -/
theorem fetchInstr_alike (h : busesAlike b1 b2 R) {s t : State} (hs : Alike R s t) :
    (fetchInstr s b1).1 = (fetchInstr t b2).1 ∧ Alike R (fetchInstr s b1).2 (fetchInstr t b2).2 := by
  have ec : t.pc = s.pc := by rw [hs.2]; rfl
  have r0 := memRead_alike h hs s.pc
  have r1 := memRead_alike h r0.2 (s.pc + 1)
  have r2 := memRead_alike h r1.2 (s.pc + 2)
  simp only [fetchInstr, ec, ← r0.1, ← r1.1, ← r2.1]
  split
  · exact ⟨rfl, r0.2⟩
  · exact ⟨rfl, r1.2⟩
  · exact ⟨rfl, r2.2⟩

/-- On the configuration's bus the two dispatches agree. -/
theorem execOn_config (i : Instr) (s : State) : execOn config.bus i s = exec i s := by cases i <;> rfl

end Sys2Proof.Machine
end

