-- ==== Sys2Proof/Laws/State.lean ====
section
/-! SUPPORT. One lemma per field for each named operation on the state, so that no proof unfolds a record update; for every bus where the
field is the core's own. -/

namespace Sys2Proof.Machine

@[simp] theorem logEvent_a (s : State) (e : BusEvent) : (logEvent s e).a = s.a := rfl
@[simp] theorem logEvent_x (s : State) (e : BusEvent) : (logEvent s e).x = s.x := rfl
@[simp] theorem logEvent_y (s : State) (e : BusEvent) : (logEvent s e).y = s.y := rfl
@[simp] theorem logEvent_sp (s : State) (e : BusEvent) : (logEvent s e).sp = s.sp := rfl
@[simp] theorem logEvent_pc (s : State) (e : BusEvent) : (logEvent s e).pc = s.pc := rfl
@[simp] theorem logEvent_p (s : State) (e : BusEvent) : (logEvent s e).p = s.p := rfl
@[simp] theorem logEvent_run (s : State) (e : BusEvent) : (logEvent s e).run = s.run := rfl
@[simp] theorem logEvent_haltIn (s : State) (e : BusEvent) : (logEvent s e).haltIn = s.haltIn := rfl
@[simp] theorem logEvent_nmiPending (s : State) (e : BusEvent) : (logEvent s e).nmiPending = s.nmiPending := rfl
@[simp] theorem logEvent_mem (s : State) (e : BusEvent) : (logEvent s e).mem = s.mem := rfl
@[simp] theorem logEvent_ticks (s : State) (e : BusEvent) : (logEvent s e).ticks = s.ticks := rfl
@[simp] theorem logEvent_device (s : State) (e : BusEvent) : (logEvent s e).device = s.device := rfl
@[simp] theorem logEvent_events (s : State) (e : BusEvent) : (logEvent s e).events = s.events ++ [e] := rfl

@[simp] theorem memRead_a (s : State) (k : Addr) (bus : Bus) : (memRead s k bus).2.a = s.a := rfl
@[simp] theorem memRead_x (s : State) (k : Addr) (bus : Bus) : (memRead s k bus).2.x = s.x := rfl
@[simp] theorem memRead_y (s : State) (k : Addr) (bus : Bus) : (memRead s k bus).2.y = s.y := rfl
@[simp] theorem memRead_sp (s : State) (k : Addr) (bus : Bus) : (memRead s k bus).2.sp = s.sp := rfl
@[simp] theorem memRead_pc (s : State) (k : Addr) (bus : Bus) : (memRead s k bus).2.pc = s.pc := rfl
@[simp] theorem memRead_p (s : State) (k : Addr) (bus : Bus) : (memRead s k bus).2.p = s.p := rfl
@[simp] theorem memRead_run (s : State) (k : Addr) (bus : Bus) : (memRead s k bus).2.run = s.run := rfl
@[simp] theorem memRead_haltIn (s : State) (k : Addr) (bus : Bus) : (memRead s k bus).2.haltIn = s.haltIn := rfl
@[simp] theorem memRead_nmiPending (s : State) (k : Addr) : (memRead s k).2.nmiPending = s.nmiPending := rfl
@[simp] theorem memRead_mem (s : State) (k : Addr) : (memRead s k).2.mem = s.mem := rfl
@[simp] theorem memRead_ticks (s : State) (k : Addr) : (memRead s k).2.ticks = s.ticks := rfl
@[simp] theorem memRead_device (s : State) (k : Addr) : (memRead s k).2.device = s.device := rfl
@[simp] theorem memRead_events (s : State) (k : Addr) : (memRead s k).2.events = s.events ++ [.read k (byteAt s k)] := rfl

@[simp] theorem memWrite_a (s : State) (k : Addr) (v : Byte) (bus : Bus) : (memWrite s k v bus).a = s.a := rfl
@[simp] theorem memWrite_x (s : State) (k : Addr) (v : Byte) (bus : Bus) : (memWrite s k v bus).x = s.x := rfl
@[simp] theorem memWrite_y (s : State) (k : Addr) (v : Byte) (bus : Bus) : (memWrite s k v bus).y = s.y := rfl
@[simp] theorem memWrite_sp (s : State) (k : Addr) (v : Byte) (bus : Bus) : (memWrite s k v bus).sp = s.sp := rfl
@[simp] theorem memWrite_pc (s : State) (k : Addr) (v : Byte) (bus : Bus) : (memWrite s k v bus).pc = s.pc := rfl
@[simp] theorem memWrite_p (s : State) (k : Addr) (v : Byte) (bus : Bus) : (memWrite s k v bus).p = s.p := rfl
@[simp] theorem memWrite_run (s : State) (k : Addr) (v : Byte) (bus : Bus) : (memWrite s k v bus).run = s.run := rfl
@[simp] theorem memWrite_haltIn (s : State) (k : Addr) (v : Byte) (bus : Bus) : (memWrite s k v bus).haltIn = s.haltIn := rfl
@[simp] theorem memWrite_nmiPending (s : State) (k : Addr) (v : Byte) : (memWrite s k v).nmiPending = s.nmiPending := rfl
@[simp] theorem memWrite_mem (s : State) (k : Addr) (v : Byte) : (memWrite s k v).mem = s.mem.set k.toNat v := rfl
@[simp] theorem memWrite_ticks (s : State) (k : Addr) (v : Byte) : (memWrite s k v).ticks = s.ticks := rfl
@[simp] theorem memWrite_device (s : State) (k : Addr) (v : Byte) : (memWrite s k v).device = s.device := rfl
@[simp] theorem memWrite_events (s : State) (k : Addr) (v : Byte) (bus : Bus) : (memWrite s k v bus).events = s.events ++ [.write k v] := rfl

@[simp] theorem tick_a (s : State) (n : Nat) (bus : Bus) : (tick s n bus).a = s.a := rfl
@[simp] theorem tick_x (s : State) (n : Nat) (bus : Bus) : (tick s n bus).x = s.x := rfl
@[simp] theorem tick_y (s : State) (n : Nat) (bus : Bus) : (tick s n bus).y = s.y := rfl
@[simp] theorem tick_sp (s : State) (n : Nat) (bus : Bus) : (tick s n bus).sp = s.sp := rfl
@[simp] theorem tick_pc (s : State) (n : Nat) (bus : Bus) : (tick s n bus).pc = s.pc := rfl
@[simp] theorem tick_p (s : State) (n : Nat) (bus : Bus) : (tick s n bus).p = s.p := rfl
@[simp] theorem tick_run (s : State) (n : Nat) (bus : Bus) : (tick s n bus).run = s.run := rfl
@[simp] theorem tick_haltIn (s : State) (n : Nat) (bus : Bus) : (tick s n bus).haltIn = s.haltIn := rfl
@[simp] theorem tick_nmiPending (s : State) (n : Nat) : (tick s n).nmiPending = s.nmiPending := rfl
@[simp] theorem tick_mem (s : State) (n : Nat) : (tick s n).mem = s.mem := rfl
@[simp] theorem tick_ticks (s : State) (n : Nat) : (tick s n).ticks = s.ticks + n := rfl
@[simp] theorem tick_device (s : State) (n : Nat) : (tick s n).device = s.device := rfl
@[simp] theorem tick_events (s : State) (n : Nat) (bus : Bus) : (tick s n bus).events = s.events ++ [.tick n] := rfl

@[simp] theorem pollNmi_a (s : State) (bus : Bus) : (pollNmi s bus).2.a = s.a := rfl
@[simp] theorem pollNmi_x (s : State) (bus : Bus) : (pollNmi s bus).2.x = s.x := rfl
@[simp] theorem pollNmi_y (s : State) (bus : Bus) : (pollNmi s bus).2.y = s.y := rfl
@[simp] theorem pollNmi_sp (s : State) (bus : Bus) : (pollNmi s bus).2.sp = s.sp := rfl
@[simp] theorem pollNmi_pc (s : State) (bus : Bus) : (pollNmi s bus).2.pc = s.pc := rfl
@[simp] theorem pollNmi_p (s : State) (bus : Bus) : (pollNmi s bus).2.p = s.p := rfl
@[simp] theorem pollNmi_run (s : State) (bus : Bus) : (pollNmi s bus).2.run = s.run := rfl
@[simp] theorem pollNmi_haltIn (s : State) (bus : Bus) : (pollNmi s bus).2.haltIn = s.haltIn := rfl
@[simp] theorem pollNmi_nmiPending (s : State) : (pollNmi s).2.nmiPending = false := rfl
@[simp] theorem pollNmi_mem (s : State) : (pollNmi s).2.mem = s.mem := rfl
@[simp] theorem pollNmi_ticks (s : State) : (pollNmi s).2.ticks = s.ticks := rfl
@[simp] theorem pollNmi_device (s : State) : (pollNmi s).2.device = s.device := rfl
@[simp] theorem pollNmi_events (s : State) : (pollNmi s).2.events = s.events ++ [.pollNmi s.nmiPending] := rfl

@[simp] theorem push_a (s : State) (v : Byte) (bus : Bus) : (push s v bus).a = s.a := rfl
@[simp] theorem push_x (s : State) (v : Byte) (bus : Bus) : (push s v bus).x = s.x := rfl
@[simp] theorem push_y (s : State) (v : Byte) (bus : Bus) : (push s v bus).y = s.y := rfl
@[simp] theorem push_sp (s : State) (v : Byte) (bus : Bus) : (push s v bus).sp = s.sp - 1 := rfl
@[simp] theorem push_pc (s : State) (v : Byte) (bus : Bus) : (push s v bus).pc = s.pc := rfl
@[simp] theorem push_p (s : State) (v : Byte) (bus : Bus) : (push s v bus).p = s.p := rfl
@[simp] theorem push_run (s : State) (v : Byte) (bus : Bus) : (push s v bus).run = s.run := rfl
@[simp] theorem push_haltIn (s : State) (v : Byte) (bus : Bus) : (push s v bus).haltIn = s.haltIn := rfl
@[simp] theorem push_nmiPending (s : State) (v : Byte) : (push s v).nmiPending = s.nmiPending := rfl
@[simp] theorem push_mem (s : State) (v : Byte) : (push s v).mem = s.mem.set (stackAddr s.sp).toNat v := rfl
@[simp] theorem push_ticks (s : State) (v : Byte) : (push s v).ticks = s.ticks := rfl
@[simp] theorem push_device (s : State) (v : Byte) : (push s v).device = s.device := rfl
@[simp] theorem push_events (s : State) (v : Byte) (bus : Bus) : (push s v bus).events = s.events ++ [.write (stackAddr s.sp) v] := rfl

@[simp] theorem pop_a (s : State) (bus : Bus) : (pop s bus).2.a = s.a := rfl
@[simp] theorem pop_x (s : State) (bus : Bus) : (pop s bus).2.x = s.x := rfl
@[simp] theorem pop_y (s : State) (bus : Bus) : (pop s bus).2.y = s.y := rfl
@[simp] theorem pop_sp (s : State) (bus : Bus) : (pop s bus).2.sp = s.sp + 1 := rfl
@[simp] theorem pop_pc (s : State) (bus : Bus) : (pop s bus).2.pc = s.pc := rfl
@[simp] theorem pop_p (s : State) (bus : Bus) : (pop s bus).2.p = s.p := rfl
@[simp] theorem pop_run (s : State) (bus : Bus) : (pop s bus).2.run = s.run := rfl
@[simp] theorem pop_haltIn (s : State) (bus : Bus) : (pop s bus).2.haltIn = s.haltIn := rfl
@[simp] theorem pop_nmiPending (s : State) : (pop s).2.nmiPending = s.nmiPending := rfl
@[simp] theorem pop_mem (s : State) : (pop s).2.mem = s.mem := rfl
@[simp] theorem pop_ticks (s : State) : (pop s).2.ticks = s.ticks := rfl
@[simp] theorem pop_device (s : State) : (pop s).2.device = s.device := rfl
@[simp] theorem pop_events (s : State) : (pop s).2.events = s.events ++ [.read (stackAddr (s.sp + 1)) (byteAt s (stackAddr (s.sp + 1)))] := rfl

@[simp] theorem finishAt_a (s : State) (n : Nat) (w : Addr) (bus : Bus) : (finishAt s n w bus).a = s.a := rfl
@[simp] theorem finishAt_x (s : State) (n : Nat) (w : Addr) (bus : Bus) : (finishAt s n w bus).x = s.x := rfl
@[simp] theorem finishAt_y (s : State) (n : Nat) (w : Addr) (bus : Bus) : (finishAt s n w bus).y = s.y := rfl
@[simp] theorem finishAt_sp (s : State) (n : Nat) (w : Addr) (bus : Bus) : (finishAt s n w bus).sp = s.sp := rfl
@[simp] theorem finishAt_pc (s : State) (n : Nat) (w : Addr) (bus : Bus) : (finishAt s n w bus).pc = w := rfl
@[simp] theorem finishAt_p (s : State) (n : Nat) (w : Addr) (bus : Bus) : (finishAt s n w bus).p = s.p := rfl
@[simp] theorem finishAt_run (s : State) (n : Nat) (w : Addr) (bus : Bus) : (finishAt s n w bus).run = s.run := rfl
@[simp] theorem finishAt_haltIn (s : State) (n : Nat) (w : Addr) (bus : Bus) : (finishAt s n w bus).haltIn = s.haltIn := rfl
@[simp] theorem finishAt_nmiPending (s : State) (n : Nat) (w : Addr) : (finishAt s n w).nmiPending = s.nmiPending := rfl
@[simp] theorem finishAt_mem (s : State) (n : Nat) (w : Addr) : (finishAt s n w).mem = s.mem := rfl
@[simp] theorem finishAt_ticks (s : State) (n : Nat) (w : Addr) : (finishAt s n w).ticks = s.ticks + n := rfl
@[simp] theorem finishAt_device (s : State) (n : Nat) (w : Addr) : (finishAt s n w).device = s.device := rfl
@[simp] theorem finishAt_events (s : State) (n : Nat) (w : Addr) (bus : Bus) : (finishAt s n w bus).events = s.events ++ [.tick n] := rfl

@[simp] theorem retire_a (s : State) (len n : Nat) (bus : Bus) : (retire s len n bus).a = s.a := rfl
@[simp] theorem retire_x (s : State) (len n : Nat) (bus : Bus) : (retire s len n bus).x = s.x := rfl
@[simp] theorem retire_y (s : State) (len n : Nat) (bus : Bus) : (retire s len n bus).y = s.y := rfl
@[simp] theorem retire_sp (s : State) (len n : Nat) (bus : Bus) : (retire s len n bus).sp = s.sp := rfl
@[simp] theorem retire_pc (s : State) (len n : Nat) (bus : Bus) : (retire s len n bus).pc = s.pc + BitVec.ofNat 16 len := rfl
@[simp] theorem retire_p (s : State) (len n : Nat) (bus : Bus) : (retire s len n bus).p = s.p := rfl
@[simp] theorem retire_run (s : State) (len n : Nat) (bus : Bus) : (retire s len n bus).run = s.run := rfl
@[simp] theorem retire_haltIn (s : State) (len n : Nat) (bus : Bus) : (retire s len n bus).haltIn = s.haltIn := rfl
@[simp] theorem retire_nmiPending (s : State) (len n : Nat) : (retire s len n).nmiPending = s.nmiPending := rfl
@[simp] theorem retire_mem (s : State) (len n : Nat) : (retire s len n).mem = s.mem := rfl
@[simp] theorem retire_ticks (s : State) (len n : Nat) : (retire s len n).ticks = s.ticks + n := rfl
@[simp] theorem retire_device (s : State) (len n : Nat) : (retire s len n).device = s.device := rfl
@[simp] theorem retire_events (s : State) (len n : Nat) (bus : Bus) : (retire s len n bus).events = s.events ++ [.tick n] := rfl

@[simp] theorem raiseFatal_a (s : State) (r : FatalReason) : (raiseFatal s r).a = s.a := rfl
@[simp] theorem raiseFatal_x (s : State) (r : FatalReason) : (raiseFatal s r).x = s.x := rfl
@[simp] theorem raiseFatal_y (s : State) (r : FatalReason) : (raiseFatal s r).y = s.y := rfl
@[simp] theorem raiseFatal_sp (s : State) (r : FatalReason) : (raiseFatal s r).sp = s.sp := rfl
@[simp] theorem raiseFatal_pc (s : State) (r : FatalReason) : (raiseFatal s r).pc = s.pc := rfl
@[simp] theorem raiseFatal_p (s : State) (r : FatalReason) : (raiseFatal s r).p = s.p := rfl
@[simp] theorem raiseFatal_run (s : State) (r : FatalReason) : (raiseFatal s r).run = .faulted r := rfl
@[simp] theorem raiseFatal_haltIn (s : State) (r : FatalReason) : (raiseFatal s r).haltIn = s.haltIn := rfl
@[simp] theorem raiseFatal_nmiPending (s : State) (r : FatalReason) : (raiseFatal s r).nmiPending = s.nmiPending := rfl
@[simp] theorem raiseFatal_mem (s : State) (r : FatalReason) : (raiseFatal s r).mem = s.mem := rfl
@[simp] theorem raiseFatal_ticks (s : State) (r : FatalReason) : (raiseFatal s r).ticks = s.ticks := rfl
@[simp] theorem raiseFatal_device (s : State) (r : FatalReason) : (raiseFatal s r).device = s.device := rfl
@[simp] theorem raiseFatal_events (s : State) (r : FatalReason) : (raiseFatal s r).events = s.events := rfl

@[simp] theorem loadA_a (v : Byte) (s : State) : (loadA v s).a = v := rfl
@[simp] theorem loadA_x (v : Byte) (s : State) : (loadA v s).x = s.x := rfl
@[simp] theorem loadA_y (v : Byte) (s : State) : (loadA v s).y = s.y := rfl
@[simp] theorem loadA_sp (v : Byte) (s : State) : (loadA v s).sp = s.sp := rfl
@[simp] theorem loadA_pc (v : Byte) (s : State) : (loadA v s).pc = s.pc := rfl
@[simp] theorem loadA_p (v : Byte) (s : State) : (loadA v s).p = setZN v s.p := rfl
@[simp] theorem loadA_run (v : Byte) (s : State) : (loadA v s).run = s.run := rfl
@[simp] theorem loadA_haltIn (v : Byte) (s : State) : (loadA v s).haltIn = s.haltIn := rfl
@[simp] theorem loadA_nmiPending (v : Byte) (s : State) : (loadA v s).nmiPending = s.nmiPending := rfl
@[simp] theorem loadA_mem (v : Byte) (s : State) : (loadA v s).mem = s.mem := rfl
@[simp] theorem loadA_ticks (v : Byte) (s : State) : (loadA v s).ticks = s.ticks := rfl
@[simp] theorem loadA_device (v : Byte) (s : State) : (loadA v s).device = s.device := rfl
@[simp] theorem loadA_events (v : Byte) (s : State) : (loadA v s).events = s.events := rfl

@[simp] theorem loadX_a (v : Byte) (s : State) : (loadX v s).a = s.a := rfl
@[simp] theorem loadX_x (v : Byte) (s : State) : (loadX v s).x = v := rfl
@[simp] theorem loadX_y (v : Byte) (s : State) : (loadX v s).y = s.y := rfl
@[simp] theorem loadX_sp (v : Byte) (s : State) : (loadX v s).sp = s.sp := rfl
@[simp] theorem loadX_pc (v : Byte) (s : State) : (loadX v s).pc = s.pc := rfl
@[simp] theorem loadX_p (v : Byte) (s : State) : (loadX v s).p = setZN v s.p := rfl
@[simp] theorem loadX_run (v : Byte) (s : State) : (loadX v s).run = s.run := rfl
@[simp] theorem loadX_haltIn (v : Byte) (s : State) : (loadX v s).haltIn = s.haltIn := rfl
@[simp] theorem loadX_nmiPending (v : Byte) (s : State) : (loadX v s).nmiPending = s.nmiPending := rfl
@[simp] theorem loadX_mem (v : Byte) (s : State) : (loadX v s).mem = s.mem := rfl
@[simp] theorem loadX_ticks (v : Byte) (s : State) : (loadX v s).ticks = s.ticks := rfl
@[simp] theorem loadX_device (v : Byte) (s : State) : (loadX v s).device = s.device := rfl
@[simp] theorem loadX_events (v : Byte) (s : State) : (loadX v s).events = s.events := rfl

@[simp] theorem loadY_a (v : Byte) (s : State) : (loadY v s).a = s.a := rfl
@[simp] theorem loadY_x (v : Byte) (s : State) : (loadY v s).x = s.x := rfl
@[simp] theorem loadY_y (v : Byte) (s : State) : (loadY v s).y = v := rfl
@[simp] theorem loadY_sp (v : Byte) (s : State) : (loadY v s).sp = s.sp := rfl
@[simp] theorem loadY_pc (v : Byte) (s : State) : (loadY v s).pc = s.pc := rfl
@[simp] theorem loadY_p (v : Byte) (s : State) : (loadY v s).p = setZN v s.p := rfl
@[simp] theorem loadY_run (v : Byte) (s : State) : (loadY v s).run = s.run := rfl
@[simp] theorem loadY_haltIn (v : Byte) (s : State) : (loadY v s).haltIn = s.haltIn := rfl
@[simp] theorem loadY_nmiPending (v : Byte) (s : State) : (loadY v s).nmiPending = s.nmiPending := rfl
@[simp] theorem loadY_mem (v : Byte) (s : State) : (loadY v s).mem = s.mem := rfl
@[simp] theorem loadY_ticks (v : Byte) (s : State) : (loadY v s).ticks = s.ticks := rfl
@[simp] theorem loadY_device (v : Byte) (s : State) : (loadY v s).device = s.device := rfl
@[simp] theorem loadY_events (v : Byte) (s : State) : (loadY v s).events = s.events := rfl

@[simp] theorem applyZN_a (v : Byte) (s : State) : (applyZN v s).a = s.a := rfl
@[simp] theorem applyZN_x (v : Byte) (s : State) : (applyZN v s).x = s.x := rfl
@[simp] theorem applyZN_y (v : Byte) (s : State) : (applyZN v s).y = s.y := rfl
@[simp] theorem applyZN_sp (v : Byte) (s : State) : (applyZN v s).sp = s.sp := rfl
@[simp] theorem applyZN_pc (v : Byte) (s : State) : (applyZN v s).pc = s.pc := rfl
@[simp] theorem applyZN_p (v : Byte) (s : State) : (applyZN v s).p = setZN v s.p := rfl
@[simp] theorem applyZN_run (v : Byte) (s : State) : (applyZN v s).run = s.run := rfl
@[simp] theorem applyZN_haltIn (v : Byte) (s : State) : (applyZN v s).haltIn = s.haltIn := rfl
@[simp] theorem applyZN_nmiPending (v : Byte) (s : State) : (applyZN v s).nmiPending = s.nmiPending := rfl
@[simp] theorem applyZN_mem (v : Byte) (s : State) : (applyZN v s).mem = s.mem := rfl
@[simp] theorem applyZN_ticks (v : Byte) (s : State) : (applyZN v s).ticks = s.ticks := rfl
@[simp] theorem applyZN_device (v : Byte) (s : State) : (applyZN v s).device = s.device := rfl
@[simp] theorem applyZN_events (v : Byte) (s : State) : (applyZN v s).events = s.events := rfl

@[simp] theorem adcCore_a (m : Byte) (s : State) : (adcCore m s).a = adcResult s.a m (getFlag .C s.p) := rfl
@[simp] theorem adcCore_x (m : Byte) (s : State) : (adcCore m s).x = s.x := rfl
@[simp] theorem adcCore_y (m : Byte) (s : State) : (adcCore m s).y = s.y := rfl
@[simp] theorem adcCore_sp (m : Byte) (s : State) : (adcCore m s).sp = s.sp := rfl
@[simp] theorem adcCore_pc (m : Byte) (s : State) : (adcCore m s).pc = s.pc := rfl
@[simp] theorem adcCore_p (m : Byte) (s : State) : (adcCore m s).p = adcFlags s.a m s.p := rfl
@[simp] theorem adcCore_run (m : Byte) (s : State) : (adcCore m s).run = s.run := rfl
@[simp] theorem adcCore_haltIn (m : Byte) (s : State) : (adcCore m s).haltIn = s.haltIn := rfl
@[simp] theorem adcCore_nmiPending (m : Byte) (s : State) : (adcCore m s).nmiPending = s.nmiPending := rfl
@[simp] theorem adcCore_mem (m : Byte) (s : State) : (adcCore m s).mem = s.mem := rfl
@[simp] theorem adcCore_ticks (m : Byte) (s : State) : (adcCore m s).ticks = s.ticks := rfl
@[simp] theorem adcCore_device (m : Byte) (s : State) : (adcCore m s).device = s.device := rfl
@[simp] theorem adcCore_events (m : Byte) (s : State) : (adcCore m s).events = s.events := rfl

@[simp] theorem compareCore_a (r m : Byte) (s : State) : (compareCore r m s).a = s.a := rfl
@[simp] theorem compareCore_x (r m : Byte) (s : State) : (compareCore r m s).x = s.x := rfl
@[simp] theorem compareCore_y (r m : Byte) (s : State) : (compareCore r m s).y = s.y := rfl
@[simp] theorem compareCore_sp (r m : Byte) (s : State) : (compareCore r m s).sp = s.sp := rfl
@[simp] theorem compareCore_pc (r m : Byte) (s : State) : (compareCore r m s).pc = s.pc := rfl
@[simp] theorem compareCore_p (r m : Byte) (s : State) : (compareCore r m s).p = compareFlags r m s.p := rfl
@[simp] theorem compareCore_run (r m : Byte) (s : State) : (compareCore r m s).run = s.run := rfl
@[simp] theorem compareCore_haltIn (r m : Byte) (s : State) : (compareCore r m s).haltIn = s.haltIn := rfl
@[simp] theorem compareCore_nmiPending (r m : Byte) (s : State) : (compareCore r m s).nmiPending = s.nmiPending := rfl
@[simp] theorem compareCore_mem (r m : Byte) (s : State) : (compareCore r m s).mem = s.mem := rfl
@[simp] theorem compareCore_ticks (r m : Byte) (s : State) : (compareCore r m s).ticks = s.ticks := rfl
@[simp] theorem compareCore_device (r m : Byte) (s : State) : (compareCore r m s).device = s.device := rfl
@[simp] theorem compareCore_events (r m : Byte) (s : State) : (compareCore r m s).events = s.events := rfl

@[simp] theorem writeFlag_a (f : Flag) (b : Bool) (s : State) : (writeFlag f b s).a = s.a := rfl
@[simp] theorem writeFlag_x (f : Flag) (b : Bool) (s : State) : (writeFlag f b s).x = s.x := rfl
@[simp] theorem writeFlag_y (f : Flag) (b : Bool) (s : State) : (writeFlag f b s).y = s.y := rfl
@[simp] theorem writeFlag_sp (f : Flag) (b : Bool) (s : State) : (writeFlag f b s).sp = s.sp := rfl
@[simp] theorem writeFlag_pc (f : Flag) (b : Bool) (s : State) : (writeFlag f b s).pc = s.pc := rfl
@[simp] theorem writeFlag_p (f : Flag) (b : Bool) (s : State) : (writeFlag f b s).p = setFlag f b s.p := rfl
@[simp] theorem writeFlag_run (f : Flag) (b : Bool) (s : State) : (writeFlag f b s).run = s.run := rfl
@[simp] theorem writeFlag_haltIn (f : Flag) (b : Bool) (s : State) : (writeFlag f b s).haltIn = s.haltIn := rfl
@[simp] theorem writeFlag_nmiPending (f : Flag) (b : Bool) (s : State) : (writeFlag f b s).nmiPending = s.nmiPending := rfl
@[simp] theorem writeFlag_mem (f : Flag) (b : Bool) (s : State) : (writeFlag f b s).mem = s.mem := rfl
@[simp] theorem writeFlag_ticks (f : Flag) (b : Bool) (s : State) : (writeFlag f b s).ticks = s.ticks := rfl
@[simp] theorem writeFlag_device (f : Flag) (b : Bool) (s : State) : (writeFlag f b s).device = s.device := rfl
@[simp] theorem writeFlag_events (f : Flag) (b : Bool) (s : State) : (writeFlag f b s).events = s.events := rfl

@[simp] theorem raiseNmi_a (s : State) : (raiseNmi s).a = s.a := rfl
@[simp] theorem raiseNmi_x (s : State) : (raiseNmi s).x = s.x := rfl
@[simp] theorem raiseNmi_y (s : State) : (raiseNmi s).y = s.y := rfl
@[simp] theorem raiseNmi_sp (s : State) : (raiseNmi s).sp = s.sp := rfl
@[simp] theorem raiseNmi_pc (s : State) : (raiseNmi s).pc = s.pc := rfl
@[simp] theorem raiseNmi_p (s : State) : (raiseNmi s).p = s.p := rfl
@[simp] theorem raiseNmi_run (s : State) : (raiseNmi s).run = s.run := rfl
@[simp] theorem raiseNmi_haltIn (s : State) : (raiseNmi s).haltIn = s.haltIn := rfl
@[simp] theorem raiseNmi_nmiPending (s : State) : (raiseNmi s).nmiPending = true := rfl
@[simp] theorem raiseNmi_mem (s : State) : (raiseNmi s).mem = s.mem := rfl
@[simp] theorem raiseNmi_ticks (s : State) : (raiseNmi s).ticks = s.ticks := rfl
@[simp] theorem raiseNmi_device (s : State) : (raiseNmi s).device = s.device := rfl
@[simp] theorem raiseNmi_events (s : State) : (raiseNmi s).events = s.events := rfl

@[simp] theorem setHaltIn_a (s : State) (b : Bool) : (setHaltIn s b).a = s.a := rfl
@[simp] theorem setHaltIn_x (s : State) (b : Bool) : (setHaltIn s b).x = s.x := rfl
@[simp] theorem setHaltIn_y (s : State) (b : Bool) : (setHaltIn s b).y = s.y := rfl
@[simp] theorem setHaltIn_sp (s : State) (b : Bool) : (setHaltIn s b).sp = s.sp := rfl
@[simp] theorem setHaltIn_pc (s : State) (b : Bool) : (setHaltIn s b).pc = s.pc := rfl
@[simp] theorem setHaltIn_p (s : State) (b : Bool) : (setHaltIn s b).p = s.p := rfl
@[simp] theorem setHaltIn_run (s : State) (b : Bool) : (setHaltIn s b).run = s.run := rfl
@[simp] theorem setHaltIn_haltIn (s : State) (b : Bool) : (setHaltIn s b).haltIn = b := rfl
@[simp] theorem setHaltIn_nmiPending (s : State) (b : Bool) : (setHaltIn s b).nmiPending = s.nmiPending := rfl
@[simp] theorem setHaltIn_mem (s : State) (b : Bool) : (setHaltIn s b).mem = s.mem := rfl
@[simp] theorem setHaltIn_ticks (s : State) (b : Bool) : (setHaltIn s b).ticks = s.ticks := rfl
@[simp] theorem setHaltIn_device (s : State) (b : Bool) : (setHaltIn s b).device = s.device := rfl
@[simp] theorem setHaltIn_events (s : State) (b : Bool) : (setHaltIn s b).events = s.events := rfl

@[simp] theorem memRead_value (s : State) (k : Addr) : (memRead s k).1 = byteAt s k := rfl
@[simp] theorem pop_value (s : State) : (pop s).1 = byteAt s (stackAddr (s.sp + 1)) := rfl
@[simp] theorem pollNmi_answer (s : State) : (pollNmi s).1 = s.nmiPending := rfl

/-! The port operations and the pop on the configuration's bus, FlatRAM64K (20 R67), as state updates: the lemmas to rewrite
with instead of unfolding the bus. -/

theorem memRead_eq (s : State) (k : Addr) :
    memRead s k = (byteAt s k, { s with events := s.events ++ [.read k (byteAt s k)] }) := rfl
theorem memWrite_eq (s : State) (k : Addr) (v : Byte) :
    memWrite s k v = { s with mem := s.mem.set k.toNat v, events := s.events ++ [.write k v] } := rfl
theorem tick_eq (s : State) (n : Nat) : tick s n = { s with ticks := s.ticks + n, events := s.events ++ [.tick n] } := rfl
theorem pollNmi_eq (s : State) :
    pollNmi s = (s.nmiPending, { s with nmiPending := false, events := s.events ++ [.pollNmi s.nmiPending] }) := rfl
theorem push_eq (s : State) (v : Byte) :
    push s v = { s with
      sp := s.sp - 1, mem := s.mem.set (stackAddr s.sp).toNat v, events := s.events ++ [.write (stackAddr s.sp) v] } := rfl
theorem pop_eq (s : State) :
    pop s = (byteAt s (stackAddr (s.sp + 1)), { s with
      sp := s.sp + 1, events := s.events ++ [.read (stackAddr (s.sp + 1)) (byteAt s (stackAddr (s.sp + 1)))] }) := rfl

/-- The stack-overflow guard is absent (00 R5, decision D5). -/
@[simp] theorem runAfterPop_eq (s : State) : runAfterPop s = s.run := rfl

/-! The values of the parameters (00 R5), so that no proof unfolds `config` and loses its bus. -/

@[simp] theorem config_stackPage : config.stackPage = 0x01 := rfl
@[simp] theorem config_vecNmi : config.vecNmi = 0xFFFA := rfl
@[simp] theorem config_vecReset : config.vecReset = 0xFFFC := rfl
@[simp] theorem config_vecBrk : config.vecBrk = 0xFFFE := rfl
@[simp] theorem config_aReset : config.aReset = 0x00 := rfl
@[simp] theorem config_xReset : config.xReset = 0x00 := rfl
@[simp] theorem config_yReset : config.yReset = 0x00 := rfl
@[simp] theorem config_spReset : config.spReset = 0xFD := rfl
@[simp] theorem config_pReset : config.pReset = 0x24 := rfl
@[simp] theorem config_flagBit : config.flagBit = flagPosition := rfl
@[simp] theorem config_cyc : config.cyc = cycTable := rfl
@[simp] theorem config_nmiCycles : config.nmiCycles = 7 := rfl
@[simp] theorem config_brkHalt : config.brkHalt = true := rfl
@[simp] theorem config_spOverflowHalt : config.spOverflowHalt = false := rfl
@[simp] theorem config_flagRestore : config.flagRestore = .keepLiveBForceU := rfl
@[simp] theorem config_nopDaFa : config.nopDaFa = true := rfl
@[simp] theorem config_shaValue (a x b : Byte) : config.shaValue a x b = a &&& x &&& (b + 1) := rfl
@[simp] theorem baseCycles_brk : baseCycles .brk = 7 := rfl
@[simp] theorem baseCycles_rti : baseCycles .rti = 6 := rfl

end Sys2Proof.Machine
end

