-- ==== Sys2Proof/Laws/Flags.lean ====
section
/-! SUPPORT. What each flag computation leaves in each bit of P. -/

namespace Sys2Proof.Machine

theorem flagBit_lt (f : Flag) : flagBit f < 8 := by cases f <;> decide

theorem flagBit_inj {f g : Flag} (h : flagBit f = flagBit g) : f = g := by
  cases f <;> cases g <;> first | rfl | exact absurd h (by decide)

/-- One bit written, the others left (00 R9). -/
theorem getFlag_setFlag (f g : Flag) (b : Bool) (p : Byte) :
    getFlag g (setFlag f b p) = if g = f then b else getFlag g p := by
  have hg := flagBit_lt g
  have key : (1#8 <<< flagBit f).getLsbD (flagBit g) = decide (g = f) := by
    by_cases h : g = f
    · subst h
      cases g <;> decide
    · simp only [h, decide_false]
      cases f <;> cases g <;> first | decide | exact absurd rfl h
  unfold getFlag setFlag
  cases b <;> simp only [Bool.false_eq_true, if_true, if_false, BitVec.getLsbD_or, BitVec.getLsbD_and, BitVec.getLsbD_not,
    key, hg, decide_true, Bool.true_and] <;> by_cases h : g = f <;> simp [h]

@[simp] theorem getFlag_setFlag_same (f : Flag) (b : Bool) (p : Byte) : getFlag f (setFlag f b p) = b := by
  simp [getFlag_setFlag]

theorem getFlag_setFlag_other {f g : Flag} (b : Bool) (p : Byte) (h : g ≠ f) :
    getFlag g (setFlag f b p) = getFlag g p := by
  simp [getFlag_setFlag, h]

/-- Two flag bytes with the same eight flags are the same byte. -/
theorem byte_ext_of_flags {p q : Byte} (h : ∀ f, getFlag f p = getFlag f q) : p = q := by
  apply BitVec.eq_of_getLsbD_eq
  intro i hi
  match i, hi with
  | 0, _ => exact h .C
  | 1, _ => exact h .Z
  | 2, _ => exact h .I
  | 3, _ => exact h .D
  | 4, _ => exact h .B
  | 5, _ => exact h .U
  | 6, _ => exact h .V
  | 7, _ => exact h .N

theorem byte_msb (v : Byte) : v.msb = v.getLsbD 7 := by simp [BitVec.msb_eq_getLsbD_last]

theorem getFlag_setZN (f : Flag) (v p : Byte) :
    getFlag f (setZN v p) = if f = .N then v.getLsbD 7 else if f = .Z then v == 0 else getFlag f p := by
  simp [setZN, getFlag_setFlag, byte_msb]

theorem loadFlags_setZN (v p : Byte) : loadFlags v p (setZN v p) := by
  refine ⟨by simp [getFlag_setZN], by simp [getFlag_setZN], fun f hf => ?_⟩
  simp only [List.mem_cons, List.not_mem_nil, or_false, not_or] at hf
  simp [getFlag_setZN, hf]

theorem getFlag_compareFlags (f : Flag) (reg m p : Byte) :
    getFlag f (compareFlags reg m p) =
      if f = .N then (reg - m).getLsbD 7 else if f = .Z then reg == m
      else if f = .C then decide (m.toNat ≤ reg.toNat) else getFlag f p := by
  simp [compareFlags, getFlag_setFlag, byte_msb]

theorem comparedFlags_compareFlags (reg m p : Byte) : comparedFlags reg m p (compareFlags reg m p) := by
  refine ⟨by simp [getFlag_compareFlags], by simp [getFlag_compareFlags], by simp [getFlag_compareFlags], fun f hf => ?_⟩
  simp only [List.mem_cons, List.not_mem_nil, or_false, not_or] at hf
  simp [getFlag_compareFlags, hf]

theorem getFlag_bitFlags (f : Flag) (a m p : Byte) :
    getFlag f (bitFlags a m p) =
      if f = .N then m.getLsbD 7 else if f = .V then m.getLsbD 6 else if f = .Z then a &&& m == 0 else getFlag f p := by
  simp [bitFlags, getFlag_setFlag]

theorem getFlag_adcFlags (f : Flag) (a m p : Byte) :
    getFlag f (adcFlags a m p) =
      if f = .N then (adcResult a m (getFlag .C p)).getLsbD 7
      else if f = .Z then adcResult a m (getFlag .C p) == 0
      else if f = .V then adcOverflow a m (getFlag .C p)
      else if f = .C then decide (255 < adcSum a m (getFlag .C p)) else getFlag f p := by
  simp [adcFlags, getFlag_setZN, getFlag_setFlag]

theorem adcResult_toNat (a m : Byte) (c : Bool) : (adcResult a m c).toNat = (a.toNat + m.toNat + c.toNat) % 256 := by
  simp [adcResult, adcSum]

theorem toInt_by_bit7 (v : Byte) : v.toInt = (v.toNat : Int) - (if v.getLsbD 7 then 256 else 0) := by
  rw [BitVec.toInt_eq_msb_cond, byte_msb]
  split <;> simp

theorem getLsbD_7_iff (v : Byte) : v.getLsbD 7 = true ↔ 128 ≤ v.toNat := by
  rw [← byte_msb, BitVec.msb_eq_decide]
  simp

/-- The overflow formula of 41 R154 is the signed sum leaving −128 to +127. -/
theorem adcOverflow_iff (a m : Byte) (c : Bool) :
    adcOverflow a m c = true ↔ a.toInt + m.toInt + c.toNat < -128 ∨ 127 < a.toInt + m.toInt + c.toNat := by
  have bit : adcOverflow a m c =
      (((adcResult a m c).getLsbD 7 ^^ a.getLsbD 7) && ((adcResult a m c).getLsbD 7 ^^ m.getLsbD 7)) := by
    have mask : ∀ v : Byte, (v &&& 0x80 != 0) = v.getLsbD 7 := by decide
    simp only [adcOverflow, mask, BitVec.getLsbD_and, BitVec.getLsbD_xor]
  have hr := getLsbD_7_iff (adcResult a m c)
  have ha := getLsbD_7_iff a
  have hm := getLsbD_7_iff m
  rw [adcResult_toNat] at hr
  rw [bit, toInt_by_bit7 a, toInt_by_bit7 m]
  have h1 := a.isLt
  have h2 := m.isLt
  have h3 : c.toNat ≤ 1 := by cases c <;> decide
  cases hra : (adcResult a m c).getLsbD 7 <;> cases haa : a.getLsbD 7 <;> cases hma : m.getLsbD 7 <;>
    simp only [hra, haa, hma, Bool.false_eq_true, false_iff, true_iff, not_le] at hr ha hm <;>
    simp <;> omega

theorem addedFlags_adcFlags (a m p : Byte) :
    addedFlags a m p (adcResult a m (getFlag .C p)) (adcFlags a m p) := by
  refine ⟨by rw [getFlag_adcFlags]; exact decide_eq_true_iff, ?_, by simp [getFlag_adcFlags], by simp [getFlag_adcFlags], fun f hf => ?_⟩
  · rw [getFlag_adcFlags]
    simpa using adcOverflow_iff a m (getFlag .C p)
  · simp only [List.mem_cons, List.not_mem_nil, or_false, not_or] at hf
    simp [getFlag_adcFlags, hf]

/-- RestoreFlags: U forced to 1, B kept, the other flags from the popped byte (40 R145). -/
theorem getFlag_restoreFlags (f : Flag) (v p : Byte) :
    getFlag f (restoreFlags v p) = if f = .U then true else if f = .B then getFlag .B p else getFlag f v := by
  simp [restoreFlags, getFlag_setFlag]

theorem getFlag_pushedByBreak (f : Flag) (p : Byte) :
    getFlag f (pushedByBreak p) = if f = .B ∨ f = .U then true else getFlag f p := by
  simp only [pushedByBreak, getFlag_setFlag]
  cases f <;> simp

theorem getFlag_pushedByNmi (f : Flag) (p : Byte) :
    getFlag f (pushedByNmi p) = if f = .U then true else if f = .B then false else getFlag f p := by
  simp [pushedByNmi, getFlag_setFlag]

end Sys2Proof.Machine
end

