-- ==== Sys2Proof/Laws/Memory.lean ====
section
/-! SUPPORT. Memory: a read after a write, and every write keeps the canonical form. -/

namespace Sys2Proof.Machine

@[simp] theorem Memory.get_nil (k : Nat) : Memory.get [] k = Memory.unlisted := rfl

theorem Memory.get_cons (a : Nat) (v : Byte) (m : Memory) (k : Nat) :
    Memory.get ((a, v) :: m) k = if a = k then v else m.get k := rfl

theorem Memory.get_erase_same (m : Memory) (k : Nat) : (m.erase k).get k = Memory.unlisted := by
  induction m with
  | nil => rfl
  | cons c m ih =>
    obtain ⟨a, v⟩ := c
    by_cases h : a = k <;> simp [Memory.erase, Memory.get_cons, h, ih]

theorem Memory.get_erase_other (m : Memory) {k j : Nat} (h : j ≠ k) : (m.erase k).get j = m.get j := by
  induction m with
  | nil => rfl
  | cons c m ih =>
    obtain ⟨a, v⟩ := c
    by_cases hk : a = k
    · subst hk
      simp [Memory.erase, Memory.get_cons, ih, h.symm]
    · simp [Memory.erase, Memory.get_cons, hk, ih]

/-- No cell of an address. -/
def Memory.free (m : Memory) (k : Nat) : Prop := ∀ c ∈ m, c.1 ≠ k

theorem Memory.free_erase (m : Memory) (k : Nat) : (m.erase k).free k := by
  induction m with
  | nil => intro c hc; cases hc
  | cons c m ih =>
    obtain ⟨a, v⟩ := c
    by_cases h : a = k
    · simpa [Memory.erase, h] using ih
    · intro c hc
      simp only [Memory.erase, h, if_false, List.mem_cons] at hc
      rcases hc with rfl | hc
      · exact h
      · exact ih c hc

theorem Memory.get_insert_same {m : Memory} {k : Nat} (v : Byte) (h : m.free k) : (m.insert k v).get k = v := by
  induction m with
  | nil => simp [Memory.insert, Memory.get_cons]
  | cons c m ih =>
    obtain ⟨a, w⟩ := c
    have ha : a ≠ k := h (a, w) (by simp)
    by_cases hk : k < a
    · simp [Memory.insert, hk, Memory.get_cons]
    · simp [Memory.insert, hk, Memory.get_cons, ha, ih fun c hc => h c (by simp [hc])]

theorem Memory.get_insert_other (m : Memory) {k j : Nat} (v : Byte) (h : j ≠ k) : (m.insert k v).get j = m.get j := by
  induction m with
  | nil => simp [Memory.insert, Memory.get_cons, h.symm]
  | cons c m ih =>
    obtain ⟨a, w⟩ := c
    by_cases hk : k < a
    · simp [Memory.insert, hk, Memory.get_cons, h.symm]
    · simp [Memory.insert, hk, Memory.get_cons, ih]

/-- A read of the address written gives the value written. -/
theorem Memory.get_set_same (m : Memory) (k : Nat) (v : Byte) : (m.set k v).get k = v := by
  unfold Memory.set
  split
  · rename_i h
    rw [Memory.get_erase_same, h]
  · exact Memory.get_insert_same v (Memory.free_erase m k)

/-- A write leaves every other address as it was. -/
theorem Memory.get_set_other (m : Memory) {k j : Nat} (v : Byte) (h : j ≠ k) : (m.set k v).get j = m.get j := by
  unfold Memory.set
  split
  · exact Memory.get_erase_other m h
  · rw [Memory.get_insert_other _ v h, Memory.get_erase_other m h]

theorem Memory.get_set (m : Memory) (k j : Nat) (v : Byte) : (m.set k v).get j = if j = k then v else m.get j := by
  by_cases h : j = k
  · subst h; simp [Memory.get_set_same]
  · simp [h, Memory.get_set_other m v h]

theorem Memory.wfFrom_cons (lo a : Nat) (v : Byte) (m : Memory) :
    Memory.wfFrom lo ((a, v) :: m) = true ↔
      lo ≤ a ∧ a < 65536 ∧ v ≠ Memory.unlisted ∧ Memory.wfFrom (a + 1) m = true := by
  simp [Memory.wfFrom, and_assoc]

theorem Memory.wfFrom_mono {m : Memory} {lo lo' : Nat} (h : lo' ≤ lo) (hm : Memory.wfFrom lo m = true) :
    Memory.wfFrom lo' m = true := by
  cases m with
  | nil => rfl
  | cons c m =>
    obtain ⟨a, v⟩ := c
    rw [Memory.wfFrom_cons] at hm ⊢
    exact ⟨h.trans hm.1, hm.2⟩

theorem Memory.wfFrom_erase {m : Memory} {lo : Nat} (k : Nat) (hm : Memory.wfFrom lo m = true) :
    Memory.wfFrom lo (m.erase k) = true := by
  induction m generalizing lo with
  | nil => rfl
  | cons c m ih =>
    obtain ⟨a, v⟩ := c
    rw [Memory.wfFrom_cons] at hm
    by_cases h : a = k
    · simpa [Memory.erase, h] using Memory.wfFrom_mono (by omega) (ih hm.2.2.2)
    · simp only [Memory.erase, h, if_false, Memory.wfFrom_cons]
      exact ⟨hm.1, hm.2.1, hm.2.2.1, ih hm.2.2.2⟩

theorem Memory.wfFrom_insert {m : Memory} {lo k : Nat} {v : Byte} (hk : k < 65536) (hv : v ≠ Memory.unlisted)
    (hlo : lo ≤ k) (hf : m.free k) (hm : Memory.wfFrom lo m = true) : Memory.wfFrom lo (m.insert k v) = true := by
  induction m generalizing lo with
  | nil => simp [Memory.insert, Memory.wfFrom, hk, hv, hlo]
  | cons c m ih =>
    obtain ⟨a, w⟩ := c
    have ha : a ≠ k := hf (a, w) (by simp)
    rw [Memory.wfFrom_cons] at hm
    by_cases h : k < a
    · simp only [Memory.insert, h, if_true, Memory.wfFrom_cons]
      exact ⟨hlo, hk, hv, by omega, hm.2⟩
    · simp only [Memory.insert, h, if_false, Memory.wfFrom_cons]
      exact ⟨hm.1, hm.2.1, hm.2.2.1, ih (by omega) (fun c hc => hf c (by simp [hc])) hm.2.2.2⟩

/-- A write keeps the canonical form. -/
theorem Memory.wf_set {m : Memory} {k : Nat} (v : Byte) (hk : k < 65536) (hm : m.wf = true) : (m.set k v).wf = true := by
  unfold Memory.set
  split
  · exact Memory.wfFrom_erase k hm
  · rename_i hv
    exact Memory.wfFrom_insert hk hv (Nat.zero_le k) (Memory.free_erase m k) (Memory.wfFrom_erase k hm)

theorem Memory.wf_set_addr {m : Memory} (a : Addr) (v : Byte) (hm : m.wf = true) : (m.set a.toNat v).wf = true :=
  Memory.wf_set v (by simpa using a.isLt) hm

/-- The memory of `State.reset` is canonical. -/
theorem Memory.wf_nil : Memory.wf [] = true := rfl

/-- A canonical memory below a bound reads as the unlisted value there. -/
theorem Memory.get_of_lt {m : Memory} {lo k : Nat} (hm : Memory.wfFrom lo m = true) (hk : k < lo) :
    m.get k = Memory.unlisted := by
  induction m generalizing lo with
  | nil => rfl
  | cons c m ih =>
    obtain ⟨a, v⟩ := c
    rw [Memory.wfFrom_cons] at hm
    rw [Memory.get_cons, if_neg (by omega), ih hm.2.2.2 (by omega)]

/-- Two canonical memories that read the same at every address are the same data. -/
theorem Memory.ext_of_wfFrom {m n : Memory} {lo : Nat} (hm : Memory.wfFrom lo m = true) (hn : Memory.wfFrom lo n = true)
    (h : ∀ k, m.get k = n.get k) : m = n := by
  induction m generalizing n lo with
  | nil =>
    cases n with
    | nil => rfl
    | cons d n =>
      obtain ⟨b, w⟩ := d
      rw [Memory.wfFrom_cons] at hn
      have := h b
      simp [Memory.get_cons] at this
      exact absurd this.symm hn.2.2.1
  | cons c m ih =>
    obtain ⟨a, v⟩ := c
    rw [Memory.wfFrom_cons] at hm
    cases n with
    | nil =>
      have := h a
      simp [Memory.get_cons] at this
      exact absurd this hm.2.2.1
    | cons d n =>
      obtain ⟨b, w⟩ := d
      rw [Memory.wfFrom_cons] at hn
      have hab : a = b := by
        rcases Nat.lt_trichotomy a b with hlt | heq | hgt
        · have := h a
          rw [Memory.get_cons, if_pos rfl, Memory.get_cons, if_neg (by omega),
            Memory.get_of_lt hn.2.2.2 (by omega)] at this
          exact absurd this hm.2.2.1
        · exact heq
        · have := h b
          rw [Memory.get_cons, if_neg (by omega), Memory.get_of_lt hm.2.2.2 (by omega), Memory.get_cons,
            if_pos rfl] at this
          exact absurd this.symm hn.2.2.1
      subst hab
      have hv : v = w := by simpa [Memory.get_cons] using h a
      subst hv
      congr 1
      refine ih hm.2.2.2 hn.2.2.2 fun k => ?_
      by_cases hk : a = k
      · subst hk
        rw [Memory.get_of_lt hm.2.2.2 (by omega), Memory.get_of_lt hn.2.2.2 (by omega)]
      · simpa [Memory.get_cons, hk] using h k

end Sys2Proof.Machine
end

