-- ==== Sys2Proof/Laws/Operands.lean ====
section
/-! SUPPORT. What the resolver, the operand read and each instruction shape can do, said once. -/

namespace Sys2Proof.Machine

/-- The modes that have an address. -/
def addressable : AddrMode → Bool
  | .acc | .impl | .rel _ => false
  | .imm _ | .zp _ | .zpX _ | .zpY _ | .abs _ | .absX _ | .absY _ | .indX _ | .indY _ | .ind _ => true

/-- The word whose bytes are at two addresses. -/
def wordAt (s : State) (aLo aHi : Addr) : Addr := mkAddr (byteAt s aHi) (byteAt s aLo)

/-- The two events of reading a word. -/
def wordReads (s : State) (aLo aHi : Addr) : List BusEvent := [.read aLo (byteAt s aLo), .read aHi (byteAt s aHi)]

/-- The address the resolver answers, for a mode that has one. -/
def effective (m : AddrMode) (s : State) : Resolved :=
  match m with
  | .imm _ => uncrossed (s.pc + 1)
  | .zp d => uncrossed (zext16 d)
  | .zpX d => uncrossed (zext16 (d + s.x))
  | .zpY d => uncrossed (zext16 (d + s.y))
  | .abs w => uncrossed w
  | .absX w => indexed w s.x
  | .absY w => indexed w s.y
  | .indX d => uncrossed (wordAt s (zext16 (d + s.x)) (zext16 (d + s.x + 1)))
  | .indY d => indexed (wordAt s (zext16 d) (zext16 (d + 1))) s.y
  | .ind w => uncrossed (wordAt s w (nextInPage w))
  | .acc | .impl | .rel _ => uncrossed 0

/-- The pointer reads of a mode. -/
def pointerReads (m : AddrMode) (s : State) : List BusEvent :=
  match m with
  | .indX d => wordReads s (zext16 (d + s.x)) (zext16 (d + s.x + 1))
  | .indY d => wordReads s (zext16 d) (zext16 (d + 1))
  | .ind w => wordReads s w (nextInPage w)
  | .imm _ | .zp _ | .zpX _ | .zpY _ | .abs _ | .absX _ | .absY _ | .acc | .impl | .rel _ => []

/-- The operand byte of a mode. -/
def operandByte (m : AddrMode) (s : State) : Byte :=
  match m with
  | .imm d => d
  | .zp _ | .zpX _ | .zpY _ | .abs _ | .absX _ | .absY _ | .indX _ | .indY _ | .ind _ | .acc | .impl | .rel _ =>
    byteAt s (effective m s).ea

/-- The reads of an operand after the instruction's own bytes. -/
def operandReads (m : AddrMode) (s : State) : List BusEvent :=
  match m with
  | .imm _ => []
  | .zp _ | .zpX _ | .zpY _ | .abs _ | .absX _ | .absY _ | .indX _ | .indY _ | .ind _ | .acc | .impl | .rel _ =>
    pointerReads m s ++ [.read (effective m s).ea (byteAt s (effective m s).ea)]

/-- Events change no byte. -/
@[simp] theorem byteAt_logEvent (s : State) (e : BusEvent) (k : Addr) : byteAt (logEvent s e) k = byteAt s k := rfl

@[simp] theorem byteAt_withEvents (s : State) (l : List BusEvent) (k : Addr) :
    byteAt { s with events := l } k = byteAt s k := rfl

theorem memReadPair_eq (s : State) (aLo aHi : Addr) :
    memReadPair s aLo aHi = (wordAt s aLo aHi, { s with events := s.events ++ wordReads s aLo aHi }) := by
  simp [memReadPair, memRead_eq, wordAt, wordReads, byteAt]

theorem resolve_eq (m : AddrMode) (s : State) (h : addressable m = true) :
    resolve m s = .ok (effective m s, { s with events := s.events ++ pointerReads m s }) := by
  cases m <;> cases h <;> simp [resolve, effective, pointerReads, memRead16ZP, memReadPair_eq]

theorem resolve_unaddressable (m : AddrMode) (s : State) (h : addressable m = false) :
    resolve m s = .error .invalidAddressingModeUse := by
  cases m <;> cases h <;> rfl

theorem addresses_effective (m : AddrMode) (s : State) (h : addressable m = true) :
    Addresses m s (effective m s) (s.events ++ pointerReads m s) := resolve_eq m s h

theorem readOperand_eq (m : AddrMode) (s : State) :
    readOperand m (effective m s).ea { s with events := s.events ++ pointerReads m s } =
      (operandByte m s, { s with events := s.events ++ operandReads m s }) := by
  cases m <;> simp [readOperand, operandByte, operandReads, pointerReads, memRead_eq]

theorem readsOperand_effective (m : AddrMode) (s : State) (h : addressable m = true) :
    ReadsOperand m s (effective m s) (operandByte m s) (s.events ++ operandReads m s) :=
  ⟨_, addresses_effective m s h, by
    cases m <;> simp [operandByte, operandReads, pointerReads]⟩

/-- The read shape always completes on a mode that has an address. -/
theorem readShape_eq (i : Instr) (f : Byte → State → State) (s : State) (h : addressable i.mode = true) :
    readShape i f s = .next (retire (f (operandByte i.mode s) { s with events := s.events ++ operandReads i.mode s }) i.length
      (baseCycles i + (effective i.mode s).crossed.toNat)) := by
  simp only [readShape, resolve_eq i.mode s h, readOperand_eq]

/-- The store shape always completes on a mode that has an address. -/
theorem storeShape_eq (i : Instr) (val : Resolved → Byte) (s : State) (h : addressable i.mode = true) :
    storeShape i val s = .next (retire (memWrite { s with events := s.events ++ pointerReads i.mode s }
      (effective i.mode s).ea (val (effective i.mode s))) i.length (baseCycles i)) := by
  simp only [storeShape, resolve_eq i.mode s h]

/-- The read-modify-write shape always completes on a mode that has an address. -/
theorem modifyShape_eq (i : Instr) (f : ByteOp) (g : Byte → State → State) (s : State) (h : addressable i.mode = true) :
    modifyShape i f g s =
      (let ea := (effective i.mode s).ea
       let r := f (byteAt s ea) s.p
       .next (retire (g r.1 (memWrite { s with
          p := r.2, events := s.events ++ pointerReads i.mode s ++ [.read ea (byteAt s ea)] } ea r.1))
        i.length (baseCycles i))) := by
  simp [modifyShape, resolve_eq i.mode s h, memRead_eq]

theorem jumpShape_eq (i : Instr) (s : State) (h : addressable i.mode = true) :
    jumpShape i s = .next (finishAt { s with events := s.events ++ pointerReads i.mode s } (baseCycles i)
      (effective i.mode s).ea) := by
  simp only [jumpShape, resolve_eq i.mode s h]

/-- On a mode that has no address a shape is the fatal abort, and nothing else happens (40 R121). -/
theorem shapes_unaddressable (i : Instr) (s : State) (h : addressable i.mode = false) :
    (∀ f, readShape i f s = .next (raiseFatal s .invalidAddressingModeUse)) ∧
    (∀ v, storeShape i v s = .next (raiseFatal s .invalidAddressingModeUse)) ∧
    (∀ f g, modifyShape i f g s = .next (raiseFatal s .invalidAddressingModeUse)) := by
  refine ⟨fun f => ?_, fun v => ?_, fun f g => ?_⟩
  · simp only [readShape, resolve_unaddressable i.mode s h]
  · simp only [storeShape, resolve_unaddressable i.mode s h]
  · simp only [modifyShape, resolve_unaddressable i.mode s h]

/-- A shift or rotate outside the Accumulator is a read-modify-write. -/
theorem shiftShape_memory (i : Instr) (f : ByteOp) (s : State) (h : i.mode ≠ .acc) :
    shiftShape i f s = modifyShape i f applyZN s := by
  unfold shiftShape
  split
  · exact absurd ‹_› h
  all_goals rfl

theorem retired_eq_retire (u : State) (len n : Nat) :
    retire u len n = retired u u.events len n := rfl

end Sys2Proof.Machine
end

