-- ==== Sys2Proof/Laws/Ops.lean ====
section
/-! SUPPORT. The stack, the exception entry and return, the fetch and the step, each said once. -/

namespace Sys2Proof.Machine

/-- A byte after a write. -/
theorem byteAt_memWrite (s : State) (a k : Addr) (v : Byte) :
    byteAt (memWrite s a v) k = if k = a then v else byteAt s k := by
  simp only [byteAt, memWrite_mem, Memory.get_set, BitVec.toNat_inj]

theorem byteAt_push (s : State) (v : Byte) (k : Addr) :
    byteAt (push s v) k = if k = stackAddr s.sp then v else byteAt s k :=
  byteAt_memWrite s (stackAddr s.sp) k v

theorem storesByte_memWrite (s : State) (a : Addr) (v : Byte) : storesByte s (memWrite s a v) a v :=
  ⟨by simp [byteAt_memWrite], fun k hk => by simp [byteAt_memWrite, hk]⟩

theorem mkAddr_toNat (h l : Byte) : (mkAddr h l).toNat = h.toNat * 256 + l.toNat := by
  simp only [mkAddr, BitVec.toNat_append]
  rw [← Nat.shiftLeft_add_eq_or_of_lt (by simpa using l.isLt), Nat.shiftLeft_eq]

theorem hiByte_toNat (w : Addr) : (hiByte w).toNat = w.toNat / 256 := by
  simp only [hiByte, BitVec.extractLsb'_toNat, Nat.shiftRight_eq_div_pow]
  have := w.isLt
  omega

theorem loByte_toNat (w : Addr) : (loByte w).toNat = w.toNat % 256 := by
  simp only [loByte, BitVec.extractLsb'_toNat, Nat.shiftRight_eq_div_pow]
  omega

@[simp] theorem mkAddr_hi_lo (w : Addr) : mkAddr (hiByte w) (loByte w) = w := by
  apply BitVec.eq_of_toNat_eq
  rw [mkAddr_toNat, hiByte_toNat, loByte_toNat]
  omega

@[simp] theorem hiByte_mkAddr (h l : Byte) : hiByte (mkAddr h l) = h := by
  apply BitVec.eq_of_toNat_eq
  rw [hiByte_toNat, mkAddr_toNat]
  have := l.isLt
  omega

@[simp] theorem loByte_mkAddr (h l : Byte) : loByte (mkAddr h l) = l := by
  apply BitVec.eq_of_toNat_eq
  rw [loByte_toNat, mkAddr_toNat]
  have := l.isLt
  omega

theorem stackAddr_inj {a b : Byte} : stackAddr a = stackAddr b ↔ a = b := by
  constructor
  · intro h
    have := congrArg loByte h
    simpa [stackAddr] using this
  · rintro rfl; rfl

theorem stackAddr_hi (a : Byte) : hiByte (stackAddr a) = 0x01 := by simp [stackAddr]

/-- The three writes of a frame, in memory and in the record (60 R308, 45 R250). -/
theorem pushFrame_eq (k : ExceptionKind) (s : State) :
    pushFrame k s =
      (let r := exceptionReturn k s.pc
       let f := exceptionFlags k s.p
       { s with
          sp := s.sp - 1 - 1 - 1, p := setFlag .I true s.p,
          mem := ((s.mem.set (stackAddr s.sp).toNat (hiByte r)).set (stackAddr (s.sp - 1)).toNat (loByte r)).set
            (stackAddr (s.sp - 1 - 1)).toNat f,
          events := s.events ++ [.write (stackAddr s.sp) (hiByte r), .write (stackAddr (s.sp - 1)) (loByte r),
            .write (stackAddr (s.sp - 1 - 1)) f] }) := by
  simp [pushFrame, push16, push_eq]

/-- Two successive stack slots are different addresses. -/
theorem sp_sub_ne (a : Byte) : a ≠ a - 1 ∧ a ≠ a - 1 - 1 ∧ a - 1 ≠ a - 1 - 1 := by
  refine ⟨fun h => ?_, fun h => ?_, fun h => ?_⟩ <;> have := congrArg BitVec.toNat h <;> bv_omega

/-- A byte of memory after a frame's three writes. -/
theorem byteAt_pushFrame (k : ExceptionKind) (s : State) (a : Addr) :
    byteAt (pushFrame k s) a =
      if a = stackAddr (s.sp - 1 - 1) then exceptionFlags k s.p
      else if a = stackAddr (s.sp - 1) then loByte (exceptionReturn k s.pc)
      else if a = stackAddr s.sp then hiByte (exceptionReturn k s.pc) else byteAt s a := by
  rw [pushFrame_eq]
  simp only [byteAt, Memory.get_set, BitVec.toNat_inj]

/-- The opcode's length decides the fetch (30 R93). -/
theorem opcodeLength_cases : ∀ op : Byte, opcodeLength op = 1 ∨ opcodeLength op = 2 ∨ opcodeLength op = 3 := by
  decide

end Sys2Proof.Machine
end

