-- ==== Sys2Proof/Laws/Shapes.lean ====
section
/-! SUPPORT. When an instruction completes in each shape: what its statement has to show, once for all instructions. -/

namespace Sys2Proof.Machine

theorem retire_eq (u : State) (len n : Nat) : retire u len n = retired u u.events len n := rfl

theorem finishAt_eq (u : State) (n : Nat) (target : Addr) : finishAt u n target = transferred u u.events target n := rfl

/-- The state after a fatal use of a mode that has no address, or the end of a read. -/
theorem readShape_cases {i : Instr} {f : Byte → State → State} {s t : State} (h : readShape i f s = .next t) :
    (addressable i.mode = false ∧ t = raiseFatal s .invalidAddressingModeUse) ∨
    (addressable i.mode = true ∧
      t = retire (f (operandByte i.mode s) { s with events := s.events ++ operandReads i.mode s }) i.length
        (baseCycles i + (effective i.mode s).crossed.toNat)) := by
  cases ha : addressable i.mode
  · rw [(shapes_unaddressable i s ha).1] at h
    exact .inl ⟨rfl, (Host.Outcome.next.inj h).symm⟩
  · rw [readShape_eq i f s ha] at h
    exact .inr ⟨rfl, (Host.Outcome.next.inj h).symm⟩

/-- The state after a fatal use of a mode that has no address, or the end of a store. -/
theorem storeShape_cases {i : Instr} {val : Resolved → Byte} {s t : State} (h : storeShape i val s = .next t) :
    (addressable i.mode = false ∧ t = raiseFatal s .invalidAddressingModeUse) ∨
    (addressable i.mode = true ∧ t = retire (memWrite { s with events := s.events ++ pointerReads i.mode s }
      (effective i.mode s).ea (val (effective i.mode s))) i.length (baseCycles i)) := by
  cases ha : addressable i.mode
  · rw [(shapes_unaddressable i s ha).2.1] at h
    exact .inl ⟨rfl, (Host.Outcome.next.inj h).symm⟩
  · rw [storeShape_eq i val s ha] at h
    exact .inr ⟨rfl, (Host.Outcome.next.inj h).symm⟩

/-- The state after a fatal use of a mode that has no address, or the end of a read-modify-write. -/
theorem modifyShape_cases {i : Instr} {f : ByteOp} {g : Byte → State → State} {s t : State}
    (h : modifyShape i f g s = .next t) :
    (addressable i.mode = false ∧ t = raiseFatal s .invalidAddressingModeUse) ∨
    (addressable i.mode = true ∧ ∃ r : Byte × Byte, r = f (byteAt s (effective i.mode s).ea) s.p ∧
      t = retire (g r.1 (memWrite { s with
          p := r.2
          events := s.events ++ pointerReads i.mode s ++
            [.read (effective i.mode s).ea (byteAt s (effective i.mode s).ea)] }
        (effective i.mode s).ea r.1)) i.length (baseCycles i)) := by
  cases ha : addressable i.mode
  · rw [(shapes_unaddressable i s ha).2.2] at h
    exact .inl ⟨rfl, (Host.Outcome.next.inj h).symm⟩
  · rw [modifyShape_eq i f g s ha] at h
    exact .inr ⟨rfl, _, rfl, (Host.Outcome.next.inj h).symm⟩

/-- A shift or rotate: the Accumulator form, or a read-modify-write. -/
theorem shiftShape_cases {i : Instr} {f : ByteOp} {s t : State} (h : shiftShape i f s = .next t) :
    (i.mode = .acc ∧
      t = retire { s with a := (f s.a s.p).1, p := setZN (f s.a s.p).1 (f s.a s.p).2 } i.length (baseCycles i)) ∨
    (i.mode ≠ .acc ∧ modifyShape i f applyZN s = .next t) := by
  by_cases hm : i.mode = .acc
  · rw [shiftShape, hm] at h
    exact .inl ⟨hm, (Host.Outcome.next.inj h).symm⟩
  · rw [shiftShape_memory i f s hm] at h
    exact .inr ⟨hm, h⟩

/-- A jump whose mode has an address ends there. -/
theorem jumpShape_cases {i : Instr} {s t : State} (h : jumpShape i s = .next t) (ha : addressable i.mode = true) :
    t = finishAt { s with events := s.events ++ pointerReads i.mode s } (baseCycles i) (effective i.mode s).ea := by
  rw [jumpShape_eq i s ha] at h
  exact (Host.Outcome.next.inj h).symm

/-- A branch changes nothing but PC, the tick total and the record (43 R197). -/
theorem branchShape_cases {i : Instr} {c : Bool} {d8 : Byte} {s t : State} (h : branchShape i c d8 s = .next t) :
    (c = true ∧ t = finishAt s (baseCycles i + takenPenalty (s.pc + 2) (branchTarget s.pc d8)) (branchTarget s.pc d8)) ∨
    (c = false ∧ t = finishAt s (baseCycles i) (s.pc + 2)) := by
  cases c
  · exact .inr ⟨rfl, (Host.Outcome.next.inj h).symm⟩
  · exact .inl ⟨rfl, (Host.Outcome.next.inj h).symm⟩

/-- An instruction's base count is its opcode's cell of the table. -/
theorem baseCycles_of_opcode {i : Instr} {op : Byte} (h : i.opcode = some op) : baseCycles i = cyc op := by
  simp only [baseCycles, h]

/-- Where an instruction is the read shape of `f`, `f` leaves the record alone and has the effect, the instruction
completes (41 R150). -/
theorem completesReading {i : Instr} {m : AddrMode} {op : Byte} {n : Nat} {pays : Bool} {s : State}
    {effect : Byte → State → Prop} (f : Byte → State → State)
    (hop : i.opcode = some op) (he : exec i s = readShape i f s) (hm : i.mode = m) (ha : addressable m = true)
    (hc : cyc op + (effective m s).crossed.toNat = n + (pays && (effective m s).crossed).toNat)
    (hf : ∀ v evs, f v { s with events := evs } = { f v s with events := evs })
    (heff : effect (operandByte m s) (f (operandByte m s) s)) : CompletesReading i ⟨m, op, n, pays⟩ s effect := by
  subst hm
  refine ⟨hop, effective i.mode s, operandByte i.mode s, s.events ++ operandReads i.mode s, f (operandByte i.mode s) s,
    readsOperand_effective i.mode s ha, heff, ?_⟩
  rw [he, readShape_eq i f s ha, hf, baseCycles_of_opcode hop, hc]
  rfl

/-- Where an instruction is the store shape, it completes (41 R155). -/
theorem completesStoring {i : Instr} {m : AddrMode} {op : Byte} {n : Nat} {pays : Bool} {s : State} {val : Resolved → Byte}
    (hop : i.opcode = some op) (he : exec i s = storeShape i val s) (hm : i.mode = m) (ha : addressable m = true)
    (hc : cyc op = n) : CompletesStoring i ⟨m, op, n, pays⟩ s val := by
  subst hm
  refine ⟨hop, effective i.mode s, s.events ++ pointerReads i.mode s, _, addresses_effective i.mode s ha,
    he.trans (storeShape_eq i val s ha), ?_, ?_⟩
  · exact storesByte_memWrite { s with events := s.events ++ pointerReads i.mode s } _ _
  · subst hc
    simp [retire, finishAt, tick_eq, memWrite_eq, retired, baseCycles_of_opcode hop, Instr.length]

/-- Where an instruction is the read-modify-write shape of `f` and `g`, `g` leaves memory and the record alone and the two
have the effect, the instruction completes (42 R170, 46 R260). -/
theorem completesModifying {i : Instr} {m : AddrMode} {op : Byte} {n : Nat} {pays : Bool} {s : State}
    {effect : Byte → Byte → State → Prop} (f : ByteOp) (g : Byte → State → State)
    (hop : i.opcode = some op) (he : exec i s = modifyShape i f g s) (hm : i.mode = m) (ha : addressable m = true)
    (hc : cyc op = n)
    (hg : ∀ v t mem evs, g v { t with mem := mem, events := evs } = { g v t with mem := mem, events := evs })
    (heff : let v := byteAt s (effective m s).ea
      effect v (f v s.p).1 (g (f v s.p).1 { s with p := (f v s.p).2 })) :
    CompletesModifying i ⟨m, op, n, pays⟩ s effect := by
  subst hm
  refine ⟨hop, effective i.mode s, s.events ++ pointerReads i.mode s, (f (byteAt s (effective i.mode s).ea) s.p).1,
    g (f (byteAt s (effective i.mode s).ea) s.p).1 { s with p := (f (byteAt s (effective i.mode s).ea) s.p).2 }, _,
    addresses_effective i.mode s ha, heff, he.trans (modifyShape_eq i f g s ha), ?_, ?_⟩
  · have hm : ∀ (v : Byte) (t : State), (g v t).mem = t.mem := fun v t => by
      show (g v { t with mem := t.mem, events := t.events }).mem = t.mem
      rw [hg]
    refine ⟨?_, fun k hk => ?_⟩
    · simp [byteAt, retire, finishAt, tick_eq, hm, memWrite_eq, Memory.get_set_same]
    · simp [byteAt, retire, finishAt, tick_eq, hm, memWrite_eq, Memory.get_set, BitVec.toNat_inj, hk]
  · have hm : ∀ (v : Byte) (t : State), (g v t).mem = t.mem := fun v t => by
      show (g v { t with mem := t.mem, events := t.events }).mem = t.mem
      rw [hg]
    subst hc
    have key := hg (f (byteAt s (effective i.mode s).ea) s.p).1 { s with p := (f (byteAt s (effective i.mode s).ea) s.p).2 }
    rw [memWrite_eq]
    rw [key]
    simp [retire, finishAt, tick_eq, retired, baseCycles_of_opcode hop, Instr.length]

end Sys2Proof.Machine
end

