-- ==== Sys2Proof/Laws/Exceptions.lean ====
section
/-! SUPPORT. The 16-bit pushes and pops, taking an exception and returning from one, each said once: the whole state it
leaves. -/

namespace Sys2Proof.Machine

/-- The events of a frame's three writes. -/
def frameWrites (k : ExceptionKind) (s : State) : List BusEvent :=
  [.write (stackAddr s.sp) (hiByte (exceptionReturn k s.pc)),
   .write (stackAddr (s.sp - 1)) (loByte (exceptionReturn k s.pc)),
   .write (stackAddr (s.sp - 2)) (exceptionFlags k s.p)]

theorem sp_sub_sub (a : Byte) : a - 1#8 - 1#8 = a - 2#8 := by bv_omega

theorem sp_sub_three (a : Byte) : a - 1#8 - 1#8 - 1#8 = a - 3#8 := by bv_omega

/-- A 16-bit push, high byte first (40 R143). -/
theorem push16_eq (s : State) (w : Addr) :
    push16 s w = { s with
      sp := s.sp - 2
      mem := (s.mem.set (stackAddr s.sp).toNat (hiByte w)).set (stackAddr (s.sp - 1)).toNat (loByte w)
      events := s.events ++ [.write (stackAddr s.sp) (hiByte w), .write (stackAddr (s.sp - 1)) (loByte w)] } := by
  simp [push16, push_eq, sp_sub_sub]

/-- A byte of memory after a 16-bit push. -/
theorem byteAt_push16 (s : State) (w : Addr) (k : Addr) :
    byteAt (push16 s w) k =
      if k = stackAddr (s.sp - 1) then loByte w else if k = stackAddr s.sp then hiByte w else byteAt s k := by
  rw [push16_eq]
  simp only [byteAt, Memory.get_set, BitVec.toNat_inj]

/-- A 16-bit pop, low byte first (40 R144). -/
theorem pop16_eq (s : State) :
    pop16 s = (mkAddr (byteAt s (stackAddr (s.sp + 2))) (byteAt s (stackAddr (s.sp + 1))), { s with
      sp := s.sp + 2
      events := s.events ++ [.read (stackAddr (s.sp + 1)) (byteAt s (stackAddr (s.sp + 1))),
        .read (stackAddr (s.sp + 2)) (byteAt s (stackAddr (s.sp + 2)))] }) := by
  have h : s.sp + 1#8 + 1#8 = s.sp + 2#8 := by bv_omega
  simp [pop16, pop_eq, byteAt, h]

/-- An address outside page 1 is no stack slot. -/
theorem ne_stackAddr {a : Addr} (h : hiByte a ≠ 0x01) (sp : Byte) : a ≠ stackAddr sp := by
  rintro rfl
  exact h (stackAddr_hi sp)

/-- A frame leaves every byte outside page 1 as it was. -/
theorem byteAt_pushFrame_other (k : ExceptionKind) (s : State) {a : Addr} (h : hiByte a ≠ 0x01) :
    byteAt (pushFrame k s) a = byteAt s a := by
  simp [byteAt_pushFrame, ne_stackAddr h]

/-- NMI service (60 R308): the frame, then the latency tick, then the vector read. -/
theorem takeException_nmi_eq (s : State) :
    takeException .nmi s = { pushFrame .nmi s with
      pc := mkAddr (byteAt s 0xFFFB) (byteAt s 0xFFFA), ticks := s.ticks + 7
      events := s.events ++ frameWrites .nmi s ++
        [.tick 7, .read 0xFFFA (byteAt s 0xFFFA), .read 0xFFFB (byteAt s 0xFFFB)] } := by
  have h1 := byteAt_pushFrame_other .nmi s (a := 0xFFFA) (by decide)
  have h2 := byteAt_pushFrame_other .nmi s (a := 0xFFFB) (by decide)
  rw [← h1, ← h2]
  simp [takeException, memRead16, memReadPair, memRead_eq, tick_eq, pushFrame_eq, frameWrites, byteAt, sp_sub_sub]

/-- BRK's entry (45 R250): the frame, then the vector read, then the tick. -/
theorem takeException_brk_eq (s : State) :
    takeException .brk s = { pushFrame .brk s with
      pc := mkAddr (byteAt s 0xFFFF) (byteAt s 0xFFFE), ticks := s.ticks + 7
      events := s.events ++ frameWrites .brk s ++
        [.read 0xFFFE (byteAt s 0xFFFE), .read 0xFFFF (byteAt s 0xFFFF), .tick 7] } := by
  have h1 := byteAt_pushFrame_other .brk s (a := 0xFFFE) (by decide)
  have h2 := byteAt_pushFrame_other .brk s (a := 0xFFFF) (by decide)
  rw [← h1, ← h2]
  simp [takeException, memRead16, memReadPair, memRead_eq, tick_eq, finishAt, pushFrame_eq, frameWrites, byteAt,
    sp_sub_sub]

/-- The return from an exception (45 R252): flags, then PC low byte, then PC high byte. -/
theorem returnFromException_eq (s : State) :
    returnFromException s = { s with
      sp := s.sp + 3, p := restoreFlags (byteAt s (stackAddr (s.sp + 1))) s.p
      pc := mkAddr (byteAt s (stackAddr (s.sp + 3))) (byteAt s (stackAddr (s.sp + 2))), ticks := s.ticks + 6
      events := s.events ++ [.read (stackAddr (s.sp + 1)) (byteAt s (stackAddr (s.sp + 1))),
        .read (stackAddr (s.sp + 2)) (byteAt s (stackAddr (s.sp + 2))),
        .read (stackAddr (s.sp + 3)) (byteAt s (stackAddr (s.sp + 3))), .tick 6] } := by
  have h2 : s.sp + 1#8 + 1#8 = s.sp + 2#8 := by bv_omega
  have h3 : s.sp + 2#8 + 1#8 = s.sp + 3#8 := by bv_omega
  simp [returnFromException, pop16, pop_eq, finishAt, tick_eq, byteAt, h2, h3]

end Sys2Proof.Machine
end

