-- ==== Sys2Proof/Laws/PerInstr.lean ====
section
/-! SUPPORT. The per-instruction family `EncodedLength`: an instruction is well-formed exactly when it has an encoding, and
then its encoding has as many bytes as its addressing mode says (30 R80, R93). -/

namespace Sys2Proof.Laws

/-- The encoding has the length of the instruction's mode exactly when the instruction is one some byte sequence encodes. -/
def EncodedLength.Statement (i : Instr) : Prop := i.wf = true ↔ (encode i).length = i.length

/-- The operand bytes of a mode are one less than its length. -/
theorem operandBytes_length (m : AddrMode) : m.operandBytes.length + 1 = m.length := by cases m <;> rfl

/-- A mode takes at least the opcode byte. -/
theorem mode_length_pos (m : AddrMode) : 0 < m.length := by cases m <;> exact Nat.succ_pos _

/-- An instruction that has an opcode has the length its mode says, and one that has none encodes to nothing. -/
theorem encode_length (i : Instr) : (encode i).length = i.length ↔ i.opcode.isSome = true := by
  unfold encode
  cases i.opcode with
  | none => simpa [Instr.length] using (mode_length_pos i.mode).ne
  | some op => simpa [Instr.length] using operandBytes_length i.mode

/-- The family's statement, from which instructions have an opcode. -/
theorem encodedLength_of {i : Instr} (h : i.opcode.isSome = i.wf) : EncodedLength.Statement i := by
  rw [EncodedLength.Statement, encode_length, h]

theorem EncodedLength.ora (m : AddrMode) : EncodedLength.Statement (.ora m) :=
  encodedLength_of (by cases m <;> rfl)

theorem EncodedLength.and (m : AddrMode) : EncodedLength.Statement (.and m) :=
  encodedLength_of (by cases m <;> rfl)

theorem EncodedLength.eor (m : AddrMode) : EncodedLength.Statement (.eor m) :=
  encodedLength_of (by cases m <;> rfl)

theorem EncodedLength.adc (m : AddrMode) : EncodedLength.Statement (.adc m) :=
  encodedLength_of (by cases m <;> rfl)

theorem EncodedLength.sta (m : AddrMode) : EncodedLength.Statement (.sta m) :=
  encodedLength_of (by cases m <;> rfl)

theorem EncodedLength.lda (m : AddrMode) : EncodedLength.Statement (.lda m) :=
  encodedLength_of (by cases m <;> rfl)

theorem EncodedLength.cmp (m : AddrMode) : EncodedLength.Statement (.cmp m) :=
  encodedLength_of (by cases m <;> rfl)

theorem EncodedLength.sbc (m : AddrMode) : EncodedLength.Statement (.sbc m) :=
  encodedLength_of (by cases m <;> rfl)

theorem EncodedLength.asl (m : AddrMode) : EncodedLength.Statement (.asl m) :=
  encodedLength_of (by cases m <;> rfl)

theorem EncodedLength.rol (m : AddrMode) : EncodedLength.Statement (.rol m) :=
  encodedLength_of (by cases m <;> rfl)

theorem EncodedLength.lsr (m : AddrMode) : EncodedLength.Statement (.lsr m) :=
  encodedLength_of (by cases m <;> rfl)

theorem EncodedLength.ror (m : AddrMode) : EncodedLength.Statement (.ror m) :=
  encodedLength_of (by cases m <;> rfl)

theorem EncodedLength.stx (m : AddrMode) : EncodedLength.Statement (.stx m) :=
  encodedLength_of (by cases m <;> rfl)

theorem EncodedLength.ldx (m : AddrMode) : EncodedLength.Statement (.ldx m) :=
  encodedLength_of (by cases m <;> rfl)

theorem EncodedLength.dec (m : AddrMode) : EncodedLength.Statement (.dec m) :=
  encodedLength_of (by cases m <;> rfl)

theorem EncodedLength.inc (m : AddrMode) : EncodedLength.Statement (.inc m) :=
  encodedLength_of (by cases m <;> rfl)

theorem EncodedLength.bit (m : AddrMode) : EncodedLength.Statement (.bit m) :=
  encodedLength_of (by cases m <;> rfl)

theorem EncodedLength.jmpAbs (a16 : Addr) : EncodedLength.Statement (.jmpAbs a16) := encodedLength_of rfl

theorem EncodedLength.jmpInd (a16 : Addr) : EncodedLength.Statement (.jmpInd a16) := encodedLength_of rfl

theorem EncodedLength.sty (m : AddrMode) : EncodedLength.Statement (.sty m) :=
  encodedLength_of (by cases m <;> rfl)

theorem EncodedLength.ldy (m : AddrMode) : EncodedLength.Statement (.ldy m) :=
  encodedLength_of (by cases m <;> rfl)

theorem EncodedLength.cpy (m : AddrMode) : EncodedLength.Statement (.cpy m) :=
  encodedLength_of (by cases m <;> rfl)

theorem EncodedLength.cpx (m : AddrMode) : EncodedLength.Statement (.cpx m) :=
  encodedLength_of (by cases m <;> rfl)

theorem EncodedLength.bpl (d8 : Byte) : EncodedLength.Statement (.bpl d8) := encodedLength_of rfl

theorem EncodedLength.bmi (d8 : Byte) : EncodedLength.Statement (.bmi d8) := encodedLength_of rfl

theorem EncodedLength.bvc (d8 : Byte) : EncodedLength.Statement (.bvc d8) := encodedLength_of rfl

theorem EncodedLength.bvs (d8 : Byte) : EncodedLength.Statement (.bvs d8) := encodedLength_of rfl

theorem EncodedLength.bcc (d8 : Byte) : EncodedLength.Statement (.bcc d8) := encodedLength_of rfl

theorem EncodedLength.bcs (d8 : Byte) : EncodedLength.Statement (.bcs d8) := encodedLength_of rfl

theorem EncodedLength.bne (d8 : Byte) : EncodedLength.Statement (.bne d8) := encodedLength_of rfl

theorem EncodedLength.beq (d8 : Byte) : EncodedLength.Statement (.beq d8) := encodedLength_of rfl

theorem EncodedLength.php : EncodedLength.Statement .php := encodedLength_of rfl

theorem EncodedLength.clc : EncodedLength.Statement .clc := encodedLength_of rfl

theorem EncodedLength.plp : EncodedLength.Statement .plp := encodedLength_of rfl

theorem EncodedLength.sec : EncodedLength.Statement .sec := encodedLength_of rfl

theorem EncodedLength.pha : EncodedLength.Statement .pha := encodedLength_of rfl

theorem EncodedLength.cli : EncodedLength.Statement .cli := encodedLength_of rfl

theorem EncodedLength.pla : EncodedLength.Statement .pla := encodedLength_of rfl

theorem EncodedLength.sei : EncodedLength.Statement .sei := encodedLength_of rfl

theorem EncodedLength.dey : EncodedLength.Statement .dey := encodedLength_of rfl

theorem EncodedLength.tya : EncodedLength.Statement .tya := encodedLength_of rfl

theorem EncodedLength.tay : EncodedLength.Statement .tay := encodedLength_of rfl

theorem EncodedLength.clv : EncodedLength.Statement .clv := encodedLength_of rfl

theorem EncodedLength.iny : EncodedLength.Statement .iny := encodedLength_of rfl

theorem EncodedLength.cld : EncodedLength.Statement .cld := encodedLength_of rfl

theorem EncodedLength.inx : EncodedLength.Statement .inx := encodedLength_of rfl

theorem EncodedLength.sed : EncodedLength.Statement .sed := encodedLength_of rfl

theorem EncodedLength.txa : EncodedLength.Statement .txa := encodedLength_of rfl

theorem EncodedLength.txs : EncodedLength.Statement .txs := encodedLength_of rfl

theorem EncodedLength.tax : EncodedLength.Statement .tax := encodedLength_of rfl

theorem EncodedLength.tsx : EncodedLength.Statement .tsx := encodedLength_of rfl

theorem EncodedLength.dex : EncodedLength.Statement .dex := encodedLength_of rfl

theorem EncodedLength.nop : EncodedLength.Statement .nop := encodedLength_of rfl

theorem EncodedLength.nopDA : EncodedLength.Statement .nopDA := encodedLength_of rfl

theorem EncodedLength.nopFA : EncodedLength.Statement .nopFA := encodedLength_of rfl

theorem EncodedLength.brk : EncodedLength.Statement .brk := encodedLength_of rfl

theorem EncodedLength.jsr (a16 : Addr) : EncodedLength.Statement (.jsr a16) := encodedLength_of rfl

theorem EncodedLength.rti : EncodedLength.Statement .rti := encodedLength_of rfl

theorem EncodedLength.rts : EncodedLength.Statement .rts := encodedLength_of rfl

theorem EncodedLength.alr (d8 : Byte) : EncodedLength.Statement (.alr d8) := encodedLength_of rfl

theorem EncodedLength.anc0B (d8 : Byte) : EncodedLength.Statement (.anc0B d8) := encodedLength_of rfl

theorem EncodedLength.anc2B (d8 : Byte) : EncodedLength.Statement (.anc2B d8) := encodedLength_of rfl

theorem EncodedLength.arr (d8 : Byte) : EncodedLength.Statement (.arr d8) := encodedLength_of rfl

theorem EncodedLength.axs (d8 : Byte) : EncodedLength.Statement (.axs d8) := encodedLength_of rfl

theorem EncodedLength.lax (m : AddrMode) : EncodedLength.Statement (.lax m) :=
  encodedLength_of (by cases m <;> rfl)

theorem EncodedLength.sax (m : AddrMode) : EncodedLength.Statement (.sax m) :=
  encodedLength_of (by cases m <;> rfl)

theorem EncodedLength.sha (m : AddrMode) : EncodedLength.Statement (.sha m) :=
  encodedLength_of (by cases m <;> rfl)

theorem EncodedLength.sbcEB (d8 : Byte) : EncodedLength.Statement (.sbcEB d8) := encodedLength_of rfl

theorem EncodedLength.dcp (m : AddrMode) : EncodedLength.Statement (.dcp m) :=
  encodedLength_of (by cases m <;> rfl)

theorem EncodedLength.isc (m : AddrMode) : EncodedLength.Statement (.isc m) :=
  encodedLength_of (by cases m <;> rfl)

theorem EncodedLength.rla (m : AddrMode) : EncodedLength.Statement (.rla m) :=
  encodedLength_of (by cases m <;> rfl)

theorem EncodedLength.rra (m : AddrMode) : EncodedLength.Statement (.rra m) :=
  encodedLength_of (by cases m <;> rfl)

theorem EncodedLength.slo (m : AddrMode) : EncodedLength.Statement (.slo m) :=
  encodedLength_of (by cases m <;> rfl)

theorem EncodedLength.sre (m : AddrMode) : EncodedLength.Statement (.sre m) :=
  encodedLength_of (by cases m <;> rfl)

theorem EncodedLength.undecoded (op : Byte) : EncodedLength.Statement (.undecoded op) :=
  encodedLength_of (by
    show (if undecodedBytes.contains op then some op else none).isSome = undecodedBytes.contains op
    cases undecodedBytes.contains op <;> rfl)

end Sys2Proof.Laws
end

