-- ==== Sys2Proof/Laws/Step.lean ====
section
/-! SUPPORT. What the fetch changes and what a step can be, each said once. -/

namespace Sys2Proof.Machine

/-- The fetch adds its reads to the record and changes nothing else (40 R103, R104). -/
theorem fetchInstr_frame (s : State) : ∃ l, (fetchInstr s).2 = { s with events := s.events ++ l } := by
  unfold fetchInstr
  rcases opcodeLength_cases (byteAt s s.pc) with h | h | h <;> simp only [memRead_value, h]
  · exact ⟨_, rfl⟩
  · exact ⟨[.read s.pc _, .read (s.pc + 1) _], by simp [memRead_eq]; exact ⟨rfl, rfl⟩⟩
  · exact ⟨[.read s.pc _, .read (s.pc + 1) _, .read (s.pc + 2) _], by simp [memRead_eq]; exact ⟨rfl, rfl, rfl⟩⟩

/-- The state an instruction starts from: the poll has answered false, its own bytes have been read (40 R102 to R104). -/
def fetched (s : State) : Instr × State := fetchInstr { s with nmiPending := false, events := [.pollNmi false] }

/-- The four ways a step answers a next state (40 R100, 60 R310). -/
theorem step_cases {s t : State} (h : step s = .next t) :
    s.run = .running ∧
    ((s.haltIn = true ∧ t = { s with run := .halted, events := [] }) ∨
     (s.haltIn = false ∧ s.nmiPending = true ∧
        t = takeException .nmi { s with nmiPending := false, events := [.pollNmi true] }) ∨
     (s.haltIn = false ∧ s.nmiPending = false ∧ exec (fetched s).1 (fetched s).2 = .next t)) := by
  cases hr : s.run <;> simp only [step, coreStep, hr, boundary, reduceCtorEq] at h
  refine ⟨rfl, ?_⟩
  cases hh : s.haltIn
  · simp only [hh, Bool.false_eq_true, if_false, pollNmi_eq] at h
    cases hn : s.nmiPending
    · simp only [hn, Bool.false_eq_true, if_false] at h
      exact .inr (.inr ⟨rfl, rfl, by simpa [fetched, hr, hh] using h⟩)
    · simp only [hn, if_true, Host.Outcome.next.injEq] at h
      exact .inr (.inl ⟨rfl, rfl, by rw [← h]; rfl⟩)
  · simp only [hh, if_true, Host.Outcome.next.injEq] at h
    exact .inl ⟨rfl, by rw [← h]⟩

end Sys2Proof.Machine
end

