-- ==== Sys2Proof/Tests/Slice0.lean ====
section
/-! SUPPORT. Tests. Words are written out from the opcode tables of 30_encoding rules R84 to R92, step results are rows of
spec/95_test_vectors.md, and a witness meets the hypotheses of the obligation it names. -/

namespace Sys2Proof.Tests

open Sys2Proof.Machine

/-- The start state of spec/95: the reset state with PC at 0x8000 and the listed bytes in memory. -/
def start (cells : Memory) : State := { State.reset with pc := 0x8000, mem := cells, events := [] }

/-- What holds of the state one step leads to; false where the step answers none. -/
def after (s : State) (f : State → Bool) : Bool :=
  match step s with
  | .next t => f t
  | .fault _ => false
  | .refused _ => false

/-- FlatRAM64K, counting its writes in the device data. -/
def countingBus : Bus :=
  { flatRam64K with write := fun b a v => { b with mem := b.mem.set a.toNat v, device := b.device ++ [1] } }

/-- FlatRAM64K with a status register at 0x2002 that a read clears. -/
def statusBus : Bus :=
  { flatRam64K with read := fun b a =>
      if a = 0x2002 then (BitVec.ofNat 8 (b.device.headD 0), { b with device := b.device.tail })
      else (b.mem.get a.toNat, b) }

/-! ### Well-formedness: an ill-formed term for each check -/

theorem test_illformed_group1 : Instr.wf (.ora (.zpY 0x10)) = false ∧ encode (.ora (.zpY 0x10)) = [] := by decide

theorem test_illformed_sta : Instr.wf (.sta (.imm 0x10)) = false ∧ encode (.sta (.imm 0x10)) = [] := by decide

theorem test_illformed_shift : Instr.wf (.asl (.imm 0x10)) = false ∧ encode (.asl (.imm 0x10)) = [] := by decide

theorem test_illformed_inc_dec : Instr.wf (.dec .acc) = false ∧ encode (.dec .acc) = [] := by decide

theorem test_illformed_stx : Instr.wf (.stx (.absY 0x1234)) = false ∧ encode (.stx (.absY 0x1234)) = [] := by decide

theorem test_illformed_ldx : Instr.wf (.ldx (.zpX 0x10)) = false ∧ encode (.ldx (.zpX 0x10)) = [] := by decide

theorem test_illformed_bit : Instr.wf (.bit (.imm 0x10)) = false ∧ encode (.bit (.imm 0x10)) = [] := by decide

theorem test_illformed_sty : Instr.wf (.sty (.absX 0x1234)) = false ∧ encode (.sty (.absX 0x1234)) = [] := by decide

theorem test_illformed_ldy : Instr.wf (.ldy (.zpY 0x10)) = false ∧ encode (.ldy (.zpY 0x10)) = [] := by decide

theorem test_illformed_compare_index : Instr.wf (.cpx (.zpX 0x10)) = false ∧ encode (.cpx (.zpX 0x10)) = [] := by decide

theorem test_illformed_lax : Instr.wf (.lax (.imm 0x10)) = false ∧ encode (.lax (.imm 0x10)) = [] := by decide

theorem test_illformed_sax : Instr.wf (.sax (.indY 0x10)) = false ∧ encode (.sax (.indY 0x10)) = [] := by decide

theorem test_illformed_sha : Instr.wf (.sha (.abs 0x1234)) = false ∧ encode (.sha (.abs 0x1234)) = [] := by decide

theorem test_illformed_illegal_rmw : Instr.wf (.slo (.imm 0x10)) = false ∧ encode (.slo (.imm 0x10)) = [] := by decide

theorem test_illformed_undecoded : Instr.wf (.undecoded 0xEA) = false ∧ encode (.undecoded 0xEA) = [] := by decide

/-! ### Decoding: every constructor, by words written out from R84 to R92 -/

theorem test_decode_group1_logic :
    decodeTableWord 16 0x1009 = some (.ora (.imm 0x10)) ∧
    decodeTableWord 16 0x1001 = some (.ora (.indX 0x10)) ∧
    decodeTableWord 16 0x1025 = some (.and (.zp 0x10)) ∧
    decodeTableWord 16 0x1051 = some (.eor (.indY 0x10)) ∧
    decodeTableWord 16 0x1055 = some (.eor (.zpX 0x10)) := by decide

theorem test_decode_group1_arithmetic :
    decodeTableWord 24 0x12346D = some (.adc (.abs 0x1234)) ∧
    decodeTableWord 24 0x1234D9 = some (.cmp (.absY 0x1234)) ∧
    decodeTableWord 24 0x1234FD = some (.sbc (.absX 0x1234)) := by decide

theorem test_decode_group1_moves :
    decodeTableWord 16 0x1081 = some (.sta (.indX 0x10)) ∧
    decodeTableWord 24 0x12349D = some (.sta (.absX 0x1234)) ∧
    decodeTableWord 24 0x1234BD = some (.lda (.absX 0x1234)) ∧
    decodeTableWord 16 0x10B1 = some (.lda (.indY 0x10)) := by decide

theorem test_decode_group2_shifts :
    decodeTableWord 8 0x0A = some (.asl .acc) ∧
    decodeTableWord 16 0x1006 = some (.asl (.zp 0x10)) ∧
    decodeTableWord 16 0x1036 = some (.rol (.zpX 0x10)) ∧
    decodeTableWord 24 0x12344E = some (.lsr (.abs 0x1234)) ∧
    decodeTableWord 24 0x12347E = some (.ror (.absX 0x1234)) := by decide

theorem test_decode_group2_others :
    decodeTableWord 16 0x1096 = some (.stx (.zpY 0x10)) ∧
    decodeTableWord 16 0x10A2 = some (.ldx (.imm 0x10)) ∧
    decodeTableWord 16 0x10B6 = some (.ldx (.zpY 0x10)) ∧
    decodeTableWord 24 0x1234BE = some (.ldx (.absY 0x1234)) ∧
    decodeTableWord 24 0x1234DE = some (.dec (.absX 0x1234)) ∧
    decodeTableWord 16 0x10E6 = some (.inc (.zp 0x10)) := by decide

theorem test_decode_group3 :
    decodeTableWord 16 0x1024 = some (.bit (.zp 0x10)) ∧
    decodeTableWord 24 0x12344C = some (.jmpAbs 0x1234) ∧
    decodeTableWord 24 0x12346C = some (.jmpInd 0x1234) ∧
    decodeTableWord 16 0x1094 = some (.sty (.zpX 0x10)) ∧
    decodeTableWord 24 0x1234BC = some (.ldy (.absX 0x1234)) ∧
    decodeTableWord 16 0x10C0 = some (.cpy (.imm 0x10)) ∧
    decodeTableWord 24 0x1234EC = some (.cpx (.abs 0x1234)) := by decide

theorem test_decode_branches :
    decodeTableWord 16 0xFE10 = some (.bpl 0xFE) ∧
    decodeTableWord 16 0xFE30 = some (.bmi 0xFE) ∧
    decodeTableWord 16 0xFE50 = some (.bvc 0xFE) ∧
    decodeTableWord 16 0xFE70 = some (.bvs 0xFE) ∧
    decodeTableWord 16 0xFE90 = some (.bcc 0xFE) ∧
    decodeTableWord 16 0xFEB0 = some (.bcs 0xFE) ∧
    decodeTableWord 16 0xFED0 = some (.bne 0xFE) ∧
    decodeTableWord 16 0xFEF0 = some (.beq 0xFE) := by decide

theorem test_decode_single_low8_first :
    decodeTableWord 8 0x08 = some .php ∧
    decodeTableWord 8 0x18 = some .clc ∧
    decodeTableWord 8 0x28 = some .plp ∧
    decodeTableWord 8 0x38 = some .sec ∧
    decodeTableWord 8 0x48 = some .pha ∧
    decodeTableWord 8 0x58 = some .cli ∧
    decodeTableWord 8 0x68 = some .pla ∧
    decodeTableWord 8 0x78 = some .sei := by decide

theorem test_decode_single_low8_second :
    decodeTableWord 8 0x88 = some .dey ∧
    decodeTableWord 8 0x98 = some .tya ∧
    decodeTableWord 8 0xA8 = some .tay ∧
    decodeTableWord 8 0xB8 = some .clv ∧
    decodeTableWord 8 0xC8 = some .iny ∧
    decodeTableWord 8 0xD8 = some .cld ∧
    decodeTableWord 8 0xE8 = some .inx ∧
    decodeTableWord 8 0xF8 = some .sed := by decide

theorem test_decode_single_lowA :
    decodeTableWord 8 0x8A = some .txa ∧
    decodeTableWord 8 0x9A = some .txs ∧
    decodeTableWord 8 0xAA = some .tax ∧
    decodeTableWord 8 0xBA = some .tsx ∧
    decodeTableWord 8 0xCA = some .dex ∧
    decodeTableWord 8 0xDA = some .nopDA ∧
    decodeTableWord 8 0xEA = some .nop ∧
    decodeTableWord 8 0xFA = some .nopFA := by decide

theorem test_decode_irregular :
    decodeTableWord 8 0x00 = some .brk ∧
    decodeTableWord 24 0x123420 = some (.jsr 0x1234) ∧
    decodeTableWord 8 0x40 = some .rti ∧
    decodeTableWord 8 0x60 = some .rts := by decide

theorem test_decode_illegal_immediate :
    decodeTableWord 16 0x104B = some (.alr 0x10) ∧
    decodeTableWord 16 0x100B = some (.anc0B 0x10) ∧
    decodeTableWord 16 0x102B = some (.anc2B 0x10) ∧
    decodeTableWord 16 0x106B = some (.arr 0x10) ∧
    decodeTableWord 16 0x10CB = some (.axs 0x10) ∧
    decodeTableWord 16 0x10EB = some (.sbcEB 0x10) := by decide

theorem test_decode_illegal_moves :
    decodeTableWord 16 0x10B7 = some (.lax (.zpY 0x10)) ∧
    decodeTableWord 24 0x1234BF = some (.lax (.absY 0x1234)) ∧
    decodeTableWord 16 0x1083 = some (.sax (.indX 0x10)) ∧
    decodeTableWord 24 0x12349F = some (.sha (.absY 0x1234)) ∧
    decodeTableWord 16 0x1093 = some (.sha (.indY 0x10)) := by decide

theorem test_decode_illegal_modify :
    decodeTableWord 24 0x1234DB = some (.dcp (.absY 0x1234)) ∧
    decodeTableWord 16 0x10F3 = some (.isc (.indY 0x10)) ∧
    decodeTableWord 16 0x1023 = some (.rla (.indX 0x10)) ∧
    decodeTableWord 16 0x1077 = some (.rra (.zpX 0x10)) ∧
    decodeTableWord 24 0x12340F = some (.slo (.abs 0x1234)) ∧
    decodeTableWord 24 0x12345F = some (.sre (.absX 0x1234)) := by decide

theorem test_decode_undecoded :
    decodeTableWord 8 0x02 = some (.undecoded 0x02) ∧
    decodeTableWord 8 0x89 = some (.undecoded 0x89) ∧
    decodeTableWord 8 0x1A = some (.undecoded 0x1A) ∧
    decodeTableWord 8 0x9C = some (.undecoded 0x9C) := by decide

/-- A truncated instruction is rejected by name. -/
theorem test_decode_truncated :
    decode [0xAD, 0x34] = .error (.truncated 0xAD) ∧ decode [] = .error .empty ∧
    decode [0xAD, 0x34, 0x12, 0xEA] = .ok (.lda (.abs 0x1234), [0xEA]) := ⟨rfl, rfl, rfl⟩

/-- The lengths of the opcodes 00 to 1F (R91, R93). -/
theorem test_matrix_lengths :
    (List.range 32).map (fun n => opcodeLength (BitVec.ofNat 8 n)) =
      [1, 2, 1, 2, 1, 2, 2, 2, 1, 2, 1, 2, 1, 3, 3, 3] ++ [2, 2, 1, 2, 1, 2, 2, 2, 1, 3, 1, 3, 1, 3, 3, 3] := by decide

/-! ### One step: rows of spec/95 -/

/-- V-D9 of spec/95. -/
theorem test_step_ora :
    after { start [(0x8000, 0x09), (0x8001, 0x80)] with a := 0x01 } (fun t =>
      t.a == 0x81 && t.p == 0xA4 && t.pc == 0x8002 && t.ticks == 2) = true := by decide

/-- V-D10 of spec/95. -/
theorem test_step_and :
    after { start [(0x8000, 0x29), (0x8001, 0x0F)] with a := 0xF0 } (fun t =>
      t.a == 0x00 && t.p == 0x26 && t.pc == 0x8002 && t.ticks == 2) = true := by decide

/-- V-D11 of spec/95. -/
theorem test_step_eor :
    after { start [(0x8000, 0x49), (0x8001, 0xFF)] with a := 0x0F } (fun t =>
      t.a == 0xF0 && t.p == 0xA4 && t.pc == 0x8002 && t.ticks == 2) = true := by decide

/-- V-D12 of spec/95. -/
theorem test_step_adc_overflow :
    after { start [(0x8000, 0x69), (0x8001, 0x01)] with a := 0x7F } (fun t =>
      t.a == 0x80 && t.p == 0xE4 && t.pc == 0x8002 && t.ticks == 2) = true := by decide

/-- V-D17 of spec/95. -/
theorem test_step_adc_decimal :
    after { start [(0x8000, 0x69), (0x8001, 0x01)] with a := 0x09, p := 0x2C } (fun t =>
      t.a == 0x0A && t.pc == 0x8002 && t.ticks == 2) = true := by decide

/-- V-D29 of spec/95. -/
theorem test_step_sta_indY :
    after { start [(0x0020, 0x01), (0x0021, 0x03), (0x8000, 0x91), (0x8001, 0x20)] with a := 0x42, y := 0xFF } (fun t =>
      t.pc == 0x8002 && byteAt t 0x0400 == 0x42 && t.ticks == 6) = true := by decide

/-- V-D3 of spec/95. -/
theorem test_step_lda_zpX_wraps :
    after { start [(0x0010, 0x77), (0x0110, 0x66), (0x8000, 0xB5), (0x8001, 0xF0)] with x := 0x20 } (fun t =>
      t.a == 0x77 && t.pc == 0x8002 && t.ticks == 4) = true := by decide

/-- V-D6 of spec/95. -/
theorem test_step_lda_indX :
    after { start [(0x0000, 0x12), (0x00FF, 0x34), (0x0100, 0x55), (0x1234, 0x99), (0x8000, 0xA1), (0x8001, 0xFE)] with x := 0x01 } (fun t =>
      t.a == 0x99 && t.p == 0xA4 && t.pc == 0x8002 && t.ticks == 6) = true := by decide

/-- V-D25 of spec/95. -/
theorem test_step_cmp :
    after { start [(0x8000, 0xC9), (0x8001, 0x01)] with a := 0x81 } (fun t =>
      t.p == 0xA5 && t.pc == 0x8002 && t.ticks == 2) = true := by decide

/-- V-D21 of spec/95. -/
theorem test_step_sbc_overflow :
    after { start [(0x8000, 0xE9), (0x8001, 0xFF)] with a := 0x7F, p := 0x25 } (fun t =>
      t.a == 0x80 && t.p == 0xE4 && t.pc == 0x8002 && t.ticks == 2) = true := by decide

/-- V-D19 of spec/95. -/
theorem test_step_sbc_borrow :
    after { start [(0x8000, 0xE9)] with a := 0x00, p := 0x24 } (fun t =>
      t.a == 0xFF && t.p == 0xA4 && t.pc == 0x8002 && t.ticks == 2) = true := by decide

/-- V-D46 of spec/95. -/
theorem test_step_asl_zp :
    after (start [(0x0010, 0xC0), (0x8000, 0x06), (0x8001, 0x10)]) (fun t =>
      t.p == 0xA5 && t.pc == 0x8002 && byteAt t 0x0010 == 0x80 && t.ticks == 5) = true := by decide

/-- V-D47 of spec/95. -/
theorem test_step_rol_absX :
    after { start [(0x0200, 0x7F), (0x8000, 0x3E), (0x8001, 0xFF), (0x8002, 0x01)] with x := 0x01, p := 0x25 } (fun t =>
      t.p == 0xA4 && t.pc == 0x8003 && byteAt t 0x0200 == 0xFF && t.ticks == 7) = true := by decide

/-- V-D48 of spec/95. -/
theorem test_step_lsr_zpX :
    after { start [(0x0001, 0x03), (0x8000, 0x56), (0x8001, 0xFF)] with x := 0x02 } (fun t =>
      t.p == 0x25 && t.pc == 0x8002 && byteAt t 0x0001 == 0x01 && byteAt t 0x0101 == 0x00 && t.ticks == 6) = true := by decide

/-- V-D44 of spec/95. -/
theorem test_step_ror_acc :
    after { start [(0x8000, 0x6A)] with a := 0x01, p := 0x25 } (fun t =>
      t.a == 0x80 && t.p == 0xA5 && t.pc == 0x8001 && t.ticks == 2) = true := by decide

/-- V-D56 of spec/95. -/
theorem test_step_stx_zpY :
    after { start [(0x8000, 0x96), (0x8001, 0x10)] with x := 0x07, y := 0x01 } (fun t =>
      t.pc == 0x8002 && byteAt t 0x0011 == 0x07 && t.ticks == 4) = true := by decide

/-- V-D54 of spec/95. -/
theorem test_step_ldx_zpY :
    after { start [(0x0001, 0x80), (0x0101, 0x11), (0x8000, 0xB6), (0x8001, 0xFF)] with y := 0x02 } (fun t =>
      t.x == 0x80 && t.p == 0xA4 && t.pc == 0x8002 && t.ticks == 4) = true := by decide

/-- V-D51 of spec/95. -/
theorem test_step_dec :
    after (start [(0x8000, 0xC6), (0x8001, 0x10)]) (fun t =>
      t.p == 0xA4 && t.pc == 0x8002 && byteAt t 0x0010 == 0xFF && t.ticks == 5) = true := by decide

/-- V-D52 of spec/95. -/
theorem test_step_inc_absX :
    after { start [(0x0205, 0x7F), (0x8000, 0xFE), (0x8002, 0x02)] with x := 0x05 } (fun t =>
      t.p == 0xA4 && t.pc == 0x8003 && byteAt t 0x0205 == 0x80 && t.ticks == 7) = true := by decide

/-- V-D60 of spec/95. -/
theorem test_step_bit :
    after { start [(0x0010, 0xC0), (0x8000, 0x24), (0x8001, 0x10)] with a := 0x01 } (fun t =>
      t.p == 0xE6 && t.pc == 0x8002 && t.ticks == 3) = true := by decide

/-- V-D62 of spec/95. -/
theorem test_step_jmpAbs :
    after (start [(0x8000, 0x4C), (0x8002, 0x80)]) (fun t =>
      t.pc == 0x8000 && t.ticks == 3) = true := by decide

/-- V-S7 of spec/95. -/
theorem test_step_jmpInd_page_bug :
    after (start [(0x0600, 0x01), (0x06FF, 0xAA), (0x0700, 0x99), (0x8000, 0x6C), (0x8001, 0xFF), (0x8002, 0x06)]) (fun t =>
      t.pc == 0x01AA && t.ticks == 5) = true := by decide

/-- V-D64 of spec/95. -/
theorem test_step_sty :
    after { start [(0x8000, 0x94), (0x8001, 0x10)] with x := 0x01, y := 0x33 } (fun t =>
      t.pc == 0x8002 && byteAt t 0x0011 == 0x33 && t.ticks == 4) = true := by decide

/-- V-D66 of spec/95. -/
theorem test_step_ldy_absX :
    after { start [(0x8000, 0xBC), (0x8001, 0xF0), (0x8002, 0x02)] with x := 0x10 } (fun t =>
      t.p == 0x26 && t.pc == 0x8003 && t.ticks == 5) = true := by decide

/-- V-D67 of spec/95. -/
theorem test_step_cpy :
    after { start [(0x8000, 0xC0), (0x8001, 0x05)] with y := 0x04 } (fun t =>
      t.p == 0xA4 && t.pc == 0x8002 && t.ticks == 2) = true := by decide

/-- V-S4 of spec/95. -/
theorem test_step_cpx :
    after { start [(0x0010, 0x10), (0x8000, 0xE4), (0x8001, 0x10)] with x := 0x20 } (fun t =>
      t.p == 0x25 && t.pc == 0x8002 && t.ticks == 3) = true := by decide

/-- V-D71 of spec/95. -/
theorem test_step_bpl_taken :
    after { start [(0x8000, 0x10), (0x8001, 0x02)] with p := 0x24 } (fun t =>
      t.pc == 0x8004 && t.ticks == 3) = true := by decide

/-- V-D72 of spec/95. -/
theorem test_step_bmi_taken :
    after { start [(0x8000, 0x30), (0x8001, 0x02)] with p := 0xA4 } (fun t =>
      t.pc == 0x8004 && t.ticks == 3) = true := by decide

/-- V-D73 of spec/95. -/
theorem test_step_bvc_to_itself :
    after { start [(0x8000, 0x50), (0x8001, 0xFE)] with p := 0x24 } (fun t =>
      t.pc == 0x8000 && t.ticks == 3) = true := by decide

/-- V-D74 of spec/95. -/
theorem test_step_bvs_not_taken :
    after { start [(0x8000, 0x70), (0x8001, 0x01)] with p := 0x24 } (fun t =>
      t.pc == 0x8002 && t.ticks == 2) = true := by decide

/-- V-D75 of spec/95. -/
theorem test_step_bcc_other_page :
    after { start [(0x80FD, 0x90), (0x80FE, 0x01)] with pc := 0x80FD, p := 0x24 } (fun t =>
      t.pc == 0x8100 && t.ticks == 4) = true := by decide

/-- V-D76 of spec/95. -/
theorem test_step_bcs_taken :
    after { start [(0x8000, 0xB0), (0x8001, 0x04)] with p := 0x25 } (fun t =>
      t.pc == 0x8006 && t.ticks == 3) = true := by decide

/-- V-D80 of spec/95. -/
theorem test_step_bne_wraps :
    after { start [(0xFFF0, 0xD0), (0xFFF1, 0x10)] with pc := 0xFFF0, p := 0x24 } (fun t =>
      t.pc == 0x0002 && t.ticks == 4) = true := by decide

/-- V-D78 of spec/95. -/
theorem test_step_beq_backward :
    after { start [(0x8000, 0xF0), (0x8001, 0x80)] with p := 0x26 } (fun t =>
      t.pc == 0x7F82 && t.ticks == 4) = true := by decide

/-- V-D90 of spec/95. -/
theorem test_step_php_sp_wraps :
    after { start [(0x8000, 0x08)] with sp := 0x00, p := 0xE5 } (fun t =>
      t.sp == 0xFF && t.pc == 0x8001 && byteAt t 0x0100 == 0xF5 && t.ticks == 3) = true := by decide

/-- V-D96 of spec/95. -/
theorem test_step_clc :
    after { start [(0x8000, 0x18)] with p := 0x25 } (fun t =>
      t.p == 0x24 && t.pc == 0x8001 && t.ticks == 2) = true := by decide

/-- V-D91 of spec/95. -/
theorem test_step_plp :
    after { start [(0x0100, 0xFF), (0x8000, 0x28)] with sp := 0xFF, p := 0x24 } (fun t =>
      t.sp == 0x00 && t.p == 0xEF && t.pc == 0x8001 && t.ticks == 4) = true := by decide

/-- V-D97 of spec/95. -/
theorem test_step_sec :
    after (start [(0x8000, 0x38)]) (fun t =>
      t.p == 0x25 && t.pc == 0x8001 && t.ticks == 2) = true := by decide

/-- V-D93 of spec/95. -/
theorem test_step_pha :
    after { start [(0x8000, 0x48)] with a := 0x42 } (fun t =>
      t.sp == 0xFC && t.pc == 0x8001 && byteAt t 0x01FD == 0x42 && t.ticks == 3) = true := by decide

/-- V-D98 of spec/95. -/
theorem test_step_cli :
    after (start [(0x8000, 0x58)]) (fun t =>
      t.p == 0x20 && t.pc == 0x8001 && t.ticks == 2) = true := by decide

/-- V-D95 of spec/95. -/
theorem test_step_pla :
    after { start [(0x0100, 0x80), (0x8000, 0x68)] with sp := 0xFF } (fun t =>
      t.a == 0x80 && t.sp == 0x00 && t.p == 0xA4 && t.pc == 0x8001 && t.ticks == 4) = true := by decide

/-- V-D99 of spec/95. -/
theorem test_step_sei :
    after { start [(0x8000, 0x78)] with p := 0x20 } (fun t =>
      t.p == 0x24 && t.pc == 0x8001 && t.ticks == 2) = true := by decide

/-- V-D103 of spec/95. -/
theorem test_step_dey :
    after { start [(0x8000, 0x88)] with y := 0x00 } (fun t =>
      t.y == 0xFF && t.p == 0xA4 && t.pc == 0x8001 && t.ticks == 2) = true := by decide

/-- V-D107 of spec/95. -/
theorem test_step_tya :
    after { start [(0x8000, 0x98)] with y := 0x80 } (fun t =>
      t.a == 0x80 && t.p == 0xA4 && t.pc == 0x8001 && t.ticks == 2) = true := by decide

/-- V-D108 of spec/95. -/
theorem test_step_tay :
    after { start [(0x8000, 0xA8)] with a := 0x00, y := 0x55 } (fun t =>
      t.y == 0x00 && t.p == 0x26 && t.pc == 0x8001 && t.ticks == 2) = true := by decide

/-- V-D100 of spec/95. -/
theorem test_step_clv :
    after { start [(0x8000, 0xB8)] with p := 0x64 } (fun t =>
      t.p == 0x24 && t.pc == 0x8001 && t.ticks == 2) = true := by decide

/-- V-D104 of spec/95. -/
theorem test_step_iny :
    after { start [(0x8000, 0xC8)] with y := 0xFF } (fun t =>
      t.y == 0x00 && t.p == 0x26 && t.pc == 0x8001 && t.ticks == 2) = true := by decide

/-- V-D101 of spec/95. -/
theorem test_step_cld :
    after { start [(0x8000, 0xD8)] with p := 0x2C } (fun t =>
      t.p == 0x24 && t.pc == 0x8001 && t.ticks == 2) = true := by decide

/-- V-D105 of spec/95. -/
theorem test_step_inx :
    after { start [(0x8000, 0xE8)] with x := 0x7F } (fun t =>
      t.x == 0x80 && t.p == 0xA4 && t.pc == 0x8001 && t.ticks == 2) = true := by decide

/-- V-D102 of spec/95. -/
theorem test_step_sed :
    after (start [(0x8000, 0xF8)]) (fun t =>
      t.p == 0x2C && t.pc == 0x8001 && t.ticks == 2) = true := by decide

/-- V-D109 of spec/95. -/
theorem test_step_txa :
    after { start [(0x8000, 0x8A)] with a := 0x55, x := 0x00 } (fun t =>
      t.a == 0x00 && t.p == 0x26 && t.pc == 0x8001 && t.ticks == 2) = true := by decide

/-- V-D112 of spec/95. -/
theorem test_step_txs :
    after { start [(0x8000, 0x9A)] with x := 0x80, p := 0x24 } (fun t =>
      t.sp == 0x80 && t.pc == 0x8001 && t.ticks == 2) = true := by decide

/-- V-D110 of spec/95. -/
theorem test_step_tax :
    after { start [(0x8000, 0xAA)] with a := 0x90 } (fun t =>
      t.x == 0x90 && t.p == 0xA4 && t.pc == 0x8001 && t.ticks == 2) = true := by decide

/-- V-D113 of spec/95. -/
theorem test_step_tsx :
    after { start [(0x8000, 0xBA)] with sp := 0xFD } (fun t =>
      t.x == 0xFD && t.p == 0xA4 && t.pc == 0x8001 && t.ticks == 2) = true := by decide

/-- V-D106 of spec/95. -/
theorem test_step_dex :
    after { start [(0x8000, 0xCA)] with x := 0x01 } (fun t =>
      t.x == 0x00 && t.p == 0x26 && t.pc == 0x8001 && t.ticks == 2) = true := by decide

/-- V-D115 of spec/95. -/
theorem test_step_nop :
    after { start [(0x8000, 0xEA)] with a := 0x01, x := 0x02, y := 0x03, p := 0xE5 } (fun t =>
      t.pc == 0x8001 && t.ticks == 2) = true := by decide

/-- V-D116 of spec/95. -/
theorem test_step_nopDA :
    after (start [(0x8000, 0xDA)]) (fun t =>
      t.pc == 0x8001 && t.ticks == 2) = true := by decide

/-- V-D117 of spec/95. -/
theorem test_step_nopFA :
    after (start [(0x8000, 0xFA)]) (fun t =>
      t.pc == 0x8001 && t.ticks == 2) = true := by decide

/-- V-D120 of spec/95. -/
theorem test_step_brk_halts :
    after { start [(0x8004, 0xEA), (0xFFFF, 0x90)] with pc := 0x8003, p := 0x24 } (fun t =>
      t.sp == 0xFA && t.pc == 0x9000 && byteAt t 0x01FD == 0x80 && byteAt t 0x01FC == 0x05 && byteAt t 0x01FB == 0x34 && t.ticks == 7 && t.run == .halted) = true := by decide

/-- V-D123 of spec/95. -/
theorem test_step_brk_continues :
    after { start [(0xFFFF, 0x90)] with sp := 0x01, p := 0xE1 } (fun t =>
      t.sp == 0xFE && t.p == 0xE5 && t.pc == 0x9000 && byteAt t 0x0101 == 0x80 && byteAt t 0x0100 == 0x02 && byteAt t 0x01FF == 0xF1 && t.ticks == 7) = true := by decide

/-- V-D125 of spec/95. -/
theorem test_step_jsr_pc_wraps :
    after { start [(0xFFFD, 0x20), (0xFFFF, 0x90)] with pc := 0xFFFD } (fun t =>
      t.sp == 0xFB && t.pc == 0x9000 && byteAt t 0x01FD == 0xFF && byteAt t 0x01FC == 0xFF && t.ticks == 6) = true := by decide

/-- V-D130 of spec/95. -/
theorem test_step_rti :
    after { start [(0x01FB, 0xB1), (0x01FC, 0x34), (0x01FD, 0x12), (0x8000, 0x40)] with sp := 0xFA, p := 0x24 } (fun t =>
      t.sp == 0xFD && t.p == 0xA1 && t.pc == 0x1234 && t.ticks == 6) = true := by decide

/-- V-D129 of spec/95. -/
theorem test_step_rts_sp_wraps :
    after { start [(0x0100, 0x20), (0x01FF, 0x10), (0x8000, 0x60)] with sp := 0xFE } (fun t =>
      t.sp == 0x00 && t.pc == 0x2011 && t.ticks == 6) = true := by decide

/-- V-D140 of spec/95. -/
theorem test_step_alr :
    after { start [(0x8000, 0x4B), (0x8001, 0xFF)] with a := 0x03 } (fun t =>
      t.a == 0x01 && t.p == 0x25 && t.pc == 0x8002 && t.ticks == 2) = true := by decide

/-- V-D141 of spec/95. -/
theorem test_step_anc0B :
    after { start [(0x8000, 0x0B), (0x8001, 0x80)] with a := 0xFF } (fun t =>
      t.a == 0x80 && t.p == 0xA5 && t.pc == 0x8002 && t.ticks == 2) = true := by decide

/-- V-D142 of spec/95. -/
theorem test_step_anc2B :
    after { start [(0x8000, 0x2B), (0x8001, 0x7F)] with a := 0xFF, p := 0x25 } (fun t =>
      t.a == 0x7F && t.p == 0x24 && t.pc == 0x8002 && t.ticks == 2) = true := by decide

/-- V-D144 of spec/95. -/
theorem test_step_arr :
    after { start [(0x8000, 0x6B), (0x8001, 0xFF)] with a := 0xC0, p := 0x25 } (fun t =>
      t.a == 0xE0 && t.p == 0xA5 && t.pc == 0x8002 && t.ticks == 2) = true := by decide

/-- V-D147 of spec/95. -/
theorem test_step_axs :
    after { start [(0x8000, 0xCB), (0x8001, 0x10)] with a := 0x0F, x := 0x0F, p := 0x65 } (fun t =>
      t.x == 0xFF && t.p == 0xE4 && t.pc == 0x8002 && t.ticks == 2) = true := by decide

/-- V-D149 of spec/95. -/
theorem test_step_lax_indY :
    after { start [(0x0020, 0xFF), (0x0021, 0x02), (0x8000, 0xB3), (0x8001, 0x20)] with y := 0x01 } (fun t =>
      t.p == 0x26 && t.pc == 0x8002 && t.ticks == 6) = true := by decide

/-- V-D152 of spec/95. -/
theorem test_step_sax_zpY :
    after { start [(0x8000, 0x97), (0x8001, 0xFF)] with a := 0xFF, x := 0x0F, y := 0x01 } (fun t =>
      t.pc == 0x8002 && byteAt t 0x0000 == 0x0F && t.ticks == 4) = true := by decide

/-- V-D153 of spec/95. -/
theorem test_step_sha_absY :
    after { start [(0x8000, 0x9F), (0x8002, 0x02)] with a := 0xFF, x := 0xFF, y := 0x01 } (fun t =>
      t.pc == 0x8003 && byteAt t 0x0201 == 0x03 && t.ticks == 5) = true := by decide

/-- V-D154 of spec/95. -/
theorem test_step_sha_indY :
    after { start [(0x0021, 0x7F), (0x8000, 0x93), (0x8001, 0x20)] with a := 0xFF, x := 0x0F, y := 0x00 } (fun t =>
      t.pc == 0x8002 && byteAt t 0x7F00 == 0x00 && t.ticks == 6) = true := by decide

/-- V-D155 of spec/95. -/
theorem test_step_sbcEB :
    after { start [(0x8000, 0xEB), (0x8001, 0x01)] with a := 0x00, p := 0x25 } (fun t =>
      t.a == 0xFF && t.p == 0xA4 && t.pc == 0x8002 && t.ticks == 2) = true := by decide

/-- V-D157 of spec/95. -/
theorem test_step_dcp_absY :
    after { start [(0x8000, 0xDB), (0x8001, 0xFF), (0x8002, 0x02)] with a := 0x00, y := 0x01 } (fun t =>
      t.pc == 0x8003 && byteAt t 0x0300 == 0xFF && t.ticks == 7) = true := by decide

/-- V-D159 of spec/95. -/
theorem test_step_isc :
    after { start [(0x0010, 0xFF), (0x8000, 0xE7), (0x8001, 0x10)] with a := 0x00, p := 0x25 } (fun t =>
      t.p == 0x27 && t.pc == 0x8002 && byteAt t 0x0010 == 0x00 && t.ticks == 5) = true := by decide

/-- V-D160 of spec/95. -/
theorem test_step_rla :
    after { start [(0x0010, 0x80), (0x8000, 0x27), (0x8001, 0x10)] with a := 0xFF, p := 0x25 } (fun t =>
      t.a == 0x01 && t.pc == 0x8002 && byteAt t 0x0010 == 0x01 && t.ticks == 5) = true := by decide

/-- V-D161 of spec/95. -/
theorem test_step_rra :
    after { start [(0x0010, 0x03), (0x8000, 0x67), (0x8001, 0x10)] with a := 0x7F, p := 0x24 } (fun t =>
      t.a == 0x81 && t.p == 0xE4 && t.pc == 0x8002 && byteAt t 0x0010 == 0x01 && t.ticks == 5) = true := by decide

/-- V-D164 of spec/95. -/
theorem test_step_slo_indX :
    after { start [(0x0000, 0x03), (0x0300, 0x40), (0x8000, 0x03), (0x8001, 0xFE)] with a := 0x00, x := 0x01 } (fun t =>
      t.a == 0x80 && t.p == 0xA4 && t.pc == 0x8002 && byteAt t 0x0300 == 0x80 && t.ticks == 8) = true := by decide

/-- V-D163 of spec/95. -/
theorem test_step_sre :
    after { start [(0x0010, 0x01), (0x8000, 0x47), (0x8001, 0x10)] with a := 0xFF } (fun t =>
      t.p == 0xA5 && t.pc == 0x8002 && byteAt t 0x0010 == 0x00 && t.ticks == 5) = true := by decide

/-- V-D185 of spec/95. -/
theorem test_step_undecoded :
    after { start [(0x8000, 0x02)] with a := 0x11, p := 0x65 } (fun t =>
      t.pc == 0x8000 && t.ticks == 0 && t.run == .faulted (.unimplementedOpcode 0x02 0x8000)) = true := by decide

/-- V-D171 of spec/95. -/
theorem test_step_fetch_wraps :
    after { start [(0x0000, 0x02), (0x0200, 0x33), (0xFFFE, 0xAD)] with pc := 0xFFFE } (fun t =>
      t.a == 0x33 && t.pc == 0x0001 && t.ticks == 4) = true := by decide

/-- V-D180 of spec/95. -/
theorem test_step_nmi :
    after { start [(0x8003, 0xE8), (0xFFFB, 0x90)] with pc := 0x8003, p := 0x25, nmiPending := true } (fun t =>
      t.sp == 0xFA && t.pc == 0x9000 && byteAt t 0x01FD == 0x80 && byteAt t 0x01FC == 0x03 && byteAt t 0x01FB == 0x25 && t.ticks == 7) = true := by decide

/-- V-D183 of spec/95. -/
theorem test_step_halt_before_nmi :
    after { start [(0x8000, 0xE8)] with nmiPending := true, haltIn := true } (fun t =>
      t.pc == 0x8000 && t.ticks == 0 && t.run == .halted) = true := by decide

/-- V-B4 of spec/95: the bus events of BRK at 0x8003. -/
theorem test_events_brk :
    after { start [(0xFFFF, 0x90)] with pc := 0x8003 } (fun t => t.events ==
      [.pollNmi false, .read 0x8003 0x00, .write 0x01FD 0x80, .write 0x01FC 0x05, .write 0x01FB 0x34] ++
      [.read 0xFFFE 0x00, .read 0xFFFF 0x90, .tick 7]) = true := by decide

/-- V-B16 of spec/95: the bus events of SLO (zp),Y. -/
theorem test_events_slo_indY :
    after { start [(0x0020, 0x01), (0x0021, 0x03), (0x0400, 0x01), (0x8000, 0x13), (0x8001, 0x20)] with y := 0xFF }
      (fun t => t.events == [.pollNmi false, .read 0x8000 0x13, .read 0x8001 0x20, .read 0x0020 0x01] ++
        [.read 0x0021 0x03, .read 0x0400 0x01, .write 0x0400 0x02, .tick 8]) = true := by decide

/-- On a bus where reading 0x2002 answers a device's status once and then zero ("reading the status register has the side effect
of clearing the vblank flag", 20 R56), LDA 0x2002 loads the status, and the device is cleared. -/
theorem test_other_bus_read_effect :
    (match stepOn statusBus { start [(0x8000, 0xAD), (0x8001, 0x02), (0x8002, 0x20)] with device := [0x80] } with
     | .next t => t.a == 0x80 && t.device == [] && t.events.contains (.read 0x2002 0x80)
     | .fault _ => false
     | .refused _ => false) = true := by decide

/-- V-D190 of spec/95: reset. -/
theorem test_reset :
    (hostReset { start [(0xFFFD, 0x80)] with a := 0x55, x := 0x01, y := 0x02, sp := 0x10, p := 0xFF, run := .halted }) =
      { start [(0xFFFD, 0x80)] with events := [.read 0xFFFC 0x00, .read 0xFFFD 0x80] } := by decide

/-! ### Witnesses: states and operands that meet the hypotheses of the obligations -/

/-- The flags byte PHP pushes from the reset flags (V-S10: 0x24 gives 0x34). -/
theorem test_witness_PushInstructions :
    ∀ g, getFlag g 0x34 = if g = .B ∨ g = .U then true else getFlag g State.reset.p := by
  intro g; cases g <;> decide

theorem test_witness_DecodeInvertsEncode :
    Instr.wf (.lda (.absX 0x1234)) = true ∧ Instr.wf (.undecoded 0xFC) = true ∧ Instr.wf .brk = true := by decide

theorem test_witness_UndecodedBytesAreFatal :
    (0x02 : Byte) ∈ undecodedBytes ∧ (0xBB : Byte) ∈ undecodedBytes ∧ (0x00 : Byte) ∉ undecodedBytes ∧
    (let s := start [(0x8000, 0x02)]
     s.run = .running ∧ s.haltIn = false ∧ s.nmiPending = false ∧ byteAt s s.pc ∈ undecodedBytes) := by decide

/-- The instruction's last byte at 0xFFFF, so that what follows it wraps. -/
theorem test_witness_StepRunsDecodedInstruction :
    let s := { start [(0xFFFE, 0xA9), (0xFFFF, 0x10)] with pc := 0xFFFE }
    s.run = .running ∧ s.haltIn = false ∧ s.nmiPending = false ∧
    decode [byteAt s s.pc, byteAt s (s.pc + 1), byteAt s (s.pc + 2)] = .ok (.lda (.imm 0x10), [0x00]) :=
  ⟨rfl, rfl, rfl, rfl⟩

theorem test_witness_HaltInputStopsFirst :
    (setHaltIn State.reset true).run = .running ∧ (setHaltIn State.reset true).haltIn = true := by decide

theorem test_witness_StepExistsExactlyWhenRunning :
    { State.reset with run := .halted }.run = .halted ∧
    { State.reset with run := .faulted .invalidAddressingModeUse }.run = .faulted .invalidAddressingModeUse := by decide

/-- Also for `RtiResumesAfterException`; the second state has the stack pointer where the frame wraps. -/
theorem test_witness_PendingNmiIsServiced :
    (∃ s : State, s.run = .running ∧ s.haltIn = false ∧ s.nmiPending = true) ∧
    ∃ s : State, s.run = .running ∧ s.haltIn = false ∧ s.nmiPending = true ∧ s.sp = 0x01 :=
  ⟨⟨raiseNmi State.reset, rfl, rfl, rfl⟩, ⟨{ raiseNmi State.reset with sp := 0x01 }, rfl, rfl, rfl, rfl⟩⟩

theorem test_witness_NmiFlagLaws :
    (raiseNmi State.reset).nmiPending = true ∧ State.reset.nmiPending = false ∧
    (∃ t, exec .nop State.reset = .next t) ∧
    ∃ t, step { raiseNmi State.reset with haltIn := true } = .next t ∧ t.nmiPending = true :=
  ⟨rfl, rfl, ⟨_, rfl⟩, _, rfl, rfl⟩

theorem test_witness_FlagLayoutAndRestore : 0 < 8 ∧ 4 < 8 ∧ 5 < 8 ∧ 7 < 8 := by decide

theorem test_witness_StackPushAndPop : (0x0100 : Addr) ≠ mkAddr 0x01 State.reset.sp := by decide

theorem test_witness_MemoryIsPlain :
    Memory.wf [(0x0010, 0x01), (0xFFFF, 0x02)] = true ∧ Memory.wf ([] : Memory) = true ∧
    ∀ k, Memory.get [(0x0010, 0x01)] k = Memory.get (Memory.set [] 0x0010 0x01) k := ⟨by decide, by decide, fun _ => rfl⟩

theorem test_witness_IndirectPointerStaysInPage :
    (0x06FF : Addr).toNat % 256 = 255 ∧ (0xFFFF : Addr).toNat % 256 = 255 ∧ (0x0600 : Addr).toNat % 256 ≠ 255 ∧
    (0x06FE : Addr).toNat % 256 ≠ 255 ∧ Instr.wf (.jmpInd 0x06FF) = true ∧
    (let s := start [(0x8000, 0x6C), (0x8001, 0xFF), (0x8002, 0x06)]
     s.run = .running ∧ s.haltIn = false ∧ s.nmiPending = false ∧
     decodeOp (byteAt s s.pc) (byteAt s (s.pc + 1)) (byteAt s (s.pc + 2)) = .jmpInd 0x06FF) := by decide

/-- Absolute,X at the two sides of the page boundary: one index does not cross, the next does. -/
theorem test_witness_DirectModeAddresses :
    (indexed 0x12F0 0x0F).crossed = false ∧ (indexed 0x12F0 0x10).crossed = true ∧ (indexed 0xFFFF 0x01).ea = 0x0000 := by
  decide

theorem test_witness_AccumulatorHasNoAddress :
    Instr.wf (.asl .acc) = true ∧ State.reset.run = .running ∧ ∃ t, exec (.asl .acc) State.reset = .next t :=
  ⟨rfl, rfl, _, rfl⟩

/-- Cells of LogicInstructions, AddWithCarry, SubtractWithBorrow, LoadInstructions and CompareInstructions. -/
theorem test_witness_group1Forms :
    (⟨.indX 0x10, 0x61, 6, false⟩ : Form) ∈ group1Forms 0x10 0x1234 0x61 0x65 0x69 0x6D 0x71 0x75 0x79 0x7D ∧
    (⟨.absX 0x1234, 0x7D, 4, true⟩ : Form) ∈ group1Forms 0x10 0x1234 0x61 0x65 0x69 0x6D 0x71 0x75 0x79 0x7D := by decide

/-- Cells of BitTest and StoreInstructions. -/
theorem test_witness_StoreInstructions :
    (⟨.zp 0x10, 0x24, 3, false⟩ : Form) ∈ [(⟨.zp 0x10, 0x24, 3, false⟩ : Form), ⟨.abs 0x1234, 0x2C, 4, false⟩] ∧
    (⟨.indX 0x10, 0x83, 6, false⟩ : Form) ∈ [(⟨.zp 0x10, 0x87, 3, false⟩ : Form), ⟨.indX 0x10, 0x83, 6, false⟩] := by decide

/-- Cells of LeftShifts, RightShifts and IncrementDecrementMemory. -/
theorem test_witness_modifyForms :
    (⟨.zp 0x10, 0x06, 5, false⟩ : Form) ∈ modifyForms 0x10 0x1234 0x06 0x16 0x0E 0x1E ∧
    (⟨.absX 0x1234, 0x1E, 7, false⟩ : Form) ∈ modifyForms 0x10 0x1234 0x06 0x16 0x0E 0x1E := by decide

/-- Cells of IllegalShiftAndLogic and IllegalModifyAndArithmetic. -/
theorem test_witness_illegalForms :
    (⟨.zp 0x10, 0x07, 5, false⟩ : Form) ∈ illegalForms 0x10 0x1234 0x07 0x17 0x0F 0x1F 0x1B 0x03 0x13 ∧
    (⟨.indY 0x10, 0x13, 8, false⟩ : Form) ∈ illegalForms 0x10 0x1234 0x07 0x17 0x0F 0x1F 0x1B 0x03 0x13 := by decide

/-- Entries of IllegalImmediates, ConditionalBranches, FlagInstructions and NoOperations. -/
theorem test_witness_lists :
    (Instr.anc2B 0x10, (0x2B : Byte)) ∈ [(Instr.anc0B 0x10, (0x0B : Byte)), (Instr.anc2B 0x10, 0x2B)] ∧
    (Instr.beq 0x10, (0xF0 : Byte), true) ∈ [(Instr.bpl 0x10, (0x10 : Byte), true), (.beq 0x10, 0xF0, true)] ∧
    (Instr.sed, (0xF8 : Byte), Flag.D, true) ∈ [(Instr.clc, (0x18 : Byte), Flag.C, false), (.sed, 0xF8, .D, true)] ∧
    (Instr.nopFA, (0xFA : Byte)) ∈ [(Instr.nop, (0xEA : Byte)), (.nopDA, 0xDA), (.nopFA, 0xFA)] := by decide

theorem test_witness_PullInstructions : (0x00 : Byte) = byteAt State.reset (mkAddr 0x01 (State.reset.sp + 1)) := by decide

theorem test_witness_PhpThenPlpRestores : getFlag .U State.reset.p = true ∧ getFlag .U 0x00 = false := by decide

theorem test_witness_StepKeepsInvariant : State.Inv State.reset ∧ ∃ t, step State.reset = .next t :=
  ⟨⟨rfl, rfl, rfl⟩, _, rfl⟩

theorem test_witness_ResetEstablishesInvariant :
    Memory.wf [(0xFFFD, 0x80)] = true ∧ State.Inv State.reset := ⟨rfl, rfl, rfl, rfl⟩

theorem test_witness_DecimalModeIsInert :
    touchesFlag .D (.adc (.imm 0x01)) = false ∧ ∃ t, exec (.adc (.imm 0x01)) State.reset = .next t := ⟨rfl, _, rfl⟩

/-- Also the boundary addresses beside the byte that may differ: the flags are pushed at 0x01FB, the stack pointer being 0xFD. -/
theorem test_witness_InterruptDisableMasksNothing :
    (touchesFlag .I (.adc (.imm 0x01)) = false ∧ ∃ t, exec (.adc (.imm 0x01)) State.reset = .next t) ∧
    (let s := raiseNmi State.reset
     s.run = .running ∧ s.haltIn = false ∧ s.nmiPending = true ∧
     (0x01FA : Addr) ≠ mkAddr 0x01 (s.sp - 2) ∧ (0x01FC : Addr) ≠ mkAddr 0x01 (s.sp - 2)) :=
  ⟨⟨rfl, _, rfl⟩, rfl, rfl, rfl, by decide, by decide⟩

/-- FlatRAM64K and a bus that also counts its writes answer alike from states with the same memory and flag; and a step on the
second exists. -/
theorem test_witness_EffectsReadRegistersAndMemoryOnly :
    (sameRegistersAndMemory State.reset { State.reset with ticks := 5, nmiPending := true, run := .halted } ∧
      ∃ t, exec (.inc (.zp 0x10)) State.reset = .next t) ∧
    busesAlike config.bus countingBus (fun x y => x.mem = y.mem ∧ x.nmiPending = y.nmiPending) ∧
    sameCore State.reset { State.reset with device := [1] } ∧ ∃ t, stepOn config.bus State.reset = .next t := by
  refine ⟨⟨⟨rfl, rfl, rfl, rfl, rfl, rfl, rfl⟩, _, rfl⟩, ?_, ⟨rfl, rfl, rfl, rfl, rfl, rfl, rfl, rfl, rfl⟩, _, rfl⟩
  rintro x y ⟨hm, hn⟩
  exact ⟨fun a => ⟨congrArg (Memory.get · a.toNat) hm, hm, hn⟩, fun a v => ⟨congrArg (Memory.set · a.toNat v) hm, hn⟩,
    fun _ => ⟨hm, hn⟩, hn, hm, rfl⟩

/-- A store to 0xFFFF, with the addresses beside it outside the stored bytes; and a form that stores nothing. -/
theorem test_witness_MemoryFrame :
    (∃ t, exec (.sta (.abs 0xFFFF)) State.reset = .next t) ∧
    (0xFFFE : Addr) ∉ storeAddrs (.sta (.abs 0xFFFF)) State.reset ∧
    (0x0000 : Addr) ∉ storeAddrs (.sta (.abs 0xFFFF)) State.reset ∧
    (0x0010 : Addr) ∉ storeAddrs (.cmp (.zp 0x10)) State.reset := ⟨⟨_, rfl⟩, by decide, by decide, by decide⟩

theorem test_witness_RegisterWriters :
    (∃ t, exec .txs State.reset = .next t) ∧ writesA .txs = false ∧ writesX .txs = false ∧ writesY .txs = false ∧
    writesSp .tax = false := ⟨⟨_, rfl⟩, rfl, rfl, rfl, rfl⟩

theorem test_witness_FlagWriters :
    (∃ t, exec (.adc (.imm 0xFF)) State.reset = .next t) ∧ writesFlag .I (.adc (.imm 0xFF)) = false ∧
    writesFlag .B .plp = false := ⟨⟨_, rfl⟩, rfl, rfl⟩

theorem test_witness_SequentialFlow :
    Instr.wf (.lda (.abs 0x1234)) = true ∧ movesPc (.lda (.abs 0x1234)) = false := by decide

/-- BRK with I set, and an undecoded byte. -/
theorem test_witness_OnlyBreakAndUndecodedInstructionsEndRun :
    (∃ t, exec .brk State.reset = .next t ∧ t.run ≠ State.reset.run) ∧ Instr.wf .brk = true ∧
    (∃ t, exec (.undecoded 0x02) State.reset = .next t ∧ t.run ≠ State.reset.run) ∧ Instr.wf (.undecoded 0x02) = true :=
  ⟨⟨_, rfl, by decide⟩, rfl, ⟨_, rfl, by decide⟩, rfl⟩

theorem test_witness_CyclesAreTableAndPenalties :
    Instr.opcode (.lda (.absX 0x12F0)) = some 0xBD ∧ (0xBD : Byte) ∉ undecodedBytes ∧
    Instr.opcode (.beq 0x80) = some 0xF0 ∧ (0xF0 : Byte) ∉ undecodedBytes := by decide

theorem test_witness_OneTickOfTwoToEight :
    Instr.opcode .nop = some 0xEA ∧ (0xEA : Byte) ∉ undecodedBytes ∧ (∃ t, exec .nop State.reset = .next t) ∧
    Instr.opcode (.slo (.indY 0x10)) = some 0x13 ∧ (0x13 : Byte) ∉ undecodedBytes ∧
    ∃ t, exec (.slo (.indY 0x10)) State.reset = .next t :=
  ⟨rfl, by decide, ⟨_, rfl⟩, rfl, by decide, _, rfl⟩

end Sys2Proof.Tests
end

section
/-! PROOFS. The register part of the state, and the shape each instruction has: `exec` read as one of thirteen shapes whose
parameters see registers and operand bytes alone. -/

namespace Sys2Proof.Machine

/-! ### The registers an operation computes on -/

/-- A, X, Y, SP and P: what the operation of an instruction reads and writes beside its operand (10 R21 to R24, R26). -/
structure Regs where
  a : Byte
  x : Byte
  y : Byte
  sp : Byte
  p : Byte

/-- The registers of a state. -/
def State.regs (s : State) : Regs := ⟨s.a, s.x, s.y, s.sp, s.p⟩

/-- The state with these registers. -/
def State.withRegs (s : State) (r : Regs) : State := { s with a := r.a, x := r.x, y := r.y, sp := r.sp, p := r.p }

/-- P changed, the other registers kept. -/
def Regs.mapP (h : Byte → Byte) (r : Regs) : Regs := { r with p := h r.p }

/-- `loadA` on the registers. -/
def Regs.loadA (v : Byte) (r : Regs) : Regs := { r with a := v, p := setZN v r.p }

/-- `loadX` on the registers. -/
def Regs.loadX (v : Byte) (r : Regs) : Regs := { r with x := v, p := setZN v r.p }

/-- `loadY` on the registers. -/
def Regs.loadY (v : Byte) (r : Regs) : Regs := { r with y := v, p := setZN v r.p }

/-- `adcCore` on the registers. -/
def Regs.adc (m : Byte) (r : Regs) : Regs :=
  { r with a := adcResult r.a m (getFlag .C r.p), p := adcFlags r.a m r.p }

/-- `compareCore` on the registers. -/
def Regs.compare (reg m : Byte) (r : Regs) : Regs := r.mapP (compareFlags reg m)

/-- `alrOn` on the registers. -/
def Regs.alr (v : Byte) (r : Regs) : Regs :=
  { r with a := (lsrOp (r.a &&& v) r.p).1, p := setZN (lsrOp (r.a &&& v) r.p).1 (lsrOp (r.a &&& v) r.p).2 }

/-- `ancOn` on the registers. -/
def Regs.anc (v : Byte) (r : Regs) : Regs :=
  { r with a := r.a &&& v, p := setFlag .C ((r.a &&& v).getLsbD 7) (setZN (r.a &&& v) r.p) }

/-- `arrOn` on the registers. -/
def Regs.arr (v : Byte) (r : Regs) : Regs :=
  { r with a := arrResult r.a v r.p, p := arrFlags (arrResult r.a v r.p) r.p }

/-- `axsOn` on the registers. -/
def Regs.axs (v : Byte) (r : Regs) : Regs :=
  { r with
    x := (r.a &&& r.x) - v
    p := setZN ((r.a &&& r.x) - v) (setFlag .C (decide (v.toNat ≤ (r.a &&& r.x).toNat)) r.p) }

/-- A shift or rotate of the accumulator (42 R170). -/
def Regs.shiftA (f : ByteOp) (r : Regs) : Regs :=
  { r with a := (f r.a r.p).1, p := setZN (f r.a r.p).1 (f r.a r.p).2 }

/-! ### The shapes -/

/-- What an instruction is, up to its mode, length and cycles: the shapes of Machine/Shapes.lean with the operation as a
function of registers and operand byte, the one-byte stack operations, and the instructions of their own. -/
inductive Shape where
  /-- Read an operand, then change registers (41 R150). -/
  | read (g : Byte → Regs → Regs)
  /-- Store a byte (41 R155). -/
  | store (val : Regs → Resolved → Byte)
  /-- Replace a byte of memory by `f` of it, then change registers by the new byte (42 R170, 46 R260). -/
  | modify (f : ByteOp) (g : Byte → Regs → Regs)
  /-- Change registers (44). -/
  | register (g : Regs → Regs)
  /-- Jump to the resolved address (43 R191, R192). -/
  | jump
  /-- Branch on a condition of P (43 R197). -/
  | branch (cond : Byte → Bool) (d8 : Byte)
  /-- Push one byte (44 R220, R224). -/
  | push (val : Regs → Byte)
  /-- Pop one byte, then change registers by it (44 R222, R226). -/
  | pull (g : Byte → Regs → Regs)
  | brk
  | jsr (a16 : Addr)
  | rti
  | rts
  | undecoded (op : Byte)

/-- A shift or rotate at a mode: the Accumulator form works on registers, every other one on memory (42 R170). -/
def shiftAt (f : ByteOp) : AddrMode → Shape
  | .acc => .register (Regs.shiftA f)
  | .imm _ | .zp _ | .zpX _ | .zpY _ | .abs _ | .absX _ | .absY _ | .indX _ | .indY _ | .ind _ | .impl | .rel _ =>
    .modify f fun v r => r.mapP (setZN v)

/-- The shape of each instruction. -/
def shapeOf : Instr → Shape
  | .ora _ => .read fun v r => r.loadA (r.a ||| v)
  | .and _ => .read fun v r => r.loadA (r.a &&& v)
  | .eor _ => .read fun v r => r.loadA (r.a ^^^ v)
  | .adc _ => .read Regs.adc
  | .sta _ => .store fun r _ => r.a
  | .lda _ => .read Regs.loadA
  | .cmp _ => .read fun v r => r.compare r.a v
  | .sbc _ | .sbcEB _ => .read fun v r => r.adc (v ^^^ 0xFF)
  | .asl m => shiftAt aslOp m
  | .rol m => shiftAt rolOp m
  | .lsr m => shiftAt lsrOp m
  | .ror m => shiftAt rorOp m
  | .stx _ => .store fun r _ => r.x
  | .ldx _ => .read Regs.loadX
  | .dec _ => .modify decOp fun v r => r.mapP (setZN v)
  | .inc _ => .modify incOp fun v r => r.mapP (setZN v)
  | .bit _ => .read fun v r => r.mapP (bitFlags r.a v)
  | .jmpAbs _ | .jmpInd _ => .jump
  | .sty _ => .store fun r _ => r.y
  | .ldy _ => .read Regs.loadY
  | .cpy _ => .read fun v r => r.compare r.y v
  | .cpx _ => .read fun v r => r.compare r.x v
  | .bpl d => .branch (fun p => !getFlag .N p) d
  | .bmi d => .branch (fun p => getFlag .N p) d
  | .bvc d => .branch (fun p => !getFlag .V p) d
  | .bvs d => .branch (fun p => getFlag .V p) d
  | .bcc d => .branch (fun p => !getFlag .C p) d
  | .bcs d => .branch (fun p => getFlag .C p) d
  | .bne d => .branch (fun p => !getFlag .Z p) d
  | .beq d => .branch (fun p => getFlag .Z p) d
  | .php => .push fun r => pushedByBreak r.p
  | .pha => .push fun r => r.a
  | .plp => .pull fun v r => r.mapP (restoreFlags v)
  | .pla => .pull Regs.loadA
  | .clc => .register fun r => r.mapP (setFlag .C false)
  | .sec => .register fun r => r.mapP (setFlag .C true)
  | .cli => .register fun r => r.mapP (setFlag .I false)
  | .sei => .register fun r => r.mapP (setFlag .I true)
  | .clv => .register fun r => r.mapP (setFlag .V false)
  | .cld => .register fun r => r.mapP (setFlag .D false)
  | .sed => .register fun r => r.mapP (setFlag .D true)
  | .dey => .register fun r => r.loadY (r.y - 1)
  | .tya => .register fun r => r.loadA r.y
  | .tay => .register fun r => r.loadY r.a
  | .iny => .register fun r => r.loadY (r.y + 1)
  | .inx => .register fun r => r.loadX (r.x + 1)
  | .txa => .register fun r => r.loadA r.x
  | .txs => .register fun r => { r with sp := r.x }
  | .tax => .register fun r => r.loadX r.a
  | .tsx => .register fun r => r.loadX r.sp
  | .dex => .register fun r => r.loadX (r.x - 1)
  | .nop | .nopDA | .nopFA => .register id
  | .brk => .brk
  | .jsr w => .jsr w
  | .rti => .rti
  | .rts => .rts
  | .alr _ => .read Regs.alr
  | .anc0B _ | .anc2B _ => .read Regs.anc
  | .arr _ => .read Regs.arr
  | .axs _ => .read Regs.axs
  | .lax _ => .read fun v r => { r.loadA v with x := v }
  | .sax _ => .store fun r _ => r.a &&& r.x
  | .sha _ => .store fun r q => config.shaValue r.a r.x q.baseHi
  | .dcp _ => .modify decOp fun v r => r.compare r.a v
  | .isc _ => .modify incOp fun v r => r.adc (v ^^^ 0xFF)
  | .rla _ => .modify rolOp fun v r => r.loadA (r.a &&& v)
  | .rra _ => .modify rorOp Regs.adc
  | .slo _ => .modify aslOp fun v r => r.loadA (r.a ||| v)
  | .sre _ => .modify lsrOp fun v r => r.loadA (r.a ^^^ v)
  | .undecoded op => .undecoded op

/-- The meaning of a shape on a bus, for the instruction that has it. -/
def Shape.run (sh : Shape) (i : Instr) (s : State) (bus : Bus := config.bus) : Result :=
  match sh with
  | .read g => readShape i (fun v t => t.withRegs (g v t.regs)) s bus
  | .store val => storeShape i (val s.regs) s bus
  | .modify f g => modifyShape i f (fun v t => t.withRegs (g v t.regs)) s bus
  | .register g => registerShape i (fun t => t.withRegs (g t.regs)) s bus
  | .jump => jumpShape i s bus
  | .branch cond d8 => branchShape i (cond s.p) d8 s bus
  | .push val => .next (retire (Machine.push s (val s.regs) bus) i.length (baseCycles i) bus)
  | .pull g => .next (retire ((pop s bus).2.withRegs (g (pop s bus).1 (pop s bus).2.regs)) i.length (baseCycles i) bus)
  | .brk => execBrk s bus
  | .jsr w => execJsr w s bus
  | .rti => execRti s bus
  | .rts => execRts s bus
  | .undecoded op => execUndecoded op s

/-- On any bus an instruction is the run of its shape. -/
theorem execOn_eq_run (bus : Bus) (i : Instr) (s : State) : execOn bus i s = (shapeOf i).run i s bus := by
  cases i
  case asl m | rol m | lsr m | ror m => cases m <;> rfl
  all_goals rfl

theorem exec_eq_run (i : Instr) (s : State) : exec i s = (shapeOf i).run i s := by
  rw [← execOn_config, execOn_eq_run]

end Sys2Proof.Machine
end

section
/-! PROOFS. What an instruction does to the state on the configuration's bus, said once: `exec` is the fatal abort of 00_scope R12,
or an effect computed from registers and memory and then applied. -/

namespace Sys2Proof.Machine

/-- What a completed instruction leaves: registers, memory and PC, the accesses before its one tick, the tick's argument, and
whether the run halts after it (40 R105, 45 R250). -/
structure Effect where
  regs : Regs
  mem : Memory
  pc : Addr
  accesses : List BusEvent
  cycles : Nat
  halts : Bool

/-- The effect on a state: everything an effect does not name is as it was. -/
def Effect.apply (e : Effect) (s : State) : State :=
  { s.withRegs e.regs with
    mem := e.mem, pc := e.pc, ticks := s.ticks + e.cycles, events := s.events ++ e.accesses ++ [.tick e.cycles]
    run := if e.halts then .halted else s.run }

/-- The next state of an instruction: its effect, or the fatal abort. -/
def applyEffect (s : State) : Except FatalReason Effect → State
  | .ok e => e.apply s
  | .error r => raiseFatal s r

/-- The effect of an instruction that only goes on to the next one. -/
def proceed (i : Instr) (s : State) : Effect :=
  { regs := s.regs, mem := s.mem, pc := s.pc + BitVec.ofNat 16 i.length, accesses := [], cycles := baseCycles i, halts := false }

/-- An effect that needs the mode's address, or the fatal use of a mode that has none (40 R121). -/
def onAddress (i : Instr) (e : Effect) : Except FatalReason Effect :=
  if addressable i.mode then .ok e else .error .invalidAddressingModeUse

/-- Memory with a byte pushed at SP. -/
def pushedMem (s : State) (v : Byte) : Memory := s.mem.set (stackAddr s.sp).toNat v

/-- The read event of the byte at an address. -/
def readAt (s : State) (k : Addr) : BusEvent := .read k (byteAt s k)

/-- The effect of a shape: a function of the registers, PC and memory (`effect_congr`). -/
def Shape.effect (sh : Shape) (i : Instr) (s : State) : Except FatalReason Effect :=
  let q := effective i.mode s
  match sh with
  | .read g => onAddress i { proceed i s with
      regs := g (operandByte i.mode s) s.regs, accesses := operandReads i.mode s
      cycles := baseCycles i + q.crossed.toNat }
  | .store val => onAddress i { proceed i s with
      mem := s.mem.set q.ea.toNat (val s.regs q), accesses := pointerReads i.mode s ++ [.write q.ea (val s.regs q)] }
  | .modify f g =>
    let r := f (byteAt s q.ea) s.p
    onAddress i { proceed i s with
      regs := g r.1 { s.regs with p := r.2 }, mem := s.mem.set q.ea.toNat r.1
      accesses := pointerReads i.mode s ++ [readAt s q.ea, .write q.ea r.1] }
  | .register g => .ok { proceed i s with regs := g s.regs }
  | .jump => onAddress i { proceed i s with pc := q.ea, accesses := pointerReads i.mode s }
  | .branch cond d8 =>
    let next := s.pc + 2
    let target := branchTarget s.pc d8
    .ok { proceed i s with
      pc := if cond s.p then target else next
      cycles := baseCycles i + if cond s.p then takenPenalty next target else 0 }
  | .push val => .ok { proceed i s with
      regs := { s.regs with sp := s.sp - 1 }, mem := pushedMem s (val s.regs)
      accesses := [.write (stackAddr s.sp) (val s.regs)] }
  | .pull g => .ok { proceed i s with
      regs := g (byteAt s (stackAddr (s.sp + 1))) { s.regs with sp := s.sp + 1 }
      accesses := [readAt s (stackAddr (s.sp + 1))] }
  | .brk => .ok {
      regs := { s.regs with sp := s.sp - 1 - 1 - 1, p := setFlag .I true s.p }
      mem := (pushFrame .brk s).mem, pc := wordAt s 0xFFFE 0xFFFF
      accesses := frameWrites .brk s ++ wordReads s 0xFFFE 0xFFFF, cycles := 7, halts := getFlag .I s.p }
  | .jsr w => .ok {
      regs := { s.regs with sp := s.sp - 2 }, mem := (push16 s (s.pc + 2)).mem, pc := w
      accesses := [.write (stackAddr s.sp) (hiByte (s.pc + 2)), .write (stackAddr (s.sp - 1)) (loByte (s.pc + 2))]
      cycles := 6, halts := false }
  | .rti => .ok {
      regs := { s.regs with sp := s.sp + 3, p := restoreFlags (byteAt s (stackAddr (s.sp + 1))) s.p }
      mem := s.mem, pc := wordAt s (stackAddr (s.sp + 2)) (stackAddr (s.sp + 3))
      accesses := readAt s (stackAddr (s.sp + 1)) :: wordReads s (stackAddr (s.sp + 2)) (stackAddr (s.sp + 3))
      cycles := 6, halts := false }
  | .rts => .ok {
      regs := { s.regs with sp := s.sp + 2 }, mem := s.mem
      pc := wordAt s (stackAddr (s.sp + 1)) (stackAddr (s.sp + 2)) + 1
      accesses := wordReads s (stackAddr (s.sp + 1)) (stackAddr (s.sp + 2)), cycles := 6, halts := false }
  | .undecoded op => .error (.unimplementedOpcode op s.pc)

/-- The effect of an instruction. -/
def effect (i : Instr) (s : State) : Except FatalReason Effect := (shapeOf i).effect i s

theorem onAddress_of_addressable {i : Instr} (e : Effect) (h : addressable i.mode = true) : onAddress i e = .ok e := by
  simp [onAddress, h]

theorem onAddress_of_unaddressable {i : Instr} (e : Effect) (h : addressable i.mode = false) :
    onAddress i e = .error .invalidAddressingModeUse := by
  simp [onAddress, h]

/-- A jump at a mode that has no address is the fatal use as well. -/
theorem jumpShape_unaddressable (i : Instr) (s : State) (h : addressable i.mode = false) :
    jumpShape i s = .next (raiseFatal s .invalidAddressingModeUse) := by
  simp only [jumpShape, resolve_unaddressable i.mode s h]

/-- The run of a shape on the configuration's bus is its effect applied. -/
theorem run_eq_effect (sh : Shape) (i : Instr) (s : State) : sh.run i s = .next (applyEffect s (sh.effect i s)) := by
  cases sh with
  | read g =>
    cases h : addressable i.mode
    · simp only [Shape.run, Shape.effect, (shapes_unaddressable i s h).1, onAddress_of_unaddressable _ h, applyEffect]
    · simp only [Shape.run, Shape.effect, readShape_eq i _ s h, onAddress_of_addressable _ h]
      rfl
  | store val =>
    cases h : addressable i.mode
    · simp only [Shape.run, Shape.effect, (shapes_unaddressable i s h).2.1, onAddress_of_unaddressable _ h, applyEffect]
    · simp only [Shape.run, Shape.effect, storeShape_eq i _ s h, onAddress_of_addressable _ h, applyEffect, Effect.apply,
        ← List.append_assoc]
      rfl
  | modify f g =>
    cases h : addressable i.mode
    · simp only [Shape.run, Shape.effect, (shapes_unaddressable i s h).2.2, onAddress_of_unaddressable _ h, applyEffect]
    · simp only [Shape.run, Shape.effect, modifyShape_eq i _ _ s h, onAddress_of_addressable _ h, applyEffect]
      simp [retire, finishAt, tick_eq, memWrite_eq, Effect.apply, State.withRegs, State.regs, proceed, readAt]
  | register g =>
    simp only [Shape.effect, applyEffect, Effect.apply, proceed, List.append_nil]
    rfl
  | jump =>
    cases h : addressable i.mode
    · simp only [Shape.run, Shape.effect, jumpShape_unaddressable i s h, onAddress_of_unaddressable _ h, applyEffect]
    · simp only [Shape.run, Shape.effect, jumpShape_eq i s h, onAddress_of_addressable _ h]
      rfl
  | branch cond d8 =>
    cases h : cond s.p <;>
      simp only [Shape.run, branchShape, Shape.effect, h, applyEffect, Effect.apply, proceed, List.append_nil,
        Bool.false_eq_true, if_true, if_false] <;> rfl
  | push val => rfl
  | pull g => rfl
  | brk =>
    simp only [Shape.run, execBrk, takeException_brk_eq, pushFrame_eq, Shape.effect, applyEffect, Effect.apply,
      List.append_assoc]
    cases getFlag .I s.p <;> rfl
  | jsr w =>
    simp only [Shape.run, execJsr, push16_eq, Shape.effect]
    rfl
  | rti =>
    simp only [Shape.run, execRti, returnFromException_eq, Shape.effect, applyEffect, Effect.apply, List.append_assoc]
    rfl
  | rts =>
    simp only [Shape.run, execRts, pop16_eq, Shape.effect]
    rfl
  | undecoded op => rfl

/-- Every instruction answers a next state: its effect applied, or the fatal abort. -/
theorem exec_eq_effect (i : Instr) (s : State) : exec i s = .next (applyEffect s (effect i s)) := by
  rw [exec_eq_run, run_eq_effect, effect]

/-- What the next state of an instruction is. -/
theorem exec_next {i : Instr} {s t : State} (h : exec i s = .next t) : t = applyEffect s (effect i s) := by
  rw [exec_eq_effect] at h
  exact (Host.Outcome.next.inj h).symm

end Sys2Proof.Machine
end

section
/-! PROOFS. What instructions may change: registers and flags by the writer lists of 10_state (O55, O56), memory by writes alone; from
these the invariant of 10 R28 (O49, O50). And the layout of P (O18). -/

namespace Sys2Proof.Machine

/-! ### Registers and memory after an instruction -/

@[simp] theorem regs_apply (e : Effect) (s : State) : (e.apply s).regs = e.regs := rfl
@[simp] theorem mem_apply (e : Effect) (s : State) : (e.apply s).mem = e.mem := rfl

/-- The host's and the bus's inputs are not an instruction's to change (10 R36, 60 R305). -/
theorem exec_keeps_inputs {i : Instr} {s t : State} (h : exec i s = .next t) :
    t.haltIn = s.haltIn ∧ t.nmiPending = s.nmiPending := by
  rw [exec_next h]
  cases effect i s <;> exact ⟨rfl, rfl⟩

/-- Every change of the registers a shape can make is within a relation, whatever the bytes read and SP are. -/
def Shape.Within (K : Regs → Regs → Prop) : Shape → Prop
  | .read g => ∀ v r, K r (g v r)
  | .modify f g => ∀ v w r, K r (g w { r with p := (f v r.p).2 })
  | .register g => ∀ r, K r (g r)
  | .push _ | .jsr _ | .rts => ∀ sp r, K r { r with sp := sp }
  | .pull g => ∀ v sp r, K r (g v { r with sp := sp })
  | .brk => ∀ sp r, K r { r with sp := sp, p := setFlag .I true r.p }
  | .rti => ∀ v sp r, K r { r with sp := sp, p := restoreFlags v r.p }
  | .store _ | .jump | .branch _ _ | .undecoded _ => True

theorem onAddress_ok {i : Instr} {e e' : Effect} (h : onAddress i e = .ok e') : e' = e := by
  unfold onAddress at h
  split at h
  · exact (Except.ok.inj h).symm
  · cases h

/-- An effect's registers are within what the shape allows. -/
theorem effect_regs_within {K : Regs → Regs → Prop} (hK : ∀ r, K r r) {sh : Shape} (hw : sh.Within K) {i : Instr} {s : State}
    {e : Effect} (h : sh.effect i s = .ok e) : K s.regs e.regs := by
  cases sh with
  | read g => rw [onAddress_ok h]; exact hw _ _
  | store val => rw [onAddress_ok h]; exact hK _
  | modify f g => rw [onAddress_ok h]; exact hw _ _ _
  | register g => cases h; exact hw _
  | jump => rw [onAddress_ok h]; exact hK _
  | branch cond d8 => cases h; exact hK _
  | push val => cases h; exact hw _ _
  | pull g => cases h; exact hw _ _ _
  | brk => cases h; exact hw _ _
  | jsr w => cases h; exact hw _ _
  | rti => cases h; exact hw _ _ _
  | rts => cases h; exact hw _ _
  | undecoded op => cases h

/-- An instruction changes the registers within what its shape allows, or not at all. -/
theorem exec_regs_within {K : Regs → Regs → Prop} (hK : ∀ r, K r r) {i : Instr} (hw : (shapeOf i).Within K) {s t : State}
    (h : exec i s = .next t) : K s.regs t.regs := by
  rw [exec_next h]
  cases he : effect i s with
  | error r => exact hK _
  | ok e => exact effect_regs_within hK hw he

/-- An effect's memory is what writes make of the memory before. -/
theorem effect_memory {M : Memory → Prop} (hM : ∀ m (a : Addr) v, M m → M (m.set a.toNat v)) {sh : Shape} {i : Instr}
    {s : State} {e : Effect} (h : sh.effect i s = .ok e) (hs : M s.mem) : M e.mem := by
  cases sh with
  | read g => rw [onAddress_ok h]; exact hs
  | store val => rw [onAddress_ok h]; exact hM _ _ _ hs
  | modify f g => rw [onAddress_ok h]; exact hM _ _ _ hs
  | jump => rw [onAddress_ok h]; exact hs
  | push val => cases h; exact hM _ _ _ hs
  | brk => cases h; exact hM _ _ _ (hM _ _ _ (hM _ _ _ hs))
  | jsr w => cases h; exact hM _ _ _ (hM _ _ _ hs)
  | register g | branch cond d8 | pull g | rti | rts => cases h; exact hs
  | undecoded op => cases h

/-- What every write keeps of memory, an instruction keeps. -/
theorem exec_memory {M : Memory → Prop} (hM : ∀ m (a : Addr) v, M m → M (m.set a.toNat v)) {i : Instr} {s t : State}
    (h : exec i s = .next t) (hs : M s.mem) : M t.mem := by
  rw [exec_next h]
  cases he : effect i s with
  | error r => exact hs
  | ok e => exact effect_memory hM he hs

/-! ### The writers of A, X, Y and SP -/

/-- The registers an instruction is not listed as a writer of are as they were (10 R21 to R24). -/
def registersKept (i : Instr) (r r' : Regs) : Prop :=
  (writesA i = false → r'.a = r.a) ∧ (writesX i = false → r'.x = r.x) ∧ (writesY i = false → r'.y = r.y) ∧
  (writesSp i = false → r'.sp = r.sp)

theorem registersKept_refl (i : Instr) (r : Regs) : registersKept i r r :=
  ⟨fun _ => rfl, fun _ => rfl, fun _ => rfl, fun _ => rfl⟩

/-- Each operation changes, of A, X, Y and SP, those its instruction is listed for. -/
theorem shapeOf_registersKept (i : Instr) : (shapeOf i).Within (registersKept i) := by
  cases i
  case ora | and | eor | adc | sbc | sbcEB | lda | alr | anc0B | anc2B | arr =>
    exact fun _ _ => ⟨nofun, fun _ => rfl, fun _ => rfl, fun _ => rfl⟩
  case ldx | axs => exact fun _ _ => ⟨fun _ => rfl, nofun, fun _ => rfl, fun _ => rfl⟩
  case ldy => exact fun _ _ => ⟨fun _ => rfl, fun _ => rfl, nofun, fun _ => rfl⟩
  case lax => exact fun _ _ => ⟨nofun, nofun, fun _ => rfl, fun _ => rfl⟩
  case cmp | cpx | cpy | bit => exact fun _ _ => registersKept_refl _ _
  case isc | rla | rra | slo | sre => exact fun _ _ _ => ⟨nofun, fun _ => rfl, fun _ => rfl, fun _ => rfl⟩
  case inc | dec | dcp => exact fun _ _ _ => registersKept_refl _ _
  case asl m | rol m | lsr m | ror m =>
    cases m
    case acc => exact fun _ => ⟨nofun, fun _ => rfl, fun _ => rfl, fun _ => rfl⟩
    all_goals exact fun _ _ _ => registersKept_refl _ _
  case txa | tya => exact fun _ => ⟨nofun, fun _ => rfl, fun _ => rfl, fun _ => rfl⟩
  case tax | tsx | inx | dex => exact fun _ => ⟨fun _ => rfl, nofun, fun _ => rfl, fun _ => rfl⟩
  case tay | iny | dey => exact fun _ => ⟨fun _ => rfl, fun _ => rfl, nofun, fun _ => rfl⟩
  case txs => exact fun _ => ⟨fun _ => rfl, fun _ => rfl, fun _ => rfl, nofun⟩
  case clc | sec | cli | sei | clv | cld | sed | nop | nopDA | nopFA => exact fun _ => registersKept_refl _ _
  case pha | php | jsr | rts | brk => exact fun _ _ => ⟨fun _ => rfl, fun _ => rfl, fun _ => rfl, nofun⟩
  case plp | rti => exact fun _ _ _ => ⟨fun _ => rfl, fun _ => rfl, fun _ => rfl, nofun⟩
  case pla => exact fun _ _ _ => ⟨nofun, fun _ => rfl, fun _ => rfl, nofun⟩
  all_goals trivial

/-- Settles O55, from what each instruction's shape lets it change. -/
theorem registerWriters : Obligations.RegisterWriters := by
  unfold Obligations.RegisterWriters
  intro i s t h
  obtain ⟨ha, hx, hy, hsp⟩ := exec_regs_within (registersKept_refl i) (shapeOf_registersKept i) h
  exact ⟨ha, hx, hy, hsp, exec_keeps_inputs h⟩

/-! ### The writers of the flags -/

/-- The flags an instruction may write: 10 R27's table read by instruction. -/
def flagsWritten : Instr → List Flag
  | .adc _ | .sbc _ | .sbcEB _ | .isc _ | .rra _ | .arr _ => [.C, .V, .Z, .N]
  | .asl _ | .rol _ | .lsr _ | .ror _ | .cmp _ | .cpx _ | .cpy _ => [.C, .Z, .N]
  | .alr _ | .anc0B _ | .anc2B _ | .axs _ | .dcp _ | .rla _ | .slo _ | .sre _ => [.C, .Z, .N]
  | .ora _ | .and _ | .eor _ | .lda _ | .ldx _ | .ldy _ | .lax _ | .inc _ | .dec _ => [.Z, .N]
  | .inx | .iny | .dex | .dey | .tax | .tay | .txa | .tya | .tsx | .pla => [.Z, .N]
  | .bit _ => [.Z, .V, .N]
  | .clc | .sec => [.C]
  | .cli | .sei | .brk => [.I]
  | .cld | .sed => [.D]
  | .clv => [.V]
  | .plp | .rti => [.C, .Z, .I, .D, .U, .V, .N]
  | .sta _ | .stx _ | .sty _ | .sax _ | .sha _ | .jmpAbs _ | .jmpInd _ | .jsr _ | .rts | .php | .pha | .txs => []
  | .bpl _ | .bmi _ | .bvc _ | .bvs _ | .bcc _ | .bcs _ | .bne _ | .beq _ | .nop | .nopDA | .nopFA | .undecoded _ => []

theorem writesFlag_of_mem_flagsWritten (i : Instr) : ∀ f ∈ flagsWritten i, writesFlag f i = true := by
  cases i <;> simp [flagsWritten, writesFlag]

theorem flagsKept_refl (l : List Flag) (p : Byte) : flagsKept l p p := fun _ _ => rfl

/-- One change of P after another. -/
theorem flagsKept_trans {l l' : List Flag} {p q r : Byte} (h : flagsKept l p q) (h' : flagsKept l' q r) {m : List Flag}
    (hl : l ⊆ m) (hl' : l' ⊆ m) : flagsKept m p r :=
  fun f hf => (h' f fun hm => hf (hl' hm)).trans (h f fun hm => hf (hl hm))

theorem flagsKept_setFlag (f : Flag) (b : Bool) (p : Byte) : flagsKept [f] p (setFlag f b p) :=
  fun _ hg => getFlag_setFlag_other b p fun h => hg (h ▸ List.mem_singleton_self _)

theorem flagsKept_setZN (v p : Byte) : flagsKept [.Z, .N] p (setZN v p) := (loadFlags_setZN v p).2.2

theorem flagsKept_adcFlags (a m p : Byte) : flagsKept [.C, .V, .Z, .N] p (adcFlags a m p) :=
  (addedFlags_adcFlags a m p).2.2.2.2

theorem flagsKept_compareFlags (reg m p : Byte) : flagsKept [.C, .Z, .N] p (compareFlags reg m p) :=
  (comparedFlags_compareFlags reg m p).2.2.2

theorem flagsKept_bitFlags (a m p : Byte) : flagsKept [.Z, .V, .N] p (bitFlags a m p) := by
  intro f hf
  simp only [List.mem_cons, List.not_mem_nil, or_false, not_or] at hf
  simp [getFlag_bitFlags, hf]

/-- A carry, and then Z and N of a result. -/
theorem flagsKept_setZN_carry (v : Byte) (c : Bool) (p : Byte) : flagsKept [.C, .Z, .N] p (setZN v (setFlag .C c p)) :=
  flagsKept_trans (flagsKept_setFlag .C c p) (flagsKept_setZN v _) (by decide) (by decide)

/-- Z and N of a result, and then a carry. -/
theorem flagsKept_carry_setZN (c : Bool) (v p : Byte) : flagsKept [.C, .Z, .N] p (setFlag .C c (setZN v p)) :=
  flagsKept_trans (flagsKept_setZN v p) (flagsKept_setFlag .C c _) (by decide) (by decide)

theorem flagsKept_arrFlags (r p : Byte) : flagsKept [.C, .V, .Z, .N] p (arrFlags r p) :=
  flagsKept_trans (flagsKept_carry_setZN _ r p) (flagsKept_setFlag .V _ _) (by decide) (by decide)

/-- A carry, and then the addition that takes it in. -/
theorem flagsKept_adcFlags_carry (a m : Byte) (c : Bool) (p : Byte) :
    flagsKept [.C, .V, .Z, .N] p (adcFlags a m (setFlag .C c p)) :=
  flagsKept_trans (flagsKept_setFlag .C c p) (flagsKept_adcFlags a m _) (by decide) (by decide)

theorem flagsKept_restoreFlags (v p : Byte) : flagsKept [.C, .Z, .I, .D, .U, .V, .N] p (restoreFlags v p) := by
  intro f hf
  cases f
  case B => simp [getFlag_restoreFlags]
  all_goals exact absurd hf (by decide)

/-- Each operation changes, of the flags, those its instruction is listed for. -/
theorem shapeOf_flagsKept (i : Instr) : (shapeOf i).Within fun r r' => flagsKept (flagsWritten i) r.p r'.p := by
  cases i
  case ora | and | eor | lda | ldx | ldy | lax => exact fun _ _ => flagsKept_setZN _ _
  case adc | sbc | sbcEB => exact fun _ _ => flagsKept_adcFlags _ _ _
  case cmp | cpx | cpy => exact fun _ _ => flagsKept_compareFlags _ _ _
  case bit => exact fun _ _ => flagsKept_bitFlags _ _ _
  case alr | axs => exact fun _ _ => flagsKept_setZN_carry _ _ _
  case anc0B | anc2B => exact fun _ _ => flagsKept_carry_setZN _ _ _
  case arr => exact fun _ _ => flagsKept_arrFlags _ _
  case asl m | rol m | lsr m | ror m =>
    cases m
    case acc => exact fun _ => flagsKept_setZN_carry _ _ _
    all_goals exact fun _ _ _ => flagsKept_setZN_carry _ _ _
  case inc | dec => exact fun _ _ _ => flagsKept_setZN _ _
  case slo | rla | sre => exact fun _ _ _ => flagsKept_setZN_carry _ _ _
  case dcp => exact fun _ _ _ => flagsKept_compareFlags _ _ _
  case isc => exact fun _ _ _ => flagsKept_adcFlags _ _ _
  case rra => exact fun _ _ _ => flagsKept_adcFlags_carry _ _ _ _
  case inx | iny | dex | dey | tax | tay | txa | tya | tsx => exact fun _ => flagsKept_setZN _ _
  case clc | sec | cli | sei | clv | cld | sed => exact fun _ => flagsKept_setFlag _ _ _
  case txs | nop | nopDA | nopFA => exact fun _ => flagsKept_refl _ _
  case pla => exact fun _ _ _ => flagsKept_setZN _ _
  case plp | rti => exact fun _ _ _ => flagsKept_restoreFlags _ _
  case brk => exact fun _ _ => flagsKept_setFlag _ _ _
  case pha | php | jsr | rts => exact fun _ _ => flagsKept_refl _ _
  all_goals trivial

/-- Settles O56, from what each instruction's shape lets it change. -/
theorem flagWriters : Obligations.FlagWriters := by
  unfold Obligations.FlagWriters
  intro i s t f h hf
  refine exec_regs_within (K := fun r r' => flagsKept (flagsWritten i) r.p r'.p) (fun _ _ _ => rfl) (shapeOf_flagsKept i) h f ?_
  intro hmem
  exact Bool.false_ne_true (hf.symm.trans (writesFlag_of_mem_flagsWritten i f hmem))

/-! ### The layout of P -/

theorem exists_flagBit {k : Nat} (hk : k < 8) : ∃ f, flagBit f = k :=
  match k, hk with
  | 0, _ => ⟨.C, rfl⟩
  | 1, _ => ⟨.Z, rfl⟩
  | 2, _ => ⟨.I, rfl⟩
  | 3, _ => ⟨.D, rfl⟩
  | 4, _ => ⟨.B, rfl⟩
  | 5, _ => ⟨.U, rfl⟩
  | 6, _ => ⟨.V, rfl⟩
  | 7, _ => ⟨.N, rfl⟩

/-- Settles O18: the positions by their definition, the restore flag by flag. -/
theorem flagLayoutAndRestore : Obligations.FlagLayoutAndRestore := by
  unfold Obligations.FlagLayoutAndRestore
  refine ⟨fun p => ⟨rfl, rfl, rfl, rfl, rfl, rfl, rfl, rfl⟩, fun v p k hk => ?_⟩
  obtain ⟨f, rfl⟩ := exists_flagBit hk
  rw [← getFlag, getFlag_restoreFlags]
  cases f <;> rfl

/-! ### The invariant -/

/-- U and B after an instruction: only PLP and RTI write U, and they set it; nothing writes B (10 R27, R28). -/
theorem exec_keeps_U_and_B {i : Instr} {s t : State} (h : exec i s = .next t) (hU : getFlag .U s.p = true) :
    getFlag .U t.p = true ∧ getFlag .B t.p = getFlag .B s.p := by
  refine ⟨?_, flagWriters i s t .B h rfl⟩
  have kept : writesFlag .U i = false → getFlag .U t.p = true := fun hw => (flagWriters i s t .U h hw).trans hU
  cases i
  case plp | rti =>
    rw [exec_next h]
    exact (getFlag_restoreFlags .U _ _).trans (if_pos rfl)
  all_goals exact kept rfl

/-- An instruction keeps the invariant. -/
theorem exec_keeps_inv {i : Instr} {s t : State} (hs : State.Inv s) (h : exec i s = .next t) : State.Inv t := by
  obtain ⟨hm, hU, hB⟩ := hs
  obtain ⟨hU', hB'⟩ := exec_keeps_U_and_B h hU
  exact ⟨exec_memory (M := fun m => m.wf = true) (fun _ => Memory.wf_set_addr) h hm, hU', hB'.trans hB⟩

/-- NMI service keeps the invariant: it writes three bytes and I (60 R308). -/
theorem takeException_nmi_keeps_inv {s : State} (hs : State.Inv s) : State.Inv (takeException .nmi s) := by
  obtain ⟨hm, hU, hB⟩ := hs
  rw [takeException_nmi_eq, pushFrame_eq]
  refine ⟨?_, ?_, ?_⟩
  · exact Memory.wf_set_addr _ _ (Memory.wf_set_addr _ _ (Memory.wf_set_addr _ _ hm))
  · exact (getFlag_setFlag_other true s.p (by decide)).trans hU
  · exact (getFlag_setFlag_other true s.p (by decide)).trans hB

/-- The fetch leaves memory and P as they were. -/
theorem fetched_keeps_inv {s : State} (hs : State.Inv s) : State.Inv (fetched s).2 := by
  obtain ⟨l, hl⟩ := fetchInstr_frame { s with nmiPending := false, events := [.pollNmi false] }
  rw [fetched, hl]
  exact hs

/-- Settles O49, by the four ways a step answers a next state. -/
theorem stepKeepsInvariant : Obligations.StepKeepsInvariant := by
  unfold Obligations.StepKeepsInvariant
  intro s t hs h
  obtain ⟨-, ⟨-, rfl⟩ | ⟨-, -, rfl⟩ | ⟨-, -, hx⟩⟩ := step_cases h
  · exact hs
  · exact takeException_nmi_keeps_inv hs
  · exact exec_keeps_inv (fetched_keeps_inv hs) hx

/-- Settles O50: the reset value of P, and events that touch neither P nor memory. -/
theorem resetEstablishesInvariant : Obligations.ResetEstablishesInvariant := by
  unfold Obligations.ResetEstablishesInvariant
  have hp : getFlag .U config.pReset = true ∧ getFlag .B config.pReset = false := by decide
  exact ⟨⟨Memory.wf_nil, hp⟩, fun s hm => ⟨hm, hp⟩, fun s b hs => ⟨hs, hs⟩⟩

end Sys2Proof.Machine
end

section
/-! PROOFS. What instructions depend on: registers, PC and memory alone (O53), no D (O51), no I but at BRK and the pushers (O52); and on
any bus, the bus's answers alone (O53). -/

namespace Sys2Proof.Machine

/-! ### The rest of the state is not read -/

/-- The effect is computed from the registers, PC and memory. -/
theorem effect_congr {s s' : State} (h : sameRegistersAndMemory s s') (i : Instr) : effect i s' = effect i s := by
  obtain ⟨⟨mem, nmi, ticks, dev⟩, a, x, y, sp, pc, p, run, hi, ev⟩ := s
  obtain ⟨⟨mem', nmi', ticks', dev'⟩, a', x', y', sp', pc', p', run', hi', ev'⟩ := s'
  obtain ⟨rfl, rfl, rfl, rfl, rfl, rfl, rfl⟩ := h
  unfold effect
  cases shapeOf i <;> rfl

/-- An effect leaves the same registers and memory wherever it is applied, and adds the same cycles. -/
theorem applyEffect_alike {s s' : State} (h : sameRegistersAndMemory s s') (r : Except FatalReason Effect) :
    sameRegistersAndMemory (applyEffect s r) (applyEffect s' r) ∧
      (applyEffect s r).ticks - s.ticks = (applyEffect s' r).ticks - s'.ticks := by
  cases r with
  | error r => exact ⟨h, (Nat.sub_self _).trans (Nat.sub_self _).symm⟩
  | ok e => exact ⟨⟨rfl, rfl, rfl, rfl, rfl, rfl, rfl⟩, (Nat.add_sub_cancel_left ..).trans (Nat.add_sub_cancel_left ..).symm⟩

/-! ### A change of P that an instruction does not see -/

/-- A change of P. -/
def State.mapP (h : Byte → Byte) (s : State) : State := { s with p := h s.p }

/-- An effect with P changed. -/
def Effect.mapP (h : Byte → Byte) (e : Effect) : Effect := { e with regs := e.regs.mapP h }

/-- The operation of a shape neither sees a change of P nor undoes it. -/
def Shape.Commutes (h : Byte → Byte) : Shape → Prop
  | .read g | .pull g => ∀ v r, g v (r.mapP h) = (g v r).mapP h
  | .store val => ∀ r q, val (r.mapP h) q = val r q
  | .modify f g => (∀ v p, f v (h p) = ((f v p).1, h (f v p).2)) ∧ ∀ v r, g v (r.mapP h) = (g v r).mapP h
  | .register g => ∀ r, g (r.mapP h) = (g r).mapP h
  | .branch cond _ => ∀ p, cond (h p) = cond p
  | .push val => ∀ r, val (r.mapP h) = val r
  | .jump | .jsr _ | .rts | .undecoded _ => True
  | .brk | .rti => False

theorem onAddress_mapP (i : Instr) (h : Byte → Byte) (e : Effect) :
    (onAddress i e).map (Effect.mapP h) = onAddress i (e.mapP h) := by
  unfold onAddress
  split <;> rfl

section
variable (h : Byte → Byte) (s : State) (m : AddrMode)

@[simp] theorem regs_mapP : (s.mapP h).regs = s.regs.mapP h := rfl
@[simp] theorem p_mapP : (s.mapP h).p = h s.p := rfl
@[simp] theorem byteAt_mapP (k : Addr) : byteAt (s.mapP h) k = byteAt s k := rfl
@[simp] theorem effective_mapP : effective m (s.mapP h) = effective m s := rfl
@[simp] theorem pointerReads_mapP : pointerReads m (s.mapP h) = pointerReads m s := rfl
@[simp] theorem operandByte_mapP : operandByte m (s.mapP h) = operandByte m s := rfl
@[simp] theorem operandReads_mapP : operandReads m (s.mapP h) = operandReads m s := rfl
@[simp] theorem proceed_mapP (i : Instr) : proceed i (s.mapP h) = (proceed i s).mapP h := rfl
end

/-- The effect on a state with P changed is the effect with P changed. -/
theorem effect_mapP {h : Byte → Byte} {sh : Shape} (hc : sh.Commutes h) (i : Instr) (s : State) :
    sh.effect i (s.mapP h) = (sh.effect i s).map (Effect.mapP h) := by
  cases sh with
  | read g =>
    have e : g (operandByte i.mode s) (s.regs.mapP h) = (g (operandByte i.mode s) s.regs).mapP h := hc _ _
    simp only [Shape.effect, onAddress_mapP, effective_mapP, operandByte_mapP, operandReads_mapP, regs_mapP, e]
    rfl
  | store val =>
    have e : ∀ q, val (s.regs.mapP h) q = val s.regs q := hc _
    simp only [Shape.effect, onAddress_mapP, effective_mapP, pointerReads_mapP, regs_mapP, e]
    rfl
  | modify f g =>
    obtain ⟨hf, hg⟩ := hc
    have e : ∀ v q, g v { s.regs.mapP h with p := h q } = (g v { s.regs with p := q }).mapP h  := fun v q =>
      hg v { s.regs with p := q }
    simp only [Shape.effect, onAddress_mapP, effective_mapP, pointerReads_mapP, byteAt_mapP, regs_mapP, p_mapP, hf, e]
    rfl
  | register g =>
    have e : g (s.regs.mapP h) = (g s.regs).mapP h := hc _
    simp only [Shape.effect, regs_mapP, e]
    rfl
  | jump =>
    simp only [Shape.effect, onAddress_mapP, effective_mapP, pointerReads_mapP]
    rfl
  | branch cond d8 =>
    have e : cond (h s.p) = cond s.p := hc _
    simp only [Shape.effect, p_mapP, e]
    rfl
  | push val =>
    have e : val (s.regs.mapP h) = val s.regs := hc _
    simp only [Shape.effect, regs_mapP, e]
    rfl
  | pull g =>
    have e : ∀ v sp, g v { s.regs.mapP h with sp := sp } = (g v { s.regs with sp := sp }).mapP h := fun v sp =>
      hc v { s.regs with sp := sp }
    simp only [Shape.effect, byteAt_mapP, regs_mapP, e]
    rfl
  | jsr w => rfl
  | rts => rfl
  | undecoded op => rfl
  | brk | rti => exact hc.elim

/-- An instruction that neither sees nor undoes a change of P commutes with it. -/
theorem exec_mapP {h : Byte → Byte} {i : Instr} (hc : (shapeOf i).Commutes h) {s t : State} (hx : exec i s = .next t) :
    exec i (s.mapP h) = .next (t.mapP h) := by
  rw [exec_eq_effect, effect, effect_mapP hc, exec_next hx, effect]
  cases (shapeOf i).effect i s <;> rfl

/-! ### D and I are no operation's input -/

theorem setFlag_comm {f g : Flag} (h : f ≠ g) (b c : Bool) (p : Byte) :
    setFlag f b (setFlag g c p) = setFlag g c (setFlag f b p) := by
  refine byte_ext_of_flags fun k => ?_
  simp only [getFlag_setFlag]
  by_cases hf : k = f
  · simp [hf, h]
  · simp [hf]

/-- A change of P that the four result flags C, V, Z and N neither show nor carry over. -/
structure Unseen (h : Byte → Byte) : Prop where
  get : ∀ {g}, g ∈ [Flag.C, .V, .Z, .N] → ∀ p, getFlag g (h p) = getFlag g p
  set : ∀ {g}, g ∈ [Flag.C, .V, .Z, .N] → ∀ c p, setFlag g c (h p) = h (setFlag g c p)

theorem unseen_setFlag {f : Flag} (hf : f ∉ [Flag.C, .V, .Z, .N]) (b : Bool) : Unseen (setFlag f b) where
  get hg p := getFlag_setFlag_other b p (ne_of_mem_of_not_mem hg hf)
  set hg c p := setFlag_comm (ne_of_mem_of_not_mem hg hf) c b p

/-! Each flag computation, each register operation and each shift commutes with such a change; a theorem has the name of the
function it is about. -/

namespace Unseen

variable {h : Byte → Byte} (hu : Unseen h)
include hu

theorem setC (c : Bool) (p : Byte) : setFlag .C c (h p) = h (setFlag .C c p) := hu.set (by decide) c p
theorem getC (p : Byte) : getFlag .C (h p) = getFlag .C p := hu.get (by decide) p

theorem setZN (v p : Byte) : Machine.setZN v (h p) = h (Machine.setZN v p) := by
  simp only [Machine.setZN, hu.set (g := .Z) (by decide), hu.set (g := .N) (by decide)]

theorem adcFlags (a m p : Byte) : Machine.adcFlags a m (h p) = h (Machine.adcFlags a m p) := by
  simp only [Machine.adcFlags, hu.getC, hu.setC, hu.set (g := .V) (by decide), hu.setZN]

theorem compareFlags (reg m p : Byte) : Machine.compareFlags reg m (h p) = h (Machine.compareFlags reg m p) := by
  simp only [Machine.compareFlags, hu.setC, hu.set (g := .Z) (by decide), hu.set (g := .N) (by decide)]

theorem bitFlags (a m p : Byte) : Machine.bitFlags a m (h p) = h (Machine.bitFlags a m p) := by
  simp only [Machine.bitFlags, hu.set (g := .V) (by decide), hu.set (g := .Z) (by decide), hu.set (g := .N) (by decide)]

theorem loadA (v : Byte) (r : Regs) : (r.mapP h).loadA v = (r.loadA v).mapP h := by
  simp only [Regs.loadA, Regs.mapP, hu.setZN]

theorem loadX (v : Byte) (r : Regs) : (r.mapP h).loadX v = (r.loadX v).mapP h := by
  simp only [Regs.loadX, Regs.mapP, hu.setZN]

theorem loadY (v : Byte) (r : Regs) : (r.mapP h).loadY v = (r.loadY v).mapP h := by
  simp only [Regs.loadY, Regs.mapP, hu.setZN]

theorem adc (m : Byte) (r : Regs) : (r.mapP h).adc m = (r.adc m).mapP h := by
  simp only [Regs.adc, Regs.mapP, hu.getC, hu.adcFlags]

theorem compare (reg m : Byte) (r : Regs) : (r.mapP h).compare reg m = (r.compare reg m).mapP h := by
  simp only [Regs.compare, Regs.mapP, hu.compareFlags]

theorem alr (v : Byte) (r : Regs) : (r.mapP h).alr v = (r.alr v).mapP h := by
  simp only [Regs.alr, Regs.mapP, lsrOp, hu.setC, hu.setZN]

theorem anc (v : Byte) (r : Regs) : (r.mapP h).anc v = (r.anc v).mapP h := by
  simp only [Regs.anc, Regs.mapP, hu.setC, hu.setZN]

theorem arr (v : Byte) (r : Regs) : (r.mapP h).arr v = (r.arr v).mapP h := by
  simp only [Regs.arr, Regs.mapP, arrResult, arrFlags, hu.getC, hu.setC, hu.set (g := .V) (by decide), hu.setZN]

theorem axs (v : Byte) (r : Regs) : (r.mapP h).axs v = (r.axs v).mapP h := by
  simp only [Regs.axs, Regs.mapP, hu.setC, hu.setZN]
  rfl

theorem aslOp (v p : Byte) : Machine.aslOp v (h p) = ((Machine.aslOp v p).1, h (Machine.aslOp v p).2) := by
  simp only [Machine.aslOp, hu.setC]

theorem rolOp (v p : Byte) : Machine.rolOp v (h p) = ((Machine.rolOp v p).1, h (Machine.rolOp v p).2) := by
  simp only [Machine.rolOp, hu.getC, hu.setC]

theorem lsrOp (v p : Byte) : Machine.lsrOp v (h p) = ((Machine.lsrOp v p).1, h (Machine.lsrOp v p).2) := by
  simp only [Machine.lsrOp, hu.setC]

theorem rorOp (v p : Byte) : Machine.rorOp v (h p) = ((Machine.rorOp v p).1, h (Machine.rorOp v p).2) := by
  simp only [Machine.rorOp, hu.getC, hu.setC]

theorem mapP_setZN (v : Byte) (r : Regs) : (r.mapP h).mapP (Machine.setZN v) = (r.mapP (Machine.setZN v)).mapP h := by
  simp only [Regs.mapP, hu.setZN]

/-- A shift or rotate commutes in each of its forms. -/
theorem shiftAt {f : ByteOp} (hf : ∀ v p, f v (h p) = ((f v p).1, h (f v p).2)) (m : AddrMode) :
    (Machine.shiftAt f m).Commutes h := by
  cases m
  case acc =>
    intro r
    simp only [Regs.shiftA, Regs.mapP, hf, hu.setZN]
  all_goals exact ⟨hf, hu.mapP_setZN⟩

/-- One flag written: it commutes with a change of P that its write commutes with. -/
theorem writeFlag {g : Flag} (hg : g ∈ [Flag.C, .V, .Z, .N]) (c : Bool) (r : Regs) :
    (r.mapP h).mapP (setFlag g c) = (r.mapP (setFlag g c)).mapP h := by
  simp only [Regs.mapP, hu.set hg]

end Unseen

theorem mapP_setFlag_comm {f g : Flag} (h : f ≠ g) (b c : Bool) (r : Regs) :
    (r.mapP (setFlag f b)).mapP (setFlag g c) = (r.mapP (setFlag g c)).mapP (setFlag f b) := by
  simp only [Regs.mapP, setFlag_comm h]

/-- An instruction that does not read or write D, or I, commutes with writing it. -/
theorem shapeOf_commutes {f : Flag} (hf : f = .D ∨ f = .I) (b : Bool) {i : Instr} (ht : touchesFlag f i = false) :
    (shapeOf i).Commutes (setFlag f b) := by
  have hu : Unseen (setFlag f b) := unseen_setFlag (by rcases hf with rfl | rfl <;> decide) b
  cases i
  case ora | and | eor | lda => exact fun _ _ => hu.loadA _ _
  case ldx => exact fun _ _ => hu.loadX _ _
  case ldy => exact fun _ _ => hu.loadY _ _
  case lax => exact fun v r => congrArg (fun q : Regs => { q with x := v }) (hu.loadA v r)
  case adc | sbc | sbcEB => exact fun _ _ => hu.adc _ _
  case cmp | cpx | cpy => exact fun _ _ => hu.compare _ _ _
  case bit => exact fun v r => congrArg (fun p => { r with p := p }) (hu.bitFlags r.a v r.p)
  case alr => exact hu.alr
  case anc0B | anc2B => exact hu.anc
  case arr => exact hu.arr
  case axs => exact hu.axs
  case sta | stx | sty | sax | sha => exact fun _ _ => rfl
  case asl m => exact hu.shiftAt hu.aslOp m
  case rol m => exact hu.shiftAt hu.rolOp m
  case lsr m => exact hu.shiftAt hu.lsrOp m
  case ror m => exact hu.shiftAt hu.rorOp m
  case inc | dec => exact ⟨fun _ _ => rfl, hu.mapP_setZN⟩
  case dcp => exact ⟨fun _ _ => rfl, fun _ _ => hu.compare _ _ _⟩
  case isc => exact ⟨fun _ _ => rfl, fun _ _ => hu.adc _ _⟩
  case rla => exact ⟨hu.rolOp, fun _ _ => hu.loadA _ _⟩
  case rra => exact ⟨hu.rorOp, hu.adc⟩
  case slo => exact ⟨hu.aslOp, fun _ _ => hu.loadA _ _⟩
  case sre => exact ⟨hu.lsrOp, fun _ _ => hu.loadA _ _⟩
  case bpl | bvc | bcc | bne => exact fun p => congrArg (!·) (hu.get (by decide) p)
  case bmi | bvs | bcs | beq => exact hu.get (by decide)
  case clc | sec | clv => exact hu.writeFlag (by decide) _
  case cli | sei | cld | sed => exact mapP_setFlag_comm (by rintro rfl; cases ht) b _
  case inx | dex | tax | tsx => exact fun _ => hu.loadX _ _
  case iny | dey | tay => exact fun _ => hu.loadY _ _
  case txa | tya => exact fun _ => hu.loadA _ _
  case txs | nop | nopDA | nopFA | pha => exact fun _ => rfl
  case pla => exact hu.loadA
  case php | plp | rti | brk => rcases hf with rfl | rfl <;> cases ht
  all_goals trivial

/-- Settles O51, from what each operation computes. -/
theorem decimalModeIsInert : Obligations.DecimalModeIsInert := by
  unfold Obligations.DecimalModeIsInert
  exact fun i s t b ht h => exec_mapP (shapeOf_commutes (.inl rfl) b ht) h

/-! ### NMI service under either I -/

theorem setFlag_setFlag (f : Flag) (b c : Bool) (p : Byte) : setFlag f b (setFlag f c p) = setFlag f b p := by
  refine byte_ext_of_flags fun k => ?_
  simp only [getFlag_setFlag]
  split <;> rfl

/-- The state NMI service starts from: the poll has answered true and consumed the flag (60 R305). -/
def polled (s : State) : State := { s with nmiPending := false, events := [.pollNmi true] }

/-- A running core with the halt input low and an NMI pending services it, whatever P is (60 R308, R310). -/
theorem step_nmi {s : State} (hr : s.run = .running) (hh : s.haltIn = false) (hn : s.nmiPending = true) :
    step s = .next (takeException .nmi (polled s)) := by
  simp only [step, coreStep, hr, boundary, hh, pollNmi_eq, hn, polled]
  rfl

/-- I before NMI service is in the pushed flags and nowhere else. -/
theorem takeException_nmi_setI (s : State) (b : Bool) :
    let t := takeException .nmi s
    let u := takeException .nmi (s.mapP (setFlag .I b))
    u = { t with mem := u.mem, events := u.events } ∧ ∀ k, k ≠ stackAddr (s.sp - 2) → byteAt u k = byteAt t k := by
  simp only [takeException_nmi_eq]
  refine ⟨?_, fun k hk => ?_⟩
  · simp only [pushFrame_eq, State.mapP, setFlag_setFlag]
    rfl
  · have hk' : k ≠ stackAddr (s.sp - 1 - 1) := fun h => hk (h.trans (congrArg stackAddr (sp_sub_sub s.sp)))
    refine (byteAt_pushFrame .nmi (s.mapP (setFlag .I b)) k).trans (.trans ?_ (byteAt_pushFrame .nmi s k).symm)
    exact (if_neg hk').trans (if_neg hk').symm

/-- Settles O52: instructions from what each operation computes, NMI service from the frame it pushes. -/
theorem interruptDisableMasksNothing : Obligations.InterruptDisableMasksNothing := by
  unfold Obligations.InterruptDisableMasksNothing
  refine ⟨fun i s t b ht h => exec_mapP (shapeOf_commutes (.inr rfl) b ht) h, fun s b hr hh hn => ?_⟩
  have hu : step { s with p := setFlag .I b s.p } = .next (takeException .nmi ((polled s).mapP (setFlag .I b))) :=
    step_nmi (s := s.mapP (setFlag .I b)) hr hh hn
  obtain ⟨he, hm⟩ := takeException_nmi_setI (polled s) b
  refine ⟨_, _, step_nmi hr hh hn, hu, ?_, he, hm⟩
  rw [takeException_nmi_eq, pushFrame_eq]
  rfl

/-! ### On any bus, the bus's answers alone -/

section
variable {b1 b2 : Bus} {R : BusState → BusState → Prop}

/-- A shape on two buses that answer alike. -/
theorem run_alike (h : busesAlike b1 b2 R) {s t : State} (hs : Alike R s t) (sh : Shape) (i : Instr) :
    AlikeResults R (sh.run i s b1) (sh.run i t b2) := by
  have hr : t.regs = s.regs := by rw [hs.2]; rfl
  have hp : t.p = s.p := by rw [hs.2]; rfl
  have hpc : t.pc = s.pc := by rw [hs.2]; rfl
  cases sh with simp only [Shape.run, hr, hp]
  | read g => exact readShape_alike h hs i _ fun _ _ _ => rfl
  | store val => exact storeShape_alike h hs i _
  | modify f g => exact modifyShape_alike h hs i f _ fun _ _ _ => rfl
  | register g => exact registerShape_alike h hs i _ fun _ _ => rfl
  | jump => exact jumpShape_alike h hs i
  | branch cond d8 => exact branchShape_alike h hs i _ d8
  | push val => exact ⟨_, _, rfl, rfl, retire_alike h (push_alike h hs _) _ _⟩
  | pull g =>
    obtain ⟨hv, hu⟩ := pop_alike h hs
    rw [← hv]
    exact ⟨_, _, rfl, rfl, retire_alike h (hu.map (fun u => u.withRegs (g (pop s b1).1 u.regs)) fun _ _ => rfl) _ _⟩
  | brk =>
    have hx := takeException_alike h hs .brk
    simp only [execBrk, hp]
    split
    · exact ⟨_, _, rfl, rfl, hx.map (fun u => { u with run := .halted }) fun _ _ => rfl⟩
    · exact ⟨_, _, rfl, rfl, hx⟩
  | jsr w =>
    simp only [execJsr, hpc]
    exact ⟨_, _, rfl, rfl, finishAt_alike h (push16_alike h hs _) _ _⟩
  | rti => exact ⟨_, _, rfl, rfl, returnFromException_alike h hs⟩
  | rts =>
    obtain ⟨hw, hu⟩ := pop16_alike h hs
    simp only [execRts, ← hw]
    exact ⟨_, _, rfl, rfl, finishAt_alike h hu _ _⟩
  | undecoded op =>
    simp only [execUndecoded, hpc]
    exact ⟨_, _, rfl, rfl, raiseFatal_alike hs _⟩

theorem execOn_alike (h : busesAlike b1 b2 R) {s t : State} (hs : Alike R s t) (i : Instr) :
    AlikeResults R (execOn b1 i s) (execOn b2 i t) := by
  rw [execOn_eq_run, execOn_eq_run]
  exact run_alike h hs _ i

/-- What a running core does at the boundary on two buses that answer alike: halt, NMI service or one instruction. -/
theorem boundary_alike (h : busesAlike b1 b2 R) {s t : State} (hs : Alike R s t) :
    AlikeResults R (boundary s b1 (execOn b1)) (boundary t b2 (execOn b2)) := by
  have hh : t.haltIn = s.haltIn := by rw [hs.2]; rfl
  obtain ⟨hq, hu⟩ := pollNmi_alike h hs
  obtain ⟨hi, hf⟩ := fetchInstr_alike h hu
  simp only [boundary, hh, ← hq, ← hi]
  split
  · exact ⟨_, _, rfl, rfl, hs.map (fun u => { u with run := .halted, haltIn := s.haltIn }) fun _ _ => rfl⟩
  split
  · exact ⟨_, _, rfl, rfl, takeException_alike h hu .nmi⟩
  · exact execOn_alike h hf _

/-- A step on two buses that answer alike, of a core that is running. -/
theorem stepOn_alike (h : busesAlike b1 b2 R) {s t : State} (hs : Alike R s t) (hr : s.run = .running) :
    AlikeResults R (stepOn b1 s) (stepOn b2 t) := by
  have hr' : t.run = .running := by rw [hs.2]; exact hr
  simp only [stepOn, coreStep, hr, hr']
  exact boundary_alike h (hs.map (fun u => { u with run := .running, events := [] }) fun _ _ => rfl)
end

theorem running_of_stepOn {bus : Bus} {s t : State} (h : stepOn bus s = .next t) : s.run = .running := by
  unfold stepOn coreStep at h
  split at h
  · assumption
  · cases h
  · cases h

/-- Settles O53: on the configuration's bus by the effect of an instruction, on any bus access by access. -/
theorem effectsReadRegistersAndMemoryOnly : Obligations.EffectsReadRegistersAndMemoryOnly := by
  unfold Obligations.EffectsReadRegistersAndMemoryOnly
  refine ⟨fun i s s' t hs h => ?_, fun b1 b2 R hb s1 s2 t1 hc hR h => ?_⟩
  · rw [exec_next h]
    refine ⟨_, exec_eq_effect i s', ?_⟩
    rw [effect_congr hs]
    exact applyEffect_alike hs _
  · obtain ⟨u1, u2, h1, h2, ha⟩ := stepOn_alike hb ((alike_iff R s1 s2).mpr ⟨hc, hR⟩) (running_of_stepOn h)
    cases h.symm.trans h1
    exact ⟨u2, h2, (alike_iff R t1 u2).mp ha⟩

end Sys2Proof.Machine
end

section
/-! PROOFS. Memory: it is plain (O20), and an instruction changes no byte but those it stores to, read off what its shape stores
(O54). -/

namespace Sys2Proof.Machine

/-! ### Plain memory -/

/-- Settles O20, from what a read after a write answers and from the canonical form being ordered by address. -/
theorem memoryIsPlain : Obligations.MemoryIsPlain := by
  unfold Obligations.MemoryIsPlain
  exact ⟨storesByte_memWrite, fun _ => Memory.wf_set_addr, fun _ _ => Memory.ext_of_wfFrom⟩

/-! ### The addresses an instruction stores to -/

/-- The resolved address of a mode, where it has one. -/
def resolvedAddrs (m : AddrMode) (s : State) : List Addr :=
  if addressable m then [(effective m s).ea] else []

/-- The addresses a shape stores to: the resolved address, or the stack slots it pushes. -/
def Shape.storeAddrs (sh : Shape) (i : Instr) (s : State) : List Addr :=
  match sh with
  | .store _ | .modify _ _ => resolvedAddrs i.mode s
  | .push _ => [stackAddr s.sp]
  | .jsr _ => [stackAddr s.sp, stackAddr (s.sp - 1)]
  | .brk => [stackAddr s.sp, stackAddr (s.sp - 1), stackAddr (s.sp - 2)]
  | .read _ | .register _ | .jump | .branch _ _ | .pull _ | .rti | .rts | .undecoded _ => []

/-- A store stores where the resolver answers, mode by mode, and nowhere if it refuses (41 R155, 40 R121). -/
theorem storeAddrs_sta (m : AddrMode) (s : State) : storeAddrs (.sta m) s = resolvedAddrs m s := by
  cases m <;> rfl

/-- A shift or rotate stores at its resolved address, and in the Accumulator form nowhere. -/
theorem shiftAt_storeAddrs (f : ByteOp) {i : Instr} {m : AddrMode} (hm : i.mode = m) (s : State) :
    (shiftAt f m).storeAddrs i s = resolvedAddrs m s := by
  cases m
  case acc => rfl
  all_goals simp only [shiftAt, Shape.storeAddrs, hm]

/-- An instruction stores where its shape does. -/
theorem storeAddrs_eq_shape (i : Instr) (s : State) : storeAddrs i s = (shapeOf i).storeAddrs i s := by
  cases i
  case sta m | stx m | sty m | sax m | sha m => exact storeAddrs_sta m s
  case inc m | dec m | dcp m | isc m | rla m | rra m | slo m | sre m => exact storeAddrs_sta m s
  case asl m | rol m | lsr m | ror m => exact (storeAddrs_sta m s).trans (shiftAt_storeAddrs _ (by rfl) s).symm
  all_goals rfl

/-! ### The frame of memory -/

/-- Where an effect that needs an address comes about, the mode has one. -/
theorem resolvedAddrs_of_onAddress_ok {i : Instr} {e e' : Effect} (h : onAddress i e = .ok e') (s : State) :
    resolvedAddrs i.mode s = [(effective i.mode s).ea] := by
  unfold onAddress at h
  split at h
  · exact if_pos ‹_›
  · cases h

/-- A write leaves the byte at every other address as it was. -/
theorem get_set_of_not_mem (m : Memory) {a k : Addr} (v : Byte) (hk : k ∉ [a]) :
    (m.set a.toNat v).get k.toNat = m.get k.toNat :=
  Memory.get_set_other m v fun h => hk (List.mem_singleton.mpr (BitVec.eq_of_toNat_eq h))

/-- An effect's memory differs from the memory before only where the shape stores. -/
theorem effect_mem_frame {sh : Shape} {i : Instr} {s : State} {e : Effect} (h : sh.effect i s = .ok e) {k : Addr}
    (hk : k ∉ sh.storeAddrs i s) : e.mem.get k.toNat = s.mem.get k.toNat := by
  cases sh with
  | store val | modify f g =>
    rw [Shape.storeAddrs, resolvedAddrs_of_onAddress_ok h] at hk
    rw [onAddress_ok h]
    exact get_set_of_not_mem s.mem _ hk
  | push val => cases h; exact get_set_of_not_mem s.mem _ hk
  | jsr w =>
    cases h
    simp only [Shape.storeAddrs, List.mem_cons, List.not_mem_nil, or_false, not_or] at hk
    obtain ⟨hHi, hLo⟩ := hk
    exact (byteAt_push16 s _ k).trans ((if_neg hLo).trans (if_neg hHi))
  | brk =>
    cases h
    simp only [Shape.storeAddrs, List.mem_cons, List.not_mem_nil, or_false, not_or] at hk
    obtain ⟨hHi, hLo, hP⟩ := hk
    have hFlags : k ≠ stackAddr (s.sp - 1 - 1) := fun hk => hP (hk.trans (congrArg stackAddr (sp_sub_sub s.sp)))
    exact (byteAt_pushFrame .brk s k).trans ((if_neg hFlags).trans ((if_neg hLo).trans (if_neg hHi)))
  | read g | jump => rw [onAddress_ok h]; rfl
  | register g | branch cond d8 | pull g | rti | rts => cases h; rfl
  | undecoded op => cases h

/-- Settles O54: a completed instruction stores where its shape says, the fatal abort nowhere. -/
theorem memoryFrame : Obligations.MemoryFrame := by
  unfold Obligations.MemoryFrame
  intro i s t h k hk
  rw [storeAddrs_eq_shape] at hk
  rw [exec_next h]
  cases he : effect i s with
  | error r => rfl
  | ok e => exact effect_mem_frame he hk

end Sys2Proof.Machine
end

section
/-! PROOFS. The encoding (O1, O2, O3, O5): an opcode byte fixes an instruction up to its operand, and the operand bytes fix the
operand. -/

namespace Sys2Proof

open Sys2Proof.Machine (mkAddr opcodeLength_cases)

/-! ### Operands put in the place of others -/

/-- The same mode at another operand: `d8` or `a16`, whichever it has. -/
def AddrMode.withOperand (d : Byte) (w : Addr) : AddrMode → AddrMode
  | .imm _ => .imm d
  | .zp _ => .zp d
  | .zpX _ => .zpX d
  | .zpY _ => .zpY d
  | .abs _ => .abs w
  | .absX _ => .absX w
  | .absY _ => .absY w
  | .indX _ => .indX d
  | .indY _ => .indY d
  | .ind _ => .ind w
  | .acc => .acc
  | .impl => .impl
  | .rel _ => .rel d

/-- The same instruction at another operand. -/
def Instr.withOperand (d : Byte) (w : Addr) : Instr → Instr
  | .ora m => .ora (m.withOperand d w)
  | .and m => .and (m.withOperand d w)
  | .eor m => .eor (m.withOperand d w)
  | .adc m => .adc (m.withOperand d w)
  | .sta m => .sta (m.withOperand d w)
  | .lda m => .lda (m.withOperand d w)
  | .cmp m => .cmp (m.withOperand d w)
  | .sbc m => .sbc (m.withOperand d w)
  | .asl m => .asl (m.withOperand d w)
  | .rol m => .rol (m.withOperand d w)
  | .lsr m => .lsr (m.withOperand d w)
  | .ror m => .ror (m.withOperand d w)
  | .stx m => .stx (m.withOperand d w)
  | .ldx m => .ldx (m.withOperand d w)
  | .dec m => .dec (m.withOperand d w)
  | .inc m => .inc (m.withOperand d w)
  | .bit m => .bit (m.withOperand d w)
  | .jmpAbs _ => .jmpAbs w
  | .jmpInd _ => .jmpInd w
  | .sty m => .sty (m.withOperand d w)
  | .ldy m => .ldy (m.withOperand d w)
  | .cpy m => .cpy (m.withOperand d w)
  | .cpx m => .cpx (m.withOperand d w)
  | .bpl _ => .bpl d
  | .bmi _ => .bmi d
  | .bvc _ => .bvc d
  | .bvs _ => .bvs d
  | .bcc _ => .bcc d
  | .bcs _ => .bcs d
  | .bne _ => .bne d
  | .beq _ => .beq d
  | .jsr _ => .jsr w
  | .alr _ => .alr d
  | .anc0B _ => .anc0B d
  | .anc2B _ => .anc2B d
  | .arr _ => .arr d
  | .axs _ => .axs d
  | .lax m => .lax (m.withOperand d w)
  | .sax m => .sax (m.withOperand d w)
  | .sha m => .sha (m.withOperand d w)
  | .sbcEB _ => .sbcEB d
  | .dcp m => .dcp (m.withOperand d w)
  | .isc m => .isc (m.withOperand d w)
  | .rla m => .rla (m.withOperand d w)
  | .rra m => .rra (m.withOperand d w)
  | .slo m => .slo (m.withOperand d w)
  | .sre m => .sre (m.withOperand d w)
  | i => i

@[simp] theorem Instr.mode_withOperand (d : Byte) (w : Addr) (i : Instr) :
    (i.withOperand d w).mode = i.mode.withOperand d w := by
  cases i <;> rfl

@[simp] theorem AddrMode.length_withOperand (d : Byte) (w : Addr) (m : AddrMode) :
    (m.withOperand d w).length = m.length := by
  cases m <;> rfl

@[simp] theorem Instr.length_withOperand (d : Byte) (w : Addr) (i : Instr) :
    (i.withOperand d w).length = i.length := by
  rw [Instr.length, Instr.mode_withOperand, AddrMode.length_withOperand, ← Instr.length]

/-- Which encoding an instruction has, if any, does not depend on its operand (30 R80). -/
theorem Instr.encoding_withOperand (d : Byte) (w : Addr) (i : Instr) :
    (i.withOperand d w).wf = i.wf ∧ (i.withOperand d w).opcode = i.opcode := by
  cases i
  case ora m | and m | eor m | adc m | sta m | lda m | cmp m | sbc m | asl m | rol m | lsr m | ror m | stx m | ldx m | dec m |
      inc m | bit m | sty m | ldy m | cpy m | cpx m | lax m | sax m | sha m | dcp m | isc m | rla m | rra m | slo m | sre m =>
    cases m <;> exact ⟨rfl, rfl⟩
  all_goals exact ⟨rfl, rfl⟩

/-- An instruction is unchanged by the operand its mode already has. -/
theorem Instr.withOperand_eq_self {d : Byte} {w : Addr} {i : Instr} (h : i.mode.withOperand d w = i.mode) :
    i.withOperand d w = i := by
  cases i
  case ora m | and m | eor m | adc m | sta m | lda m | cmp m | sbc m | asl m | rol m | lsr m | ror m | stx m | ldx m | dec m |
      inc m | bit m | sty m | ldy m | cpy m | cpx m | lax m | sax m | sha m | dcp m | isc m | rla m | rra m | slo m | sre m =>
    exact congrArg _ h
  all_goals cases h; rfl

/-! ### Operand bytes -/

theorem AddrMode.length_operandBytes (m : AddrMode) : m.operandBytes.length = m.length - 1 := by
  cases m <;> rfl

/-- Operand bytes put into a mode are the ones its encoding shows, low byte first (20 R53). -/
theorem AddrMode.cons_operandBytes_withOperand (op b1 b2 : Byte) (m : AddrMode) :
    op :: (m.withOperand b1 (mkAddr b2 b1)).operandBytes = [op, b1, b2].take m.length := by
  cases m <;> simp [AddrMode.withOperand, AddrMode.operandBytes, AddrMode.length]

/-- A mode's operand is read back from its bytes, whatever follows them. -/
theorem AddrMode.withOperand_operandBytes (m : AddrMode) (rest : List Byte) :
    let bs := m.operandBytes ++ rest
    m.withOperand (bs.getD 0 0) (mkAddr (bs.getD 1 0) (bs.getD 0 0)) = m := by
  cases m <;> simp [AddrMode.withOperand, AddrMode.operandBytes]

/-! ### Opcodes -/

/-- No decode path, whatever the operand bytes are (30 R92). -/
theorem decodeOp_of_mem_undecodedBytes {op : Byte} (h : op ∈ undecodedBytes) (b1 b2 : Byte) :
    decodeOp op b1 b2 = .undecoded op := by
  fin_cases h <;> rfl

/-- The opcode of a well-formed instruction decodes to it, at the operand that follows (30 R84 to R92). -/
theorem Instr.exists_opcode_of_wf {i : Instr} (h : i.wf = true) :
    ∃ op, i.opcode = some op ∧ ∀ b1 b2, decodeOp op b1 b2 = i.withOperand b1 (mkAddr b2 b1) := by
  cases i
  case ora m | and m | eor m | adc m | lda m | cmp m | sbc m =>
    cases m <;> simp only [Instr.wf, AddrMode.inGroup1, Bool.false_eq_true] at h <;> exact ⟨_, rfl, fun _ _ => rfl⟩
  case sta m | asl m | rol m | lsr m | ror m | stx m | ldx m | dec m | inc m =>
    cases m <;>
      simp only [Instr.wf, AddrMode.inSta, AddrMode.inShift, AddrMode.inStx, AddrMode.inLdx, AddrMode.inIncDec,
        Bool.false_eq_true] at h <;>
      exact ⟨_, rfl, fun _ _ => rfl⟩
  case bit m | sty m | ldy m | cpy m | cpx m =>
    cases m <;>
      simp only [Instr.wf, AddrMode.inBit, AddrMode.inSty, AddrMode.inLdy, AddrMode.inCompareIndex, Bool.false_eq_true] at h <;>
      exact ⟨_, rfl, fun _ _ => rfl⟩
  case lax m | sax m | sha m | dcp m | isc m | rla m | rra m | slo m | sre m =>
    cases m <;>
      simp only [Instr.wf, AddrMode.inLax, AddrMode.inSax, AddrMode.inSha, AddrMode.inIllegalRmw, Bool.false_eq_true] at h <;>
      exact ⟨_, rfl, fun _ _ => rfl⟩
  case undecoded op =>
    exact ⟨op, if_pos h, decodeOp_of_mem_undecodedBytes (List.contains_iff_mem.mp h)⟩
  all_goals exact ⟨_, rfl, fun _ _ => rfl⟩

/-- Every byte is the opcode of the instruction it decodes to at operand 0 (30 R91, R92). -/
theorem decodeOp_zero : ∀ op : Byte, (decodeOp op 0 0).wf = true ∧ (decodeOp op 0 0).opcode = some op := by
  decide

/-- The opcode byte fixes the instruction up to its operand (30 R80, R82). -/
theorem decodeOp_eq_withOperand (op b1 b2 : Byte) :
    decodeOp op b1 b2 = (decodeOp op 0 0).withOperand b1 (mkAddr b2 b1) := by
  obtain ⟨hwf, hop⟩ := decodeOp_zero op
  obtain ⟨op', hop', hdec⟩ := Instr.exists_opcode_of_wf hwf
  cases hop.symm.trans hop'
  exact hdec b1 b2

/-- What any bytes decode to is well formed and has the first of them as its opcode (30 R82, R91). -/
theorem decodeOp_encoding (op b1 b2 : Byte) :
    (decodeOp op b1 b2).wf = true ∧ (decodeOp op b1 b2).opcode = some op := by
  rw [decodeOp_eq_withOperand, (Instr.encoding_withOperand _ _ _).1, (Instr.encoding_withOperand _ _ _).2]
  exact decodeOp_zero op

theorem length_decodeOp (op b1 b2 : Byte) : (decodeOp op b1 b2).length = opcodeLength op := by
  rw [decodeOp_eq_withOperand, Instr.length_withOperand, opcodeLength]

/-- Only the 43 bytes decode to `undecoded` (30 R92). -/
theorem mem_undecodedBytes_of_decodeOp {op b1 b2 o : Byte} (h : decodeOp op b1 b2 = .undecoded o) : op ∈ undecodedBytes := by
  obtain ⟨hwf, hop⟩ := decodeOp_encoding op b1 b2
  rw [h] at hwf hop
  have ho : o = op := Option.some.inj ((if_pos hwf).symm.trans hop)
  exact ho ▸ List.contains_iff_mem.mp hwf

/-- Where an opcode decodes to `i` up to the operand, `i`'s own operand bytes after it give `i`, whatever follows them. -/
theorem decodeOp_operandBytes {op : Byte} {i : Instr} (hdec : ∀ b1 b2, decodeOp op b1 b2 = i.withOperand b1 (mkAddr b2 b1))
    (rest : List Byte) :
    decodeOp op ((i.mode.operandBytes ++ rest).getD 0 0) ((i.mode.operandBytes ++ rest).getD 1 0) = i := by
  rw [hdec]
  exact Instr.withOperand_eq_self (i.mode.withOperand_operandBytes rest)

/-! ### The obligations -/

/-- Settles O1: the opcode gives the instruction back up to its operand, the operand bytes give the operand. -/
theorem decodeInvertsEncode : Obligations.DecodeInvertsEncode := by
  unfold Obligations.DecodeInvertsEncode
  intro i rest hwf
  obtain ⟨op, hop, hdec⟩ := Instr.exists_opcode_of_wf hwf
  have hlen : i.mode.operandBytes.length = opcodeLength op - 1 := by
    rw [AddrMode.length_operandBytes, ← length_decodeOp op 0 0, hdec, Instr.length_withOperand, ← Instr.length]
  have hshort : ¬ (i.mode.operandBytes ++ rest).length < opcodeLength op - 1 := by
    rw [List.length_append, hlen]; omega
  simp only [encode, hop, List.cons_append, decode, if_neg hshort, decodeOp_operandBytes hdec rest, List.drop_left' hlen]

/-- Settles O2: the bytes that decoding put into the operand are those the encoder shows. -/
theorem encodeInvertsDecode : Obligations.EncodeInvertsDecode := by
  unfold Obligations.EncodeInvertsDecode
  intro op b1 b2
  obtain ⟨hwf, hop⟩ := decodeOp_encoding op b1 b2
  refine ⟨hwf, ?_⟩
  simp only [encode, hop]
  rw [decodeOp_eq_withOperand, Instr.mode_withOperand, AddrMode.cons_operandBytes_withOperand]
  rfl

/-- Settles O3: operand bytes change the operand alone. -/
theorem opcodeByteDeterminesLength : Obligations.OpcodeByteDeterminesLength := by
  unfold Obligations.OpcodeByteDeterminesLength
  exact fun op b1 b2 => ⟨length_decodeOp op b1 b2, opcodeLength_cases op⟩

/-- Settles O5, by running the decoder on each word. -/
theorem decodeSanityWords : Obligations.DecodeSanityWords := by
  unfold Obligations.DecodeSanityWords
  decide

end Sys2Proof
end

section
/-! PROOFS. The undecoded bytes (O4): fetched alone, and fatal. -/

namespace Sys2Proof.Machine

/-- A running core with the halt input low and no NMI pending runs the instruction it fetches (40 R100, 60 R310). -/
theorem step_of_no_event {s : State} (hr : s.run = .running) (hh : s.haltIn = false) (hn : s.nmiPending = false) :
    step s = exec (fetched s).1 (fetched s).2 := by
  simp [step, coreStep, hr, boundary, hh, pollNmi_eq, hn, fetched]

/-- With no NMI pending the poll leaves its event and nothing else (40 R102). -/
theorem fetched_of_no_nmi {s : State} (hn : s.nmiPending = false) :
    fetched s = fetchInstr { s with events := [.pollNmi false] } := by
  rw [fetched, ← hn]

/-- Of an undecoded byte nothing but the byte itself is fetched (30 R92). -/
theorem fetchInstr_undecoded {s : State} (hop : byteAt s s.pc ∈ undecodedBytes) :
    fetchInstr s =
      (.undecoded (byteAt s s.pc), { s with events := s.events ++ [.read s.pc (byteAt s s.pc)] }) := by
  have hdec := decodeOp_of_mem_undecodedBytes hop 0 0
  have hlen : opcodeLength (byteAt s s.pc) = 1 := by rw [opcodeLength, hdec]; rfl
  simp only [fetchInstr, memRead_eq, hlen, hdec]

/-- Settles O4: the bytes from their decoding both ways, the step from the fetch of the one byte and the abort of 00_scope R12. -/
theorem undecodedBytesAreFatal : Obligations.UndecodedBytesAreFatal := by
  unfold Obligations.UndecodedBytesAreFatal
  refine ⟨by decide, by decide, fun op b1 b2 hop => decodeOp_of_mem_undecodedBytes hop b1 b2,
    fun op b1 b2 o hop hdec => hop (mem_undecodedBytes_of_decodeOp hdec), fun s op => rfl, fun s hr hh hn hop => ?_⟩
  refine ⟨_, ?_, rfl, rfl, rfl⟩
  rw [step_of_no_event hr hh hn, fetched_of_no_nmi hn, fetchInstr_undecoded (s := { s with events := [.pollNmi false] }) hop]
  rfl

end Sys2Proof.Machine
end

section
/-! PROOFS. The step (O6 to O8): what is fetched is what the bytes at PC decode to, and a step exists in RUNNING on every bus. -/

namespace Sys2Proof.Machine

/-! ### The fetch -/

/-- Bytes beyond the opcode's length change nothing: what decodes is fixed by the bytes of its encoding (30 R80, R93). -/
theorem decodeOp_congr {op b1 b2 b1' b2' : Byte}
    (h : [op, b1, b2].take (opcodeLength op) = [op, b1', b2'].take (opcodeLength op)) :
    decodeOp op b1 b2 = decodeOp op b1' b2' := by
  obtain ⟨hwf, henc⟩ := encodeInvertsDecode op b1 b2
  obtain ⟨hwf', henc'⟩ := encodeInvertsDecode op b1' b2'
  have hbytes : encode (decodeOp op b1 b2) = encode (decodeOp op b1' b2') := henc.trans (h.trans henc'.symm)
  have hdec := decodeInvertsEncode _ [] hwf
  rw [hbytes, decodeInvertsEncode _ [] hwf'] at hdec
  injection hdec with hpair
  exact (congrArg Prod.fst hpair).symm

/-- The instruction the bytes at PC decode to. -/
def instrAt (s : State) : Instr := decodeOp (byteAt s s.pc) (byteAt s (s.pc + 1)) (byteAt s (s.pc + 2))

/-- The reads of the three bytes at PC, opcode first. -/
def bytesAtPc (s : State) : List BusEvent :=
  [.read s.pc (byteAt s s.pc), .read (s.pc + 1) (byteAt s (s.pc + 1)), .read (s.pc + 2) (byteAt s (s.pc + 2))]

theorem length_instrAt (s : State) : (instrAt s).length = opcodeLength (byteAt s s.pc) := length_decodeOp _ _ _

/-- The fetch answers the instruction at PC and reads its bytes, as many as it is long (40 R103, R104). -/
theorem fetchInstr_eq (s : State) :
    fetchInstr s = (instrAt s, { s with events := s.events ++ (bytesAtPc s).take (instrAt s).length }) := by
  rw [length_instrAt, instrAt]
  rcases opcodeLength_cases (byteAt s s.pc) with h | h | h <;> simp only [fetchInstr, memRead_eq, h]
  · rw [decodeOp_congr (b1' := byteAt s (s.pc + 1)) (b2' := byteAt s (s.pc + 2)) (by rw [h]; rfl)]
    rfl
  · rw [decodeOp_congr (b1' := byteAt s (s.pc + 1)) (b2' := byteAt s (s.pc + 2)) (by rw [h]; rfl)]
    simp only [List.append_assoc]
    rfl
  · simp only [List.append_assoc]
    rfl

/-- A running core with no event runs the instruction at PC, on the state whose record holds the poll and the fetch. -/
theorem step_eq_exec {s : State} (hr : s.run = .running) (hh : s.haltIn = false) (hn : s.nmiPending = false) :
    step s = exec (instrAt s) { s with events := .pollNmi false :: (bytesAtPc s).take (instrAt s).length } := by
  rw [step_of_no_event hr hh hn, fetched_of_no_nmi hn, fetchInstr_eq]
  rfl

/-- Three bytes are enough for any instruction. -/
theorem decode_three (op b1 b2 : Byte) :
    decode [op, b1, b2] = .ok (decodeOp op b1 b2, [b1, b2].drop (opcodeLength op - 1)) := by
  have hlen : ¬ [b1, b2].length < opcodeLength op - 1 := by
    rcases opcodeLength_cases op with h | h | h <;> simp [h]
  rw [decode, if_neg hlen]
  rfl

/-- Settles O6: three bytes always decode, and the fetch reads those of the instruction they decode to. -/
theorem stepRunsDecodedInstruction : Obligations.StepRunsDecodedInstruction := by
  unfold Obligations.StepRunsDecodedInstruction
  intro s i rest hr hh hn hdec
  rw [decode_three] at hdec
  cases hdec
  exact ⟨(decodeOp_encoding _ _ _).1, step_eq_exec hr hh hn⟩

/-! ### When a step exists -/

/-- Settles O7: the halt input is looked at before the poll. -/
theorem haltInputStopsFirst : Obligations.HaltInputStopsFirst := by
  unfold Obligations.HaltInputStopsFirst
  intro s hr hh
  simp [step, coreStep, hr, boundary, hh]

/-- A shape answers a next state on every bus: the resolver's refusal is a next state as well (00 R12, 20 R51). -/
theorem exists_next_of_run (sh : Shape) (i : Instr) (s : State) (bus : Bus) : ∃ t, sh.run i s bus = .next t := by
  cases sh with simp only [Shape.run]
  | read g => unfold readShape; split <;> exact ⟨_, rfl⟩
  | store val => unfold storeShape; split <;> exact ⟨_, rfl⟩
  | modify f g => unfold modifyShape; split <;> exact ⟨_, rfl⟩
  | jump => unfold jumpShape; split <;> exact ⟨_, rfl⟩
  | branch cond d8 => unfold branchShape; cases cond s.p <;> exact ⟨_, rfl⟩
  | register g | push val | pull g | brk | jsr w | rti | rts | undecoded op => exact ⟨_, rfl⟩

/-- A running core has a step on every bus: it halts, services the NMI or runs an instruction (40 R100, 60 R310). -/
theorem exists_next_of_running (bus : Bus) {s : State} (hr : s.run = .running) : ∃ t, stepOn bus s = .next t := by
  simp only [stepOn, coreStep, hr, boundary, execOn_eq_run]
  split
  · exact ⟨_, rfl⟩
  split
  · exact ⟨_, rfl⟩
  · exact exists_next_of_run _ _ _ _

/-- The step is the step on the configuration's bus (20 R52). -/
theorem step_eq_stepOn (s : State) : step s = stepOn config.bus s := by
  rw [step, stepOn, funext fun i => funext (execOn_config i)]

/-- Settles O8: whatever a bus answers, no shape and no way through the boundary is without a next state. -/
theorem stepExistsExactlyWhenRunning : Obligations.StepExistsExactlyWhenRunning := by
  unfold Obligations.StepExistsExactlyWhenRunning
  refine ⟨step_eq_stepOn, fun bus s => ⟨⟨?_, exists_next_of_running bus⟩, fun h => ?_, fun r h => ?_, rfl⟩⟩
  · rintro ⟨t, h⟩
    exact running_of_stepOn h
  · simp only [stepOn, coreStep, h]
  · simp only [stepOn, coreStep, h]

end Sys2Proof.Machine
end

section
/-! PROOFS. What instructions share: SetZN (O17), the stack (O19), and the resolver's addresses (O21, O22), read as arithmetic. -/

namespace Sys2Proof.Machine

/-! ### Flags and stack -/

/-- Settles O17, flag by flag. -/
theorem setZNWritesZeroAndNegative : Obligations.SetZNWritesZeroAndNegative := by
  unfold Obligations.SetZNWritesZeroAndNegative
  exact loadFlags_setZN

/-- A pop gives back the byte of the push before it, and SP (40 R141, R142). -/
theorem pop_push (s : State) (v : Byte) : (pop (push s v)).1 = v ∧ (pop (push s v)).2.sp = s.sp := by
  have hsp : s.sp - 1 + 1 = s.sp := BitVec.sub_add_cancel _ _
  refine ⟨?_, hsp⟩
  rw [pop_value, push_sp, hsp, byteAt_push, if_pos rfl]

/-- A 16-bit pop gives back the word of the 16-bit push before it, and SP (40 R143, R144). -/
theorem pop16_push16 (s : State) (w : Addr) : (pop16 (push16 s w)).1 = w ∧ (pop16 (push16 s w)).2.sp = s.sp := by
  have hlo : s.sp - 2 + 1 = s.sp - 1 := by bv_omega
  have hhi : s.sp - 2 + 2 = s.sp := BitVec.sub_add_cancel _ _
  have hne : stackAddr s.sp ≠ stackAddr (s.sp - 1) := fun h => (sp_sub_ne s.sp).1 (stackAddr_inj.mp h)
  have hspw : (push16 s w).sp = s.sp - 2 := congrArg State.sp (push16_eq s w)
  simp only [pop16_eq, hspw, hlo, hhi, byteAt_push16, if_neg hne, if_true, mkAddr_hi_lo, and_self]

/-- Settles O19: the operations one by one, and a byte read after it was written. -/
theorem stackPushAndPop : Obligations.StackPushAndPop := by
  unfold Obligations.StackPushAndPop
  refine ⟨fun s v => ⟨storesByte_memWrite s _ v, ?_, rfl⟩, fun s => ⟨rfl, ?_, rfl⟩, fun _ _ => rfl, pop_push, pop16_push16⟩
  · rw [push_sp]
    bv_omega
  · rw [pop_sp]
    bv_omega

/-! ### Addresses as arithmetic -/

theorem zext16_toNat (v : Byte) : (zext16 v).toNat = v.toNat := by
  simp only [zext16, BitVec.toNat_setWidth]
  omega

theorem zext16_eq_mkAddr (v : Byte) : zext16 v = mkAddr 0 v := by
  apply BitVec.eq_of_toNat_eq
  rw [zext16_toNat, mkAddr_toNat]
  simp

/-- Two addresses are in the same page exactly when they have the same quotient by 256 (00_scope R10). -/
theorem hiByte_eq_iff (v w : Addr) : hiByte v = hiByte w ↔ v.toNat / 256 = w.toNat / 256 := by
  rw [← BitVec.toNat_inj, hiByte_toNat, hiByte_toNat]

/-- The sum of a base and an index modulo 65536 (40 R116, R117, R119). -/
theorem indexed_ea_toNat (base : Addr) (index : Byte) :
    (indexed base index).ea.toNat = (base.toNat + index.toNat) % 65536 := by
  rw [indexed, BitVec.toNat_add, zext16_toNat]

/-- An index addition crosses a page exactly when the quotient by 256 changes (40 R124). -/
theorem indexed_crossed_iff (base : Addr) (index : Byte) :
    (indexed base index).crossed = true ↔ (indexed base index).ea.toNat / 256 ≠ base.toNat / 256 :=
  bne_iff_ne.trans (not_congr (hiByte_eq_iff _ _))

/-- The address of a mode whose resolver reads no pointer. -/
theorem addresses_direct (m : AddrMode) (s : State) (h : addressable m = true) (hp : pointerReads m s = []) :
    Addresses m s (effective m s) s.events := by
  simpa only [hp, List.append_nil] using addresses_effective m s h

/-- Settles O21: the addresses by mode, their sums as arithmetic. -/
theorem directModeAddresses : Obligations.DirectModeAddresses := by
  unfold Obligations.DirectModeAddresses
  intro s d w
  refine ⟨⟨_, addresses_direct _ s rfl rfl, ?_, rfl⟩, ⟨_, addresses_direct _ s rfl rfl, ?_, rfl⟩,
    ⟨_, addresses_direct _ s rfl rfl, ?_, rfl⟩, ⟨_, addresses_direct _ s rfl rfl, ?_, rfl⟩,
    ⟨_, addresses_direct _ s rfl rfl, rfl, rfl⟩, ⟨_, addresses_direct _ s rfl rfl, ?_⟩,
    ⟨_, addresses_direct _ s rfl rfl, ?_⟩⟩
  · exact BitVec.toNat_add _ _
  · exact zext16_toNat d
  · exact (zext16_toNat _).trans (BitVec.toNat_add _ _)
  · exact (zext16_toNat _).trans (BitVec.toNat_add _ _)
  · exact ⟨indexed_ea_toNat w s.x, indexed_crossed_iff w s.x⟩
  · exact ⟨indexed_ea_toNat w s.y, indexed_crossed_iff w s.y⟩

/-- A word is its low byte and 256 times its high byte. -/
theorem wordAt_toNat (s : State) (aLo aHi : Addr) :
    (wordAt s aLo aHi).toNat = 256 * (byteAt s aHi).toNat + (byteAt s aLo).toNat := by
  rw [wordAt, mkAddr_toNat, Nat.mul_comm]

/-- The byte at an address in page 0. -/
theorem byteAt_zext16 (s : State) (z : Byte) : byteAt s (zext16 z) = s.mem.get z.toNat := by
  rw [byteAt, zext16_toNat]

/-- The pointer's second byte is found in page 0 as well (20 R55, decision D15). -/
theorem byteAt_zext16_succ (s : State) (z : Byte) : byteAt s (zext16 (z + 1)) = s.mem.get ((z.toNat + 1) % 256) :=
  byteAt_zext16 s (z + 1)

/-- The two reads of a pointer in page 0. -/
theorem wordReads_zext16 (s : State) (z : Byte) :
    wordReads s (zext16 z) (zext16 (z + 1)) =
      [.read (mkAddr 0 z) (byteAt s (zext16 z)), .read (mkAddr 0 (z + 1)) (byteAt s (zext16 (z + 1)))] := by
  rw [← zext16_eq_mkAddr, ← zext16_eq_mkAddr]
  rfl

/-- Settles O22: the pointer is the word in page 0, and Y the only index added to it. -/
theorem zeroPagePointerModes : Obligations.ZeroPagePointerModes := by
  unfold Obligations.ZeroPagePointerModes
  intro s d
  refine ⟨⟨effective (.indX d) s, d + s.x, _, _, BitVec.toNat_add _ _, byteAt_zext16 s _, byteAt_zext16_succ s _, ?_,
      wordAt_toNat s _ _, rfl⟩,
    ⟨effective (.indY d) s, _, _, byteAt_zext16 s d, byteAt_zext16_succ s d, ?_, ?_, ?_⟩⟩
  · rw [← wordReads_zext16]
    exact addresses_effective (.indX d) s rfl
  · rw [← wordReads_zext16]
    exact addresses_effective (.indY d) s rfl
  · rw [← wordAt_toNat]
    exact indexed_ea_toNat _ s.y
  · have hhi : (wordAt s (zext16 d) (zext16 (d + 1))).toNat / 256 = (byteAt s (zext16 (d + 1))).toNat := by
      rw [← hiByte_toNat, wordAt, hiByte_mkAddr]
    rw [← hhi]
    exact indexed_crossed_iff _ s.y

end Sys2Proof.Machine
end

section
/-! PROOFS. Control flow: the indirect jump (O23) and the conditional branches (O41). -/

namespace Sys2Proof.Machine

/-! ### The indirect jump -/

/-- Of the instructions some bytes encode, JMP (indirect) alone has the mode Indirect (40 R120). -/
theorem mode_eq_ind_iff {i : Instr} (hwf : i.wf = true) (p : Addr) : i.mode = .ind p ↔ i = .jmpInd p := by
  refine ⟨fun hm => ?_, fun hi => hi ▸ rfl⟩
  cases i
  case ora m | and m | eor m | adc m | sta m | lda m | cmp m | sbc m | asl m | rol m | lsr m | ror m | stx m | ldx m | dec m |
      inc m | bit m | sty m | ldy m | cpy m | cpx m | lax m | sax m | sha m | dcp m | isc m | rla m | rra m | slo m | sre m =>
    obtain rfl : m = .ind p := hm
    exact absurd hwf Bool.false_ne_true
  case jmpInd => exact congrArg _ (AddrMode.ind.inj hm)
  all_goals cases hm

/-- The next address in the page as a number: one more, or back to the page's first (40 R120). -/
theorem nextInPage_toNat (w : Addr) :
    (nextInPage w).toNat = if w.toNat % 256 = 255 then w.toNat - 255 else w.toNat + 1 := by
  rw [nextInPage, mkAddr_toNat, BitVec.toNat_add, hiByte_toNat, loByte_toNat]
  split <;> simp <;> omega

/-- The high byte alone is the page's first address. -/
theorem and_pageMask_toNat (w : Addr) : (w &&& (0xFF00 : Addr)).toNat = w.toNat - w.toNat % 256 := by
  have hmask : w &&& (0xFF00 : Addr) = w >>> 8 <<< 8 := (BitVec.shiftLeft_ushiftRight (x := w) (n := 8)).symm
  rw [hmask, BitVec.toNat_shiftLeft, BitVec.toNat_ushiftRight, Nat.shiftLeft_eq, Nat.shiftRight_eq_div_pow]
  omega

/-- The operand of an indirect jump is the word after its opcode, low byte first (30 R83). -/
theorem jmpInd_operand {op b1 b2 : Byte} {p : Addr} (h : decodeOp op b1 b2 = .jmpInd p) : p = mkAddr b2 b1 := by
  have hlen : opcodeLength op = 3 := by rw [← length_decodeOp op b1 b2, h]; rfl
  have henc : [0x6C, loByte p, hiByte p] = [op, b1, b2] := by
    have := (encodeInvertsDecode op b1 b2).2
    rwa [h, hlen] at this
  injection henc with _ hrest
  injection hrest with hlo hrest
  injection hrest with hhi
  rw [← hlo, ← hhi, mkAddr_hi_lo]

/-- Settles O23: the resolver's two pointer reads, and the step that makes them after its fetch. -/
theorem indirectPointerStaysInPage : Obligations.IndirectPointerStaysInPage := by
  unfold Obligations.IndirectPointerStaysInPage
  refine ⟨fun i p hwf => mode_eq_ind_iff hwf p, fun p => ?_, fun s p hr hh hn hdec => ?_⟩
  · have hnext : (mkAddr (hiByte p) (loByte p + 1)).toNat = _ := nextInPage_toNat p
    refine ⟨fun hp => ?_, fun hp => hnext.trans (if_neg hp), fun s => ?_⟩
    · rw [if_pos hp] at hnext
      exact ⟨hnext, BitVec.eq_of_toNat_eq (by rw [hnext, and_pageMask_toNat, hp])⟩
    · exact ⟨_, addresses_effective (.ind p) s rfl, wordAt_toNat s p _, rfl⟩
  · have hi : instrAt s = .jmpInd p := hdec
    have hstep := step_eq_exec hr hh hn
    rw [hi] at hstep
    exact ⟨jmpInd_operand hdec, _, _, hstep.trans (jumpShape_eq (.jmpInd p) _ rfl), rfl, rfl⟩

/-! ### The conditional branches -/

/-- The branch target as a number: `pc0 + 2` and the signed displacement, modulo 65536 (40 R123). -/
theorem branchTarget_toNat (pc : Addr) (d : Byte) :
    ((branchTarget pc d).toNat : Int) = ((pc.toNat : Int) + 2 + d.toInt) % 65536 := by
  have hd : sext16 d = BitVec.ofInt 16 d.toInt := rfl
  rw [branchTarget, hd]
  simp only [BitVec.toNat_add, BitVec.toNat_ofInt, BitVec.ofNat_eq_ofNat, BitVec.toNat_ofNat]
  omega

/-- A taken branch costs one cycle, and another one to leave the page (40 R134). -/
theorem takenPenalty_eq (next target : Addr) :
    takenPenalty next target = if hiByte target = hiByte next then 1 else 2 := by
  by_cases h : hiByte target = hiByte next
  · simp [takenPenalty, h]
  · rw [takenPenalty, bne_iff_ne.mpr h, if_neg h]
    rfl

/-- A branch of base count 2, taken or not, with the target's page told by the quotient by 256 (43 R197). -/
theorem branch_completes {i : Instr} {op : Byte} {c : Bool} {d : Byte} {s : State} (hop : i.opcode = some op)
    (hx : exec i s = branchShape i c d s) (hc : baseCycles i = 2) :
    i.opcode = some op ∧ exec i s = .next (
      if c = false then transferred s s.events (s.pc + 2) 2
      else if (branchTarget s.pc d).toNat / 256 = (s.pc + 2).toNat / 256 then
        transferred s s.events (branchTarget s.pc d) 3
      else transferred s s.events (branchTarget s.pc d) 4) := by
  refine ⟨hop, hx.trans ?_⟩
  rw [branchShape, hc, takenPenalty_eq]
  cases c
  · rfl
  · simp only [if_true, Bool.true_eq_false, if_false, ← hiByte_eq_iff]
    split <;> rfl

/-- Settles O41, one branch after another. -/
theorem conditionalBranches : Obligations.ConditionalBranches := by
  unfold Obligations.ConditionalBranches
  refine fun s d => ⟨branchTarget s.pc d, branchTarget_toNat s.pc d, fun iof h => ?_⟩
  fin_cases h <;> exact branch_completes rfl rfl rfl

end Sys2Proof.Machine
end

section
/-! PROOFS. Decoded instructions complete, so none asks for the Accumulator's address (O24), and they go on to the next one unless
they transfer control (O57). -/

namespace Sys2Proof.Machine

/-! ### Which instructions complete -/

/-- The shapes that ask the resolver for an address. -/
def Shape.asksAddress : Shape → Bool
  | .read _ | .store _ | .modify _ _ | .jump => true
  | .register _ | .branch _ _ | .push _ | .pull _ | .brk | .jsr _ | .rti | .rts | .undecoded _ => false

/-- An instruction that has an opcode asks for the address of a mode that has one (40 R121). -/
theorem addressable_of_opcode {i : Instr} {op : Byte} (hop : i.opcode = some op) (ha : (shapeOf i).asksAddress = true) :
    addressable i.mode = true := by
  cases i
  case ora m | and m | eor m | adc m | sta m | lda m | cmp m | sbc m | asl m | rol m | lsr m | ror m | stx m | ldx m | dec m |
      inc m | bit m | sty m | ldy m | cpy m | cpx m | lax m | sax m | sha m | dcp m | isc m | rla m | rra m | slo m | sre m =>
    cases m <;> cases hop <;> cases ha <;> rfl
  case jmpAbs | jmpInd | alr | anc0B | anc2B | arr | axs | sbcEB => rfl
  all_goals cases ha

/-- Only an undecoded byte has the shape of one. -/
theorem eq_undecoded_of_shapeOf {i : Instr} {op : Byte} (h : shapeOf i = .undecoded op) : i = .undecoded op := by
  cases i
  case asl m | rol m | lsr m | ror m => cases m <;> cases h
  case undecoded o => exact congrArg _ (Shape.undecoded.inj h)
  all_goals cases h

/-- An instruction that has an opcode and is no undecoded byte completes. -/
theorem exists_effect {i : Instr} {op : Byte} (hop : i.opcode = some op) (hu : ∀ o, i ≠ .undecoded o) (s : State) :
    ∃ e, effect i s = .ok e := by
  have ha := addressable_of_opcode hop
  unfold effect
  cases hsh : shapeOf i with
  | read | store | modify | jump =>
    rw [hsh] at ha
    exact ⟨_, onAddress_of_addressable _ (ha rfl)⟩
  | register | branch | push | pull | brk | jsr | rti | rts => exact ⟨_, rfl⟩
  | undecoded o => exact absurd (eq_undecoded_of_shapeOf hsh) (hu o)

/-- The opcode of an undecoded byte is the byte. -/
theorem ne_undecoded_of_opcode {i : Instr} {op : Byte} (hop : i.opcode = some op) (hd : op ∉ undecodedBytes) (o : Byte) :
    i ≠ .undecoded o := by
  rintro rfl
  simp only [Instr.opcode] at hop
  split at hop
  case isTrue ho =>
    cases hop
    exact hd (List.contains_iff_mem.mp ho)
  case isFalse => cases hop

theorem exec_of_effect {i : Instr} {s : State} {e : Effect} (h : effect i s = .ok e) : exec i s = .next (e.apply s) := by
  rw [exec_eq_effect, h]
  rfl

/-- The Accumulator is the mode of the shifts and rotates alone (40 R121). -/
theorem wf_and_mode_eq_acc_iff (i : Instr) :
    (i.wf = true ∧ i.mode = .acc) ↔ i ∈ [.asl .acc, .rol .acc, .lsr .acc, .ror .acc] := by
  constructor
  · rintro ⟨hwf, hm⟩
    cases i
    case asl m | rol m | lsr m | ror m =>
      obtain rfl : m = .acc := hm
      decide
    case ora m | and m | eor m | adc m | sta m | lda m | cmp m | sbc m | stx m | ldx m | dec m | inc m | bit m | sty m | ldy m |
        cpy m | cpx m | lax m | sax m | sha m | dcp m | isc m | rla m | rra m | slo m | sre m =>
      obtain rfl : m = .acc := hm
      exact absurd hwf Bool.false_ne_true
    all_goals cases hm
  · intro h
    fin_cases h <;> exact ⟨rfl, rfl⟩

/-- A well-formed instruction that starts on a running core does not end in the fatal use of a mode. -/
theorem run_ne_invalidAddressingModeUse {i : Instr} {s t : State} (hwf : i.wf = true) (hr : s.run = .running)
    (h : exec i s = .next t) : t.run ≠ .faulted .invalidAddressingModeUse := by
  rw [exec_next h]
  by_cases hu : ∃ o, i = .undecoded o
  · obtain ⟨o, rfl⟩ := hu
    nofun
  · obtain ⟨op, hop, -⟩ := Instr.exists_opcode_of_wf hwf
    obtain ⟨e, he⟩ := exists_effect hop (fun o ho => hu ⟨o, ho⟩) s
    rw [he]
    simp only [applyEffect, Effect.apply, hr]
    split <;> nofun

/-- Settles O24: the resolver's refusal, the Accumulator forms as register operations, and no other way to that fault. -/
theorem accumulatorHasNoAddress : Obligations.AccumulatorHasNoAddress := by
  unfold Obligations.AccumulatorHasNoAddress
  refine ⟨fun s => ⟨rfl, rfl⟩, wf_and_mode_eq_acc_iff, fun i hi s => ?_,
    fun i s t hwf hr => run_ne_invalidAddressingModeUse hwf hr⟩
  fin_cases hi <;> exact ⟨_, _, _, rfl⟩

/-! ### Where an instruction goes on -/

/-- The shapes that go on to the next instruction. -/
def Shape.proceeds : Shape → Bool
  | .read _ | .store _ | .modify _ _ | .register _ | .push _ | .pull _ => true
  | .jump | .branch _ _ | .brk | .jsr _ | .rti | .rts | .undecoded _ => false

theorem movesPc_eq (i : Instr) : movesPc i = !(shapeOf i).proceeds := by
  cases i
  case asl m | rol m | lsr m | ror m => cases m <;> rfl
  all_goals rfl

theorem effect_pc {sh : Shape} (hsh : sh.proceeds = true) {i : Instr} {s : State} {e : Effect} (h : sh.effect i s = .ok e) :
    e.pc = s.pc + BitVec.ofNat 16 i.length := by
  cases sh with
  | read | store | modify => rw [onAddress_ok h]; rfl
  | register | push | pull => cases h; rfl
  | jump | branch | brk | jsr | rti | rts | undecoded => cases hsh

/-- Settles O57: an instruction that transfers no control has a shape that goes on to the next one. -/
theorem sequentialFlow : Obligations.SequentialFlow := by
  unfold Obligations.SequentialFlow
  intro i s hwf hm
  obtain ⟨op, hop, -⟩ := Instr.exists_opcode_of_wf hwf
  obtain ⟨e, he⟩ := exists_effect hop (by rintro o rfl; cases hm) s
  refine ⟨_, exec_of_effect he, ?_⟩
  have hsh : (shapeOf i).proceeds = true := by rwa [movesPc_eq, Bool.not_eq_false'] at hm
  have hpc : (e.apply s).pc = s.pc + BitVec.ofNat 16 i.length := effect_pc hsh he
  rw [hpc, BitVec.toNat_add, BitVec.toNat_ofNat, Nat.add_mod_mod]

end Sys2Proof.Machine
end

section
/-! PROOFS. Decoded instructions tick once, last, what the table and the penalties say (O59, O60). -/

namespace Sys2Proof.Machine

/-! ### Cycles -/

/-- An opcode's cell of R349 is the base count of its class and mode (40 R131, R133, R135). -/
theorem cyc_eq_classCycles {i : Instr} {op : Byte} (hop : i.opcode = some op) (hu : ∀ o, i ≠ .undecoded o) :
    cyc op = classCycles i := by
  rw [← baseCycles_of_opcode hop]
  cases i
  case ora m | and m | eor m | adc m | sta m | lda m | cmp m | sbc m | asl m | rol m | lsr m | ror m | stx m | ldx m | dec m |
      inc m | bit m | sty m | ldy m | cpy m | cpx m | lax m | sax m | sha m | dcp m | isc m | rla m | rra m | slo m | sre m =>
    cases m <;> cases hop <;> rfl
  case undecoded o => exact absurd rfl (hu o)
  all_goals rfl

/-- Only a reading operation pays for a page cross, and it pays in each mode that can cross one (40 R132). -/
theorem pagePenalty_of_read {i : Instr} {op : Byte} (hop : i.opcode = some op) {g : Byte → Regs → Regs}
    (hsh : shapeOf i = .read g) (s : State) : pagePenalty i s = (effective i.mode s).crossed.toNat := by
  cases i
  case ora m | and m | eor m | adc m | lda m | cmp m | sbc m | ldx m | bit m | ldy m | cpy m | cpx m | lax m =>
    cases m <;> cases hop <;> rfl
  case asl m | rol m | lsr m | ror m => cases m <;> cases hsh
  case alr | anc0B | anc2B | arr | axs | sbcEB => rfl
  all_goals cases hsh

/-- A branch pays nothing, or what a taken branch costs above its base (40 R134). -/
theorem branchPenalty_of_branch {i : Instr} {s : State} {c : Bool} {d : Byte} (hc : branchCondition i s.p = some c)
    (hm : i.mode = .rel d) :
    branchPenalty i s = if c then takenPenalty (s.pc + 2) (branchTarget s.pc d) else 0 := by
  rw [branchPenalty, hc, hm]
  cases c
  · rfl
  · exact (takenPenalty_eq _ _).symm

/-- An effect's cycles are the base count and the two penalties (70 R348). -/
theorem effect_cycles {i : Instr} {op : Byte} (hop : i.opcode = some op) {s : State} {e : Effect} (h : effect i s = .ok e) :
    e.cycles = baseCycles i + pagePenalty i s + branchPenalty i s := by
  cases i
  case ora | and | eor | adc | lda | cmp | sbc | ldx | bit | ldy | cpy | cpx | lax =>
    rw [onAddress_ok h, pagePenalty_of_read hop rfl]
    rfl
  case sta | stx | sty | sax | sha | inc | dec | dcp | isc | rla | rra | slo | sre =>
    rw [onAddress_ok h]
    rfl
  case asl m | rol m | lsr m | ror m =>
    cases m <;> cases hop <;> cases h <;> rfl
  case undecoded => cases h
  case bpl | bmi | bvc | bvs | bcc | bcs | bne | beq =>
    cases h
    rw [branchPenalty_of_branch rfl rfl]
    rfl
  all_goals cases h; rfl

/-- Settles O59: the table by class and mode, the ticks by the effect. -/
theorem cyclesAreTableAndPenalties : Obligations.CyclesAreTableAndPenalties := by
  unfold Obligations.CyclesAreTableAndPenalties
  intro i op hop hd
  have hu := ne_undecoded_of_opcode hop hd
  refine ⟨cyc_eq_classCycles hop hu, fun s => ?_⟩
  obtain ⟨e, he⟩ := exists_effect hop hu s
  refine ⟨_, exec_of_effect he, ?_⟩
  have hticks : (e.apply s).ticks = s.ticks + e.cycles := rfl
  rw [hticks, effect_cycles hop he, baseCycles_of_opcode hop]
  omega

/-! ### The one tick -/

/-- No event of a record is a tick. -/
def tickless (l : List BusEvent) : Prop := ∀ e ∈ l, ∀ n, e ≠ .tick n

theorem tickless_pointerReads (m : AddrMode) (s : State) : tickless (pointerReads m s) := by
  cases m <;> simp [tickless, pointerReads, wordReads]

theorem tickless_append {l l' : List BusEvent} (h : tickless l) (h' : tickless l') : tickless (l ++ l') :=
  List.forall_mem_append.mpr ⟨h, h'⟩

theorem tickless_operandReads (m : AddrMode) (s : State) : tickless (operandReads m s) := by
  cases m
  case imm => exact List.forall_mem_nil _
  all_goals exact tickless_append (tickless_pointerReads _ s) (by simp [tickless])

/-- The accesses of an effect are reads and writes (40 R130). -/
theorem effect_accesses {sh : Shape} {i : Instr} {s : State} {e : Effect} (h : sh.effect i s = .ok e) :
    tickless e.accesses := by
  cases sh with
  | read => rw [onAddress_ok h]; exact tickless_operandReads _ _
  | store | modify =>
    rw [onAddress_ok h]
    exact tickless_append (tickless_pointerReads _ _) (by simp [tickless, readAt])
  | jump => rw [onAddress_ok h]; exact tickless_pointerReads _ _
  | register | branch | push | pull | brk | jsr | rti | rts =>
    cases h
    simp [tickless, proceed, readAt, wordReads, frameWrites]
  | undecoded => cases h

/-- Every cell of R349 but those of the undecoded bytes is between 2 and 8. -/
theorem cyc_bounds : ∀ op : Byte, op ∉ undecodedBytes → 2 ≤ cyc op ∧ cyc op ≤ 8 := by
  decide

theorem pagePenalty_le_one (i : Instr) (s : State) : pagePenalty i s ≤ 1 := by
  unfold pagePenalty
  split
  · split
    · exact Bool.toNat_le _
    · exact Nat.zero_le 1
  · exact Nat.zero_le 1

theorem branchPenalty_le_two (i : Instr) (s : State) : branchPenalty i s ≤ 2 := by
  unfold branchPenalty
  split
  · split <;> decide
  · exact Nat.zero_le 2

theorem readClassCycles_le (m : AddrMode) : readClassCycles m ≤ 6 := by
  cases m <;> simp [readClassCycles]

/-- What may pay for a page cross has a base count of at most 6, what may branch one of 2; the others pay no penalty. -/
theorem penalized_cycles_le {i : Instr} (hc : classCycles i ≤ 8) (s : State) :
    classCycles i + pagePenalty i s + branchPenalty i s ≤ 8 := by
  have hp := pagePenalty_le_one i s
  have hb := branchPenalty_le_two i s
  cases i
  case ora m | and m | eor m | adc m | lda m | cmp m | sbc m | ldx m | ldy m | lax m =>
    have hread := readClassCycles_le m
    change readClassCycles m + pagePenalty _ s + 0 ≤ 8
    omega
  case bpl | bmi | bvc | bvs | bcc | bcs | bne | beq =>
    change 2 + 0 + branchPenalty _ s ≤ 8
    omega
  all_goals exact hc

/-- Settles O60: the accesses are no ticks, and the cycles are within the table's bounds with the penalties. -/
theorem oneTickOfTwoToEight : Obligations.OneTickOfTwoToEight := by
  unfold Obligations.OneTickOfTwoToEight
  intro i s t op hop hd h
  have hu := ne_undecoded_of_opcode hop hd
  obtain ⟨e, he⟩ := exists_effect hop hu s
  cases h.symm.trans (exec_of_effect he)
  have hn := effect_cycles hop he
  obtain ⟨hmin, hmax⟩ := cyc_bounds op hd
  rw [cyc_eq_classCycles hop hu] at hmin hmax
  rw [baseCycles_of_opcode hop, cyc_eq_classCycles hop hu] at hn
  have htotal := penalized_cycles_le hmax s
  exact ⟨e.accesses, e.cycles, rfl, effect_accesses he, rfl, by omega, by omega⟩

end Sys2Proof.Machine
end

section
/-! PROOFS. The reading and storing cells of the opcode map: an instruction's cell gives its opcode and cycles, its shape gives its
effect. -/

namespace Sys2Proof.Machine

/-! ### The cell of an instruction -/

/-- The cell of the opcode map an instruction is in, by the encoder, R349's table and the `+p` marks of 40 R132. -/
def cellOf (i : Instr) : Option Form := i.opcode.map fun op => ⟨i.mode, op, cyc op, paysPageCross i⟩

theorem cellOf_eq_some {i : Instr} {f : Form} (h : cellOf i = some f) :
    i.opcode = some f.opcode ∧ f = ⟨i.mode, f.opcode, cyc f.opcode, paysPageCross i⟩ := by
  obtain ⟨op, hop, rfl⟩ := Option.map_eq_some_iff.mp h
  exact ⟨hop, rfl⟩

/-- A reading operation in a cell not marked `+p` is in a mode that crosses no page (40 R132). -/
theorem toNat_pays_and_crossed {i : Instr} {op : Byte} (hop : i.opcode = some op) {g : Byte → Regs → Regs}
    (hsh : shapeOf i = .read g) (s : State) :
    (paysPageCross i && (effective i.mode s).crossed).toNat = (effective i.mode s).crossed.toNat := by
  have ha : addressable i.mode = true := addressable_of_opcode hop (by rw [hsh]; rfl)
  rw [← pagePenalty_of_read hop hsh, pagePenalty, resolve_eq i.mode s ha]
  cases paysPageCross i <;> rfl

/-- An instruction of the read shape completes at its cell with the registers its operation gives (41 R150). -/
theorem completesReading_of_cell {i : Instr} {f : Form} {g : Byte → Regs → Regs} {s : State} {effect : Byte → State → Prop}
    (hsh : shapeOf i = .read g) (hcell : cellOf i = some f) (heff : ∀ v, effect v (s.withRegs (g v s.regs))) :
    CompletesReading i f s effect := by
  obtain ⟨hop, hf⟩ := cellOf_eq_some hcell
  rw [hf]
  refine completesReading (fun v t => t.withRegs (g v t.regs)) hop ?_ rfl ?_ ?_ (fun _ _ => rfl) (heff _)
  · rw [exec_eq_run, hsh]
    rfl
  · exact addressable_of_opcode hop (by rw [hsh]; rfl)
  · rw [toNat_pays_and_crossed hop hsh]

/-- An instruction of the store shape completes at its cell, storing the byte its operation gives (41 R155). -/
theorem completesStoring_of_cell {i : Instr} {f : Form} {val : Regs → Resolved → Byte} {s : State}
    (hsh : shapeOf i = .store val) (hcell : cellOf i = some f) : CompletesStoring i f s (val s.regs) := by
  obtain ⟨hop, hf⟩ := cellOf_eq_some hcell
  rw [hf]
  refine completesStoring hop ?_ rfl ?_ rfl
  · rw [exec_eq_run, hsh]
    rfl
  · exact addressable_of_opcode hop (by rw [hsh]; rfl)

/-- A reading instruction at Immediate reads nothing more than its own bytes (40 R111). -/
theorem exec_imm_of_read {i : Instr} {g : Byte → Regs → Regs} {d : Byte} (hsh : shapeOf i = .read g) (hm : i.mode = .imm d)
    (s : State) : exec i s = .next (retire (s.withRegs (g d s.regs)) 2 (baseCycles i)) := by
  rw [exec_eq_run, hsh]
  simp only [Shape.run, readShape, Instr.length, hm]
  rfl

/-! An operation at several cells: the list of the cells is compared with the tables in one equation. -/

section
variable {op : AddrMode → Instr} {forms : List Form} {s : State}

theorem completesReading_of_cells {g : Byte → Regs → Regs} {effect : Byte → State → Prop}
    (hsh : ∀ m, shapeOf (op m) = .read g) (hcells : forms.map (fun f => cellOf (op f.mode)) = forms.map some)
    (heff : ∀ v, effect v (s.withRegs (g v s.regs))) : ∀ f ∈ forms, CompletesReading (op f.mode) f s effect :=
  fun f hf => completesReading_of_cell (hsh f.mode) (List.map_inj_left.mp hcells f hf) heff

theorem completesStoring_of_cells (val : Regs → Resolved → Byte) (hsh : ∀ m, shapeOf (op m) = .store val)
    (hcells : forms.map (fun f => cellOf (op f.mode)) = forms.map some) :
    ∀ f ∈ forms, CompletesStoring (op f.mode) f s (val s.regs) :=
  fun f hf => completesStoring_of_cell (hsh f.mode) (List.map_inj_left.mp hcells f hf)
end

end Sys2Proof.Machine
end

section
/-! PROOFS. Logic, loads, compares, stores, and the addition and subtraction with carry (O25 to O30, O32). -/

namespace Sys2Proof.Machine

/-! ### Logic, loads, compares and stores -/

/-- Settles O25: each cell against the tables, Z and N as `SetZN` leaves them. -/
theorem logicInstructions : Obligations.LogicInstructions := by
  unfold Obligations.LogicInstructions
  refine fun s d w => ⟨?_, ?_, ?_⟩ <;>
    exact completesReading_of_cells (fun _ => rfl) rfl fun _ => ⟨rfl, loadFlags_setZN _ s.p⟩

/-- Settles O29: each cell against the tables, Z and N as `SetZN` leaves them. -/
theorem loadInstructions : Obligations.LoadInstructions := by
  unfold Obligations.LoadInstructions
  refine fun s d w => ⟨?_, ?_, ?_, ?_⟩ <;>
    exact completesReading_of_cells (fun _ => rfl) rfl fun v => ⟨rfl, loadFlags_setZN v s.p⟩

/-- Settles O30: each cell against the tables, C, Z and N as `Compare` leaves them. -/
theorem compareInstructions : Obligations.CompareInstructions := by
  unfold Obligations.CompareInstructions
  refine fun s d w => ⟨?_, ?_, ?_⟩ <;>
    exact completesReading_of_cells (fun _ => rfl) rfl fun v => ⟨rfl, comparedFlags_compareFlags _ v s.p⟩

/-- Settles O32: each cell against the tables, for the byte each operation stores. -/
theorem storeInstructions : Obligations.StoreInstructions := by
  unfold Obligations.StoreInstructions
  exact fun s d w =>
    ⟨completesStoring_of_cells (fun r _ => r.a) (fun _ => rfl) rfl,
      completesStoring_of_cells (fun r _ => r.x) (fun _ => rfl) rfl,
      completesStoring_of_cells (fun r _ => r.y) (fun _ => rfl) rfl,
      completesStoring_of_cells (fun r _ => r.a &&& r.x) (fun _ => rfl) rfl⟩

/-! ### Addition and subtraction -/

/-- Settles O26: each cell against the tables, the flags of `ADC_core` as arithmetic. -/
theorem addWithCarry : Obligations.AddWithCarry := by
  unfold Obligations.AddWithCarry
  exact fun s d w => completesReading_of_cells (fun _ => rfl) rfl fun v =>
    ⟨rfl, adcResult_toNat s.a v (getFlag .C s.p), addedFlags_adcFlags s.a v s.p⟩

/-- The complement SBC adds (41 R158) is `255 - v` unsigned. -/
theorem toNat_complement (v : Byte) : (v ^^^ 0xFF).toNat = 255 - v.toNat := by
  have hnot : v ^^^ 0xFF = ~~~v := BitVec.xor_allOnes
  rw [hnot, BitVec.toNat_not]

/-- The complement SBC adds is `-1 - v` signed. -/
theorem toInt_complement (v : Byte) : (v ^^^ 0xFF).toInt = -1 - v.toInt := by
  have hv := v.isLt
  have hbit := getLsbD_7_iff v
  have hbit' := getLsbD_7_iff (v ^^^ 0xFF)
  rw [toNat_complement] at hbit'
  simp only [toInt_by_bit7, toNat_complement, hbit, hbit']
  split <;> split <;> omega

/-- Adding the complement and the carry is subtracting the operand and the borrow (41 R158). -/
theorem adcResult_complement (a v : Byte) (c : Bool) :
    ((adcResult a (v ^^^ 0xFF) c).toNat : Int) = ((a.toNat : Int) - v.toNat - (1 - c.toNat : Nat)) % 256 := by
  have hv := v.isLt
  have hc := c.toNat_le
  rw [adcResult_toNat, toNat_complement]
  omega

/-- The carry of the addition is the absence of a borrow (41 R158). -/
theorem carry_complement_iff (a v : Byte) (c : Bool) :
    255 < a.toNat + (v ^^^ 0xFF).toNat + c.toNat ↔ v.toNat + (1 - c.toNat) ≤ a.toNat := by
  have hv := v.isLt
  have hc := c.toNat_le
  rw [toNat_complement]
  omega

/-- The signed sum with the complement is the signed difference (41 R158). -/
theorem signedSum_complement (a v : Byte) (c : Bool) :
    a.toInt + (v ^^^ 0xFF).toInt + c.toNat = a.toInt - v.toInt - (1 - c.toNat : Nat) := by
  have hc := c.toNat_le
  rw [toInt_complement]
  omega

/-- Settles O27: the addition of the complement, read as a difference. -/
theorem subtractWithBorrow : Obligations.SubtractWithBorrow := by
  unfold Obligations.SubtractWithBorrow
  intro s d w effect
  have heff : ∀ v, effect v (s.withRegs (s.regs.adc (v ^^^ 0xFF))) := by
    intro v
    obtain ⟨hC, hV, hZ, hN, hkept⟩ := addedFlags_adcFlags s.a (v ^^^ 0xFF) s.p
    rw [carry_complement_iff] at hC
    rw [signedSum_complement] at hV
    exact ⟨rfl, adcResult_complement s.a v (getFlag .C s.p), hC, hV, hZ, hN, hkept⟩
  exact ⟨completesReading_of_cells (fun _ => rfl) rfl heff, completesReading_of_cell rfl rfl heff⟩

/-- Settles O28: in each encoding SBC is the addition of the complement, and the three opcodes have the same cycles. -/
theorem subtractIsAddOfComplement : Obligations.SubtractIsAddOfComplement := by
  unfold Obligations.SubtractIsAddOfComplement
  intro s d
  have hnot : ~~~d = d ^^^ 0xFF := BitVec.xor_allOnes.symm
  rw [hnot]
  have hadc := exec_imm_of_read (i := .adc (.imm (d ^^^ 0xFF))) rfl rfl s
  exact ⟨(exec_imm_of_read (i := .sbc (.imm d)) rfl rfl s).trans hadc.symm,
    (exec_imm_of_read (i := .sbcEB d) rfl rfl s).trans hadc.symm⟩

end Sys2Proof.Machine
end

section
/-! PROOFS. The read-modify-write cells of the opcode map and the one-byte register operations: an instruction's cell gives its
opcode and cycles, its shape gives its effect. -/

namespace Sys2Proof.Machine

/-- An instruction of the read-modify-write shape completes at its cell: the byte by `b`, then the registers by `g` of the byte
written (42 R170, 46 R260). -/
theorem completesModifying_of_cell {i : Instr} {f : Form} {b : ByteOp} {g : Byte → Regs → Regs} {s : State}
    {effect : Byte → Byte → State → Prop} (hsh : shapeOf i = .modify b g) (hcell : cellOf i = some f)
    (heff : ∀ v, effect v (b v s.p).1 (s.withRegs (g (b v s.p).1 { s.regs with p := (b v s.p).2 }))) :
    CompletesModifying i f s effect := by
  obtain ⟨hop, hf⟩ := cellOf_eq_some hcell
  rw [hf]
  refine completesModifying b (fun v t => t.withRegs (g v t.regs)) hop ?_ rfl ?_ rfl (fun _ _ _ _ => rfl) (heff _)
  · rw [exec_eq_run, hsh]
    rfl
  · exact addressable_of_opcode hop (by rw [hsh]; rfl)

/-- A one-byte instruction of the register shape completes with the registers its operation gives (44, 42 R170). -/
theorem completesInRegisters_of_shape {i : Instr} {op : Byte} {n : Nat} {g : Regs → Regs} (hsh : shapeOf i = .register g)
    (hop : i.opcode = some op) (hlen : i.length = 1) (hcyc : cyc op = n) (s : State) :
    CompletesInRegisters i op n s (s.withRegs (g s.regs)) := by
  refine ⟨hop, ?_⟩
  rw [exec_eq_run, hsh, ← hlen, ← hcyc, ← baseCycles_of_opcode hop]
  rfl

/-! An operation at several cells: the list of the cells is compared with the tables in one equation. -/

section
variable {ins : AddrMode → Instr} {b : ByteOp} {s : State} {effect : Byte → Byte → State → Prop}

theorem completesModifying_of_cells {forms : List Form} {g : Byte → Regs → Regs}
    (hsh : ∀ f ∈ forms, shapeOf (ins f.mode) = .modify b g)
    (hcells : forms.map (fun f => cellOf (ins f.mode)) = forms.map some)
    (heff : ∀ v, effect v (b v s.p).1 (s.withRegs (g (b v s.p).1 { s.regs with p := (b v s.p).2 }))) :
    ∀ f ∈ forms, CompletesModifying (ins f.mode) f s effect :=
  fun f hf => completesModifying_of_cell (hsh f hf) (List.map_inj_left.mp hcells f hf) heff

/-- None of the memory cells of a shift or rotate is the Accumulator's (42 R170). -/
theorem shiftAt_of_mem_modifyForms {d : Byte} {w : Addr} {zp zpX abs absX : Byte} :
    ∀ f ∈ modifyForms d w zp zpX abs absX, shiftAt b f.mode = .modify b fun v r => r.mapP (setZN v) := by
  simp [modifyForms, shiftAt]

/-- A shift or rotate at its memory cells: the byte and the carry by `b`, then Z and N (42 R170). -/
theorem completesModifying_of_shift {d : Byte} {w : Addr} {zp zpX abs absX : Byte} (hsh : ∀ m, shapeOf (ins m) = shiftAt b m)
    (hcells : (modifyForms d w zp zpX abs absX).map (fun f => cellOf (ins f.mode)) =
      (modifyForms d w zp zpX abs absX).map some)
    (heff : ∀ v, effect v (b v s.p).1 { s with p := setZN (b v s.p).1 (b v s.p).2 }) :
    ∀ f ∈ modifyForms d w zp zpX abs absX, CompletesModifying (ins f.mode) f s effect :=
  completesModifying_of_cells (fun f hf => (hsh f.mode).trans (shiftAt_of_mem_modifyForms f hf)) hcells heff
end

end Sys2Proof.Machine
end

section
/-! PROOFS. Shifts, rotates, DEC and INC (O34 to O36): what each does to its byte, bit by bit or as arithmetic, and to the
flags. -/

namespace Sys2Proof.Machine

/-! ### Shifts and rotates -/

theorem shiftedLeft_aslOp (v p : Byte) : shiftedLeft v (aslOp v p).1 false := by
  refine ⟨by simp [aslOp], fun k hk => ?_⟩
  have hk' : k + 1 < 8 := by omega
  simp [aslOp, hk', BitVec.getLsbD_eq_getElem (Nat.lt_of_succ_lt hk')]

theorem shiftedLeft_rolOp (v p : Byte) : shiftedLeft v (rolOp v p).1 (getFlag .C p) := by
  refine ⟨by simp [rolOp], fun k hk => ?_⟩
  have hk' : k + 1 < 8 := by omega
  simp [rolOp, hk', BitVec.getLsbD_eq_getElem (Nat.lt_of_succ_lt hk')]

theorem shiftedRight_lsrOp (v p : Byte) : shiftedRight v (lsrOp v p).1 false := by
  refine ⟨by simp [lsrOp], fun k _ => ?_⟩
  simp [lsrOp, Nat.add_comm]

theorem shiftedRight_rorOp (v p : Byte) : shiftedRight v (rorOp v p).1 (getFlag .C p) := by
  refine ⟨by simp [rorOp], fun k hk => ?_⟩
  simp [rorOp, hk, Nat.add_comm]

/-- The carry, then Z and N of the result, as every shift and rotate writes them (42 R170 to R174). -/
theorem shiftFlags_setZN_carry (c : Bool) (r p : Byte) : shiftFlags c r p (setZN r (setFlag .C c p)) :=
  ⟨by simp [getFlag_setZN], by simp [getFlag_setZN], by simp [getFlag_setZN], flagsKept_setZN_carry r c p⟩

/-- Settles O34: each memory cell against the tables, and the Accumulator form as a register operation. -/
theorem leftShifts : Obligations.LeftShifts := by
  unfold Obligations.LeftShifts
  intro s d w effect
  refine ⟨?aslMemory, ?rolMemory, ?aslAccumulator, ?rolAccumulator⟩
  case aslMemory =>
    exact completesModifying_of_shift (fun _ => rfl) rfl fun v =>
      ⟨shiftedLeft_aslOp v s.p, rfl, shiftFlags_setZN_carry _ _ s.p⟩
  case rolMemory =>
    exact completesModifying_of_shift (fun _ => rfl) rfl fun v =>
      ⟨shiftedLeft_rolOp v s.p, rfl, shiftFlags_setZN_carry _ _ s.p⟩
  case aslAccumulator =>
    exact ⟨_, completesInRegisters_of_shape (g := Regs.shiftA aslOp) rfl rfl rfl rfl s, rfl,
      shiftedLeft_aslOp s.a s.p, shiftFlags_setZN_carry _ _ s.p⟩
  case rolAccumulator =>
    exact ⟨_, completesInRegisters_of_shape (g := Regs.shiftA rolOp) rfl rfl rfl rfl s, rfl,
      shiftedLeft_rolOp s.a s.p, shiftFlags_setZN_carry _ _ s.p⟩

/-- Settles O35: each memory cell against the tables, and the Accumulator form as a register operation. -/
theorem rightShifts : Obligations.RightShifts := by
  unfold Obligations.RightShifts
  intro s d w effect
  refine ⟨?lsrMemory, ?rorMemory, ?lsrAccumulator, ?rorAccumulator⟩
  case lsrMemory =>
    exact completesModifying_of_shift (fun _ => rfl) rfl fun v =>
      ⟨shiftedRight_lsrOp v s.p, rfl, shiftFlags_setZN_carry _ _ s.p⟩
  case rorMemory =>
    exact completesModifying_of_shift (fun _ => rfl) rfl fun v =>
      ⟨shiftedRight_rorOp v s.p, rfl, shiftFlags_setZN_carry _ _ s.p⟩
  case lsrAccumulator =>
    exact ⟨_, completesInRegisters_of_shape (g := Regs.shiftA lsrOp) rfl rfl rfl rfl s, rfl,
      shiftedRight_lsrOp s.a s.p, shiftFlags_setZN_carry _ _ s.p⟩
  case rorAccumulator =>
    exact ⟨_, completesInRegisters_of_shape (g := Regs.shiftA rorOp) rfl rfl rfl rfl s, rfl,
      shiftedRight_rorOp s.a s.p, shiftFlags_setZN_carry _ _ s.p⟩

/-! ### DEC and INC -/

theorem decOp_toNat (v p : Byte) : (decOp v p).1.toNat = (v.toNat + 255) % 256 := by
  simp [decOp, BitVec.toNat_sub, Nat.add_comm]

theorem incOp_toNat (v p : Byte) : (incOp v p).1.toNat = (v.toNat + 1) % 256 := by simp [incOp]

/-- Settles O36: each cell against the tables, Z and N as `SetZN` leaves them. -/
theorem incrementDecrementMemory : Obligations.IncrementDecrementMemory := by
  unfold Obligations.IncrementDecrementMemory
  exact fun s d w =>
    ⟨completesModifying_of_cells (fun _ _ => rfl) rfl fun v => ⟨decOp_toNat v s.p, rfl, loadFlags_setZN _ s.p⟩,
      completesModifying_of_cells (fun _ _ => rfl) rfl fun v => ⟨incOp_toNat v s.p, rfl, loadFlags_setZN _ s.p⟩⟩

end Sys2Proof.Machine
end

section
/-! PROOFS. BIT (O31) and the jumps (O40): BIT as a reading operation at its cells, a jump to the address of its mode. -/

namespace Sys2Proof.Machine

/-! ### BIT -/

/-- Z from `A & M`, V and N from bits 6 and 7 of `M`, the other flags kept (43 R190). -/
theorem testedFlags_bitFlags (a m p : Byte) :
    (getFlag .Z (bitFlags a m p) = true ↔ a &&& m = 0) ∧ getFlag .V (bitFlags a m p) = m.getLsbD 6 ∧
      getFlag .N (bitFlags a m p) = m.getLsbD 7 ∧ flagsKept [.Z, .V, .N] p (bitFlags a m p) :=
  ⟨by simp [getFlag_bitFlags], by simp [getFlag_bitFlags], by simp [getFlag_bitFlags], flagsKept_bitFlags a m p⟩

/-- Settles O31: each cell against the tables, V, Z and N as `bitFlags` leaves them. -/
theorem bitTest : Obligations.BitTest := by
  unfold Obligations.BitTest
  exact fun s d w => completesReading_of_cells (fun _ => rfl) rfl fun v => ⟨rfl, testedFlags_bitFlags s.a v s.p⟩

/-! ### The jumps -/

/-- An instruction of the jump shape transfers control to the address of its mode, for its opcode's cycles
(43 R191, R192). -/
theorem exec_of_jump {i : Instr} {op : Byte} (hsh : shapeOf i = .jump) (hop : i.opcode = some op) (s : State) :
    exec i s = .next (transferred s (s.events ++ pointerReads i.mode s) (effective i.mode s).ea (cyc op)) := by
  have ha : addressable i.mode = true := addressable_of_opcode hop (by rw [hsh]; rfl)
  have hjump : exec i s = jumpShape i s := by
    rw [exec_eq_run, hsh]
    rfl
  rw [hjump, jumpShape_eq i s ha, baseCycles_of_opcode hop]
  rfl

/-- Settles O40: both jumps by their shape; the address of Absolute is its operand. -/
theorem jumpInstructions : Obligations.JumpInstructions := by
  unfold Obligations.JumpInstructions
  intro s w
  refine ⟨⟨_, _, addresses_effective (.abs w) s rfl, rfl, rfl, ?absolute⟩, _, _, addresses_effective (.ind w) s rfl, rfl,
    ?indirect⟩
  case absolute => exact exec_of_jump (i := .jmpAbs w) rfl rfl s
  case indirect => exact exec_of_jump (i := .jmpInd w) rfl rfl s

end Sys2Proof.Machine
end

section
/-! PROOFS. The single-byte instructions (O42 to O48): register operations by their shape, the pushers and pullers by one push
or one pop. -/

namespace Sys2Proof.Machine

/-! ### Register operations -/

theorem flagWritten_setFlag (f : Flag) (b : Bool) (p : Byte) : flagWritten f b p (setFlag f b p) :=
  ⟨getFlag_setFlag_same f b p, flagsKept_setFlag f b p⟩

/-- A register operation that writes one flag completes with that flag written and nothing else (44 R221). -/
theorem completes_setFlag {i : Instr} {op : Byte} {f : Flag} {b : Bool}
    (hsh : shapeOf i = .register fun r => r.mapP (setFlag f b)) (hop : i.opcode = some op) (hlen : i.length = 1)
    (hcyc : cyc op = 2) (s : State) :
    ∃ u, CompletesInRegisters i op 2 s u ∧ u = { s with p := u.p } ∧ flagWritten f b s.p u.p :=
  ⟨_, completesInRegisters_of_shape hsh hop hlen hcyc s, rfl, flagWritten_setFlag f b s.p⟩

/-- Settles O42, one flag instruction after another. -/
theorem flagInstructions : Obligations.FlagInstructions := by
  unfold Obligations.FlagInstructions
  intro s iofb h
  fin_cases h <;> exact completes_setFlag rfl rfl rfl rfl s

/-- Settles O43: each copy sets Z and N as `SetZN` does, and TXS changes SP alone. -/
theorem transferInstructions : Obligations.TransferInstructions := by
  unfold Obligations.TransferInstructions
  intro s
  refine ⟨?tax, ?tay, ?txa, ?tya, ?tsx, ?txs⟩
  case tax =>
    exact ⟨_, completesInRegisters_of_shape (g := fun r => r.loadX r.a) rfl rfl rfl rfl s, rfl, loadFlags_setZN s.a s.p⟩
  case tay =>
    exact ⟨_, completesInRegisters_of_shape (g := fun r => r.loadY r.a) rfl rfl rfl rfl s, rfl, loadFlags_setZN s.a s.p⟩
  case txa =>
    exact ⟨_, completesInRegisters_of_shape (g := fun r => r.loadA r.x) rfl rfl rfl rfl s, rfl, loadFlags_setZN s.x s.p⟩
  case tya =>
    exact ⟨_, completesInRegisters_of_shape (g := fun r => r.loadA r.y) rfl rfl rfl rfl s, rfl, loadFlags_setZN s.y s.p⟩
  case tsx =>
    exact ⟨_, completesInRegisters_of_shape (g := fun r => r.loadX r.sp) rfl rfl rfl rfl s, rfl, loadFlags_setZN s.sp s.p⟩
  case txs => exact completesInRegisters_of_shape (g := fun r => { r with sp := r.x }) rfl rfl rfl rfl s

/-- Settles O44: the index by the arithmetic of INC and DEC, Z and N as `SetZN` leaves them. -/
theorem indexIncrementDecrement : Obligations.IndexIncrementDecrement := by
  unfold Obligations.IndexIncrementDecrement
  intro s
  refine ⟨?inx, ?iny, ?dex, ?dey⟩
  case inx =>
    exact ⟨_, completesInRegisters_of_shape (g := fun r => r.loadX (r.x + 1)) rfl rfl rfl rfl s, rfl,
      incOp_toNat s.x s.p, loadFlags_setZN _ s.p⟩
  case iny =>
    exact ⟨_, completesInRegisters_of_shape (g := fun r => r.loadY (r.y + 1)) rfl rfl rfl rfl s, rfl,
      incOp_toNat s.y s.p, loadFlags_setZN _ s.p⟩
  case dex =>
    exact ⟨_, completesInRegisters_of_shape (g := fun r => r.loadX (r.x - 1)) rfl rfl rfl rfl s, rfl,
      decOp_toNat s.x s.p, loadFlags_setZN _ s.p⟩
  case dey =>
    exact ⟨_, completesInRegisters_of_shape (g := fun r => r.loadY (r.y - 1)) rfl rfl rfl rfl s, rfl,
      decOp_toNat s.y s.p, loadFlags_setZN _ s.p⟩

/-- Settles O45: the register operation of the three is the identity. -/
theorem noOperations : Obligations.NoOperations := by
  unfold Obligations.NoOperations
  intro s io h
  fin_cases h <;> exact completesInRegisters_of_shape (g := id) rfl rfl rfl rfl s

/-! ### Pushers and pullers -/

/-- A one-byte instruction of the push shape is one push, for its opcode's cycles (44 R220, R224). -/
theorem exec_of_push {i : Instr} {op : Byte} {val : Regs → Byte} (hsh : shapeOf i = .push val) (hop : i.opcode = some op)
    (hlen : i.length = 1) (s : State) : exec i s = .next (retire (push s (val s.regs)) 1 (cyc op)) := by
  rw [exec_eq_run, hsh, ← baseCycles_of_opcode hop, ← hlen]
  rfl

/-- A one-byte instruction of the pull shape is one pop and its operation on the byte, for its opcode's cycles
(44 R222, R226). -/
theorem exec_of_pull {i : Instr} {op : Byte} {g : Byte → Regs → Regs} (hsh : shapeOf i = .pull g) (hop : i.opcode = some op)
    (hlen : i.length = 1) (s : State) :
    exec i s = .next (retired (s.withRegs (g (byteAt s (stackAddr (s.sp + 1))) { s.regs with sp := s.sp + 1 }))
      (s.events ++ [.read (stackAddr (s.sp + 1)) (byteAt s (stackAddr (s.sp + 1)))]) 1 (cyc op)) := by
  rw [exec_eq_run, hsh, ← baseCycles_of_opcode hop, ← hlen]
  rfl

/-- The byte PHP pushes is the one with B and U set and the other flags those of P (10 R28). -/
theorem eq_pushedByBreak {f p : Byte} (h : ∀ g, getFlag g f = if g = .B ∨ g = .U then true else getFlag g p) :
    f = pushedByBreak p :=
  byte_ext_of_flags fun g => (h g).trans (getFlag_pushedByBreak g p).symm

/-- A push stores its byte at `{0x01, SP}` and ends with SP one less, in 3 cycles where the opcode has 3 (44 R220, R224). -/
theorem push_completes {i : Instr} {op : Byte} {val : Regs → Byte} (hsh : shapeOf i = .push val) (hop : i.opcode = some op)
    (hlen : i.length = 1) (hcyc : cyc op = 3) (s : State) :
    ∃ t, exec i s = .next t ∧ storesByte s t (mkAddr 0x01 s.sp) (val s.regs) ∧
      t = retired { s with sp := s.sp - 1, mem := t.mem } (s.events ++ [.write (mkAddr 0x01 s.sp) (val s.regs)]) 1 3 := by
  refine ⟨_, exec_of_push hsh hop hlen s, storesByte_memWrite s (stackAddr s.sp) (val s.regs), ?_⟩
  rw [hcyc]
  rfl

/-- Settles O46: A and the byte of P as the two pushed bytes. -/
theorem pushInstructions : Obligations.PushInstructions := by
  unfold Obligations.PushInstructions
  refine ⟨rfl, rfl, fun s f hf iv h => ?_⟩
  rw [eq_pushedByBreak hf] at h
  fin_cases h
  · exact push_completes (val := fun r => r.a) rfl rfl rfl rfl s
  · exact push_completes (val := fun r => pushedByBreak r.p) rfl rfl rfl rfl s

/-- Settles O47: one pop each, Z and N as `SetZN` leaves them for PLA, the flags as `RestoreFlags` does for PLP. -/
theorem pullInstructions : Obligations.PullInstructions := by
  unfold Obligations.PullInstructions
  refine ⟨rfl, rfl, fun s v hv => ?_⟩
  subst hv
  exact ⟨⟨_, rfl, loadFlags_setZN _ s.p, exec_of_pull (i := .pla) rfl rfl rfl s⟩,
    _, rfl, fun g => getFlag_restoreFlags g _ s.p, exec_of_pull (i := .plp) rfl rfl rfl s⟩

/-- Restoring the byte PHP pushed gives the flags it was made from, with U forced (40 R145). -/
theorem getFlag_restoreFlags_pushedByBreak (g : Flag) (p : Byte) :
    getFlag g (restoreFlags (pushedByBreak p) p) = if g = .U then true else getFlag g p := by
  rw [getFlag_restoreFlags, getFlag_pushedByBreak]
  by_cases hB : g = .B
  · subst hB
    rfl
  · by_cases hU : g = .U <;> simp [hB, hU]

theorem flagsKept_restoreFlags_pushedByBreak (p : Byte) : flagsKept [.U] p (restoreFlags (pushedByBreak p) p) :=
  fun g hg => (getFlag_restoreFlags_pushedByBreak g p).trans (if_neg fun h => hg (List.mem_singleton.mpr h))

theorem restoreFlags_pushedByBreak {p : Byte} (hU : getFlag .U p = true) : restoreFlags (pushedByBreak p) p = p := by
  refine byte_ext_of_flags fun g => (getFlag_restoreFlags_pushedByBreak g p).trans ?_
  split
  · next h => rw [h, hU]
  · rfl

/-- PLP after PHP pops the byte PHP pushed, and with it SP comes back. -/
theorem exec_plp_after_php (s : State) : ∃ t u, exec .php s = .next t ∧ exec .plp t = .next u ∧ u.sp = s.sp ∧
    u.p = restoreFlags (pushedByBreak s.p) s.p := by
  obtain ⟨hbyte, hsp⟩ := pop_push s (pushedByBreak s.p)
  exact ⟨_, _, exec_of_push (i := .php) rfl rfl rfl s, exec_of_pull (i := .plp) rfl rfl rfl _, hsp,
    congrArg (restoreFlags · s.p) hbyte⟩

/-- Settles O48: the byte popped is the byte pushed, and restoring it changes U at most. -/
theorem phpThenPlpRestores : Obligations.PhpThenPlpRestores := by
  unfold Obligations.PhpThenPlpRestores
  intro s
  obtain ⟨t, u, hphp, hplp, hsp, hp⟩ := exec_plp_after_php s
  refine ⟨t, u, hphp, hplp, hsp, ?_⟩
  rw [hp]
  exact ⟨flagsKept_restoreFlags_pushedByBreak s.p, restoreFlags_pushedByBreak⟩

end Sys2Proof.Machine
end

section
/-! PROOFS. The subroutine call and return (O14, O15), the software break (O11) and the return from an exception (O12), each by its
16-bit push or pop or its frame. -/

namespace Sys2Proof.Machine

/-! ### The stack slots written -/

/-- The two slots of a 16-bit push, high byte first, and no other byte (40 R143). -/
theorem byteAt_push16_slots (s : State) (w : Addr) :
    byteAt (push16 s w) (stackAddr s.sp) = hiByte w ∧ byteAt (push16 s w) (stackAddr (s.sp - 1)) = loByte w ∧
    ∀ k, k ≠ stackAddr s.sp → k ≠ stackAddr (s.sp - 1) → byteAt (push16 s w) k = byteAt s k := by
  obtain ⟨h01, -, -⟩ := sp_sub_ne s.sp
  refine ⟨?hi, ?lo, fun k h0 h1 => ?frame⟩
  case hi => rw [byteAt_push16, if_neg (mt stackAddr_inj.mp h01), if_pos rfl]
  case lo => rw [byteAt_push16, if_pos rfl]
  case frame => rw [byteAt_push16, if_neg h1, if_neg h0]

/-- The three slots of an exception's frame and no other byte (60 R308, 45 R250). -/
theorem byteAt_pushFrame_slots (e : ExceptionKind) (s : State) :
    byteAt (pushFrame e s) (stackAddr s.sp) = hiByte (exceptionReturn e s.pc) ∧
    byteAt (pushFrame e s) (stackAddr (s.sp - 1)) = loByte (exceptionReturn e s.pc) ∧
    byteAt (pushFrame e s) (stackAddr (s.sp - 2)) = exceptionFlags e s.p ∧
    ∀ k, k ≠ stackAddr s.sp → k ≠ stackAddr (s.sp - 1) → k ≠ stackAddr (s.sp - 2) →
      byteAt (pushFrame e s) k = byteAt s k := by
  have h2 : s.sp - 1 - 1 = s.sp - 2 := sp_sub_sub s.sp
  obtain ⟨h01, h02, h12⟩ := sp_sub_ne s.sp
  rw [h2] at h02 h12
  refine ⟨?hi, ?lo, ?flags, fun k k0 k1 k2 => ?frame⟩ <;> rw [byteAt_pushFrame, h2]
  case hi => rw [if_neg (mt stackAddr_inj.mp h02), if_neg (mt stackAddr_inj.mp h01), if_pos rfl]
  case lo => rw [if_neg (mt stackAddr_inj.mp h12), if_pos rfl]
  case flags => rw [if_pos rfl]
  case frame => rw [if_neg k2, if_neg k1, if_neg k0]

/-! ### Call and return -/

/-- JSR is the 16-bit push of the address of its last byte and a transfer to its operand (45 R251). -/
theorem exec_jsr (w : Addr) (s : State) :
    exec (.jsr w) s = .next (transferred (push16 s (s.pc + 2)) (push16 s (s.pc + 2)).events w 6) := rfl

/-- RTS is a 16-bit pop and a transfer to one past the word popped (45 R253). -/
theorem exec_rts (s : State) :
    exec .rts s = .next (transferred (pop16 s).2 (pop16 s).2.events ((pop16 s).1 + 1) 6) := rfl

/-- Settles O14: JSR by its push's two slots, RTS by its pop. -/
theorem subroutineCallAndReturn : Obligations.SubroutineCallAndReturn := by
  unfold Obligations.SubroutineCallAndReturn
  refine ⟨fun _ => rfl, rfl, fun s w => ?jsr, fun s => ?rts⟩
  case jsr =>
    obtain ⟨hhi, hlo, hframe⟩ := byteAt_push16_slots s (s.pc + 2)
    refine ⟨_, exec_jsr w s, hhi, hlo, hframe, ?_⟩
    rw [push16_eq]
    rfl
  case rts =>
    rw [exec_rts, pop16_eq]
    rfl

/-- Settles O15: the word RTS pops is the one JSR pushed, and the two steps past it add up to the JSR's three bytes. -/
theorem jsrThenRtsResumes : Obligations.JsrThenRtsResumes := by
  unfold Obligations.JsrThenRtsResumes
  intro s w
  obtain ⟨hword, hsp⟩ := pop16_push16 s (s.pc + 2)
  refine ⟨_, _, exec_jsr w s, exec_rts _, ?pc, hsp, rfl, rfl, rfl, rfl⟩
  calc (pop16 (push16 s (s.pc + 2))).1 + 1
    _ = s.pc + 2 + 1 := by rw [hword]
    _ = s.pc + 3 := by bv_omega

/-! ### Break and return from it -/

/-- BRK is an exception's frame and a transfer to the word at its vector, and ends the run when I was set before (45 R250). -/
theorem exec_brk (s : State) :
    exec .brk s = .next { transferred (pushFrame .brk s) (s.events ++ (frameWrites .brk s ++ wordReads s 0xFFFE 0xFFFF))
      (wordAt s 0xFFFE 0xFFFF) 7 with run := if getFlag .I s.p then .halted else s.run } :=
  exec_eq_effect .brk s

/-- Settles O11: the slots by the frame, the flags byte by its two forced flags, I as the one flag written. -/
theorem brkTakesTheBreak : Obligations.BrkTakesTheBreak := by
  unfold Obligations.BrkTakesTheBreak
  refine ⟨rfl, fun s => ?_⟩
  obtain ⟨hhi, hlo, hflags, hframe⟩ := byteAt_pushFrame_slots .brk s
  refine ⟨_, pushedByBreak s.p, exec_brk s, fun g => getFlag_pushedByBreak g s.p, flagWritten_setFlag .I true s.p, ?sp, rfl,
    rfl, hhi, hlo, hflags, hframe, ?state⟩
  case sp =>
    change (s.sp - 1 - 1 - 1).toNat = (s.sp.toNat + 253) % 256
    bv_omega
  case state =>
    simp only [transferred, List.append_assoc]
    rfl

/-- Settles O12: RTI by its effect, the flags as `RestoreFlags` does. -/
theorem rtiReturns : Obligations.RtiReturns := by
  unfold Obligations.RtiReturns
  exact ⟨rfl, fun s => ⟨_, fun g => getFlag_restoreFlags g _ s.p, exec_eq_effect .rti s⟩⟩

end Sys2Proof.Machine
end

section
/-! PROOFS. The illegal opcodes: SHA (O33), the read-modify-write family as its legal halves one after the other (O37, O38), and
the immediates (O39). -/

namespace Sys2Proof.Machine

/-! ### SHA -/

/-- A store may be described by any byte that agrees with the stored one at the resolved address. -/
theorem completesStoring_congr {i : Instr} {f : Form} {s : State} {val val' : Resolved → Byte}
    (ha : addressable f.mode = true) (hval : val (effective f.mode s) = val' (effective f.mode s))
    (h : CompletesStoring i f s val) : CompletesStoring i f s val' := by
  obtain ⟨hop, q, evs, t, hq, hexec, hstore, ht⟩ := h
  obtain ⟨rfl, -⟩ := Prod.mk.inj (Except.ok.inj ((resolve_eq f.mode s ha).symm.trans hq))
  rw [hval] at hstore ht
  exact ⟨hop, _, evs, t, hq, hexec, hstore, ht⟩

/-- The base that Indirect,Y adds Y to has the pointer's second byte, read in page 0, as its high byte (40 R119). -/
theorem baseHi_effective_indY (d : Byte) (s : State) :
    (effective (.indY d) s).baseHi = s.mem.get ((d.toNat + 1) % 256) :=
  (hiByte_mkAddr _ _).trans (byteAt_zext16_succ s d)

/-- Settles O33: both cells against the tables; the base is the operand word, or the pointer in page 0. -/
theorem shaStoresDefaultValue : Obligations.ShaStoresDefaultValue := by
  unfold Obligations.ShaStoresDefaultValue
  intro s d w
  refine ⟨?absoluteY, ?indirectY⟩
  case absoluteY => exact completesStoring_congr rfl rfl (completesStoring_of_cell (i := .sha (.absY w)) rfl rfl)
  case indirectY =>
    refine completesStoring_congr rfl ?_ (completesStoring_of_cell (i := .sha (.indY d)) rfl rfl)
    change config.shaValue s.a s.x (effective (.indY d) s).baseHi = _
    rw [baseHi_effective_indY, config_shaValue]

/-! ### The read-modify-write family -/

/-- Settles O37: each cell against the tables; the byte as in the legal shift, Z and N from A. -/
theorem illegalShiftAndLogic : Obligations.IllegalShiftAndLogic := by
  unfold Obligations.IllegalShiftAndLogic
  intro s d w
  refine ⟨?slo, ?rla, ?sre⟩
  case slo =>
    exact completesModifying_of_cells (fun _ _ => rfl) rfl fun v =>
      ⟨shiftedLeft_aslOp v s.p, rfl, shiftFlags_setZN_carry _ _ s.p⟩
  case rla =>
    exact completesModifying_of_cells (fun _ _ => rfl) rfl fun v =>
      ⟨shiftedLeft_rolOp v s.p, rfl, shiftFlags_setZN_carry _ _ s.p⟩
  case sre =>
    exact completesModifying_of_cells (fun _ _ => rfl) rfl fun v =>
      ⟨shiftedRight_lsrOp v s.p, rfl, shiftFlags_setZN_carry _ _ s.p⟩

/-- `ADC_core` as arithmetic: the sum modulo 256 and its four flags (41 R154). -/
theorem isSum_and_addedFlags (a m p : Byte) :
    isSum a m p (adcResult a m (getFlag .C p)) ∧
      addedFlags a m p (adcResult a m (getFlag .C p)) (adcFlags a m p) :=
  ⟨adcResult_toNat a m _, addedFlags_adcFlags a m p⟩

/-- Settles O38: each cell against the tables; the byte as in the legal instruction, then the comparison or the sum. -/
theorem illegalModifyAndArithmetic : Obligations.IllegalModifyAndArithmetic := by
  unfold Obligations.IllegalModifyAndArithmetic
  intro s d w
  refine ⟨?dcp, ?isc, ?rra⟩
  case dcp =>
    exact completesModifying_of_cells (fun _ _ => rfl) rfl fun v =>
      ⟨decOp_toNat v s.p, rfl, comparedFlags_compareFlags s.a _ s.p⟩
  case isc =>
    refine completesModifying_of_cells (fun _ _ => rfl) rfl fun v => ⟨incOp_toNat v s.p, rfl, ?_⟩
    have hnot : ~~~(incOp v s.p).1 = (incOp v s.p).1 ^^^ 0xFF := BitVec.xor_allOnes.symm
    rw [hnot]
    exact isSum_and_addedFlags s.a _ s.p
  case rra =>
    exact completesModifying_of_cells (fun _ _ => rfl) rfl fun v =>
      ⟨shiftedRight_rorOp v s.p, rfl, _, flagWritten_setFlag .C _ s.p, isSum_and_addedFlags s.a _ _⟩

/-! ### The immediates -/

/-- Z and N of the result, then the carry, as ANC writes them (46 R262). -/
theorem shiftFlags_carry_setZN (c : Bool) (r p : Byte) : shiftFlags c r p (setFlag .C c (setZN r p)) :=
  ⟨by simp, by simp [getFlag_setFlag, getFlag_setZN], by simp [getFlag_setFlag, getFlag_setZN], flagsKept_carry_setZN c r p⟩

theorem getFlag_arrFlags (f : Flag) (r p : Byte) :
    getFlag f (arrFlags r p) =
      if f = .V then r.getLsbD 6 ^^ r.getLsbD 5 else if f = .C then r.getLsbD 6 else getFlag f (setZN r p) := by
  simp [arrFlags, getFlag_setFlag]

/-- ARR's carry is bit 6 of the result, its overflow bit 6 against bit 5 (46 R263). -/
theorem rotatedFlags_arrFlags (r p : Byte) :
    getFlag .C (arrFlags r p) = r.getLsbD 6 ∧ getFlag .V (arrFlags r p) = (r.getLsbD 6 ^^ r.getLsbD 5) ∧
      (getFlag .Z (arrFlags r p) = true ↔ r = 0) ∧ getFlag .N (arrFlags r p) = r.getLsbD 7 ∧
      flagsKept [.C, .V, .Z, .N] p (arrFlags r p) :=
  ⟨by simp [getFlag_arrFlags], by simp [getFlag_arrFlags], by simp [getFlag_arrFlags, getFlag_setZN],
    by simp [getFlag_arrFlags, getFlag_setZN], flagsKept_arrFlags r p⟩

/-- A difference of bytes wraps modulo 256. -/
theorem toNat_sub_eq_emod (t v : Byte) : ((t - v).toNat : Int) = ((t.toNat : Int) - v.toNat) % 256 := by
  have hv := v.isLt
  rw [BitVec.toNat_sub]
  omega

/-- AXS writes the flags of `Compare`: the wrapped difference is zero exactly at equality (46 R264). -/
theorem axsFlags_eq_compareFlags (t v p : Byte) :
    setZN (t - v) (setFlag .C (decide (v.toNat ≤ t.toNat)) p) = compareFlags t v p := by
  have hzero : (t - v == 0) = (t == v) := by
    rw [Bool.eq_iff_iff, beq_iff_eq, beq_iff_eq]
    exact sub_eq_zero
  rw [setZN, compareFlags, hzero]

/-- Settles O39: each cell against the tables; ALR and ARR as the right shifts of A and M, AXS with the flags of `Compare`. -/
theorem illegalImmediates : Obligations.IllegalImmediates := by
  unfold Obligations.IllegalImmediates
  intro s d
  refine ⟨?alr, ?anc, ?arr, ?axs⟩
  case alr =>
    exact completesReading_of_cell (g := Regs.alr) rfl rfl fun v =>
      ⟨rfl, shiftedRight_lsrOp (s.a &&& v) s.p, shiftFlags_setZN_carry _ _ s.p⟩
  case anc =>
    intro io h
    fin_cases h <;>
      exact completesReading_of_cell (g := Regs.anc) rfl rfl fun v => ⟨rfl, shiftFlags_carry_setZN _ _ s.p⟩
  case arr =>
    exact completesReading_of_cell (g := Regs.arr) rfl rfl fun v =>
      ⟨rfl, shiftedRight_rorOp (s.a &&& v) s.p, rotatedFlags_arrFlags _ s.p⟩
  case axs =>
    refine completesReading_of_cell (g := Regs.axs) rfl rfl fun v => ⟨rfl, toNat_sub_eq_emod _ v, ?_⟩
    change comparedFlags (s.a &&& s.x) v s.p
      (setZN ((s.a &&& s.x) - v) (setFlag .C (decide (v.toNat ≤ (s.a &&& s.x).toNat)) s.p))
    rw [axsFlags_eq_compareFlags]
    exact comparedFlags_compareFlags _ v s.p

end Sys2Proof.Machine
end

section
/-! PROOFS. Exceptions (60_exceptions): NMI service (O9), the laws of the NMI flag (O10), RTI after either entry (O13), and the
instructions that end a run (O58). -/

namespace Sys2Proof.Machine

/-! ### NMI service -/

/-- The flags byte of NMI service has B clear and U set; the other flags are those of P (60 R308). -/
theorem getFlag_exceptionFlags_nmi (g : Flag) (p : Byte) :
    getFlag g (exceptionFlags .nmi p) = if g = .B then false else if g = .U then true else getFlag g p := by
  refine (getFlag_pushedByNmi g p).trans ?_
  cases g <;> rfl

/-- An exception's frame is three bytes, SP wrapping modulo 256 (60 R308, 45 R250). -/
theorem toNat_sp_pushFrame (k : ExceptionKind) (s : State) : (pushFrame k s).sp.toNat = (s.sp.toNat + 253) % 256 := by
  rw [pushFrame_eq]
  change (s.sp - 1 - 1 - 1).toNat = (s.sp.toNat + 253) % 256
  bv_omega

/-- Settles O9: the slots by the frame, the flags byte by its two forced flags, I as the one flag written. -/
theorem pendingNmiIsServiced : Obligations.PendingNmiIsServiced := by
  unfold Obligations.PendingNmiIsServiced
  intro s hr hh hn
  obtain ⟨hhi, hlo, hflags, hframe⟩ := byteAt_pushFrame_slots .nmi (polled s)
  refine ⟨takeException .nmi (polled s), exceptionFlags .nmi s.p, step_nmi hr hh hn,
    fun g => getFlag_exceptionFlags_nmi g s.p, ?_⟩
  rw [takeException_nmi_eq]
  refine ⟨flagWritten_setFlag .I true s.p, toNat_sp_pushFrame .nmi (polled s), rfl, hhi, hlo, hflags, hframe, ?state⟩
  case state =>
    rw [pushFrame_eq]
    rfl

/-! ### The NMI flag -/

/-- A step either finds the flag pending or leaves it clear: an instruction runs with it clear and keeps it so (60 R305 c). -/
theorem nmiPending_of_step {s t : State} (h : step s = .next t) (ht : t.nmiPending = true) : s.nmiPending = true := by
  obtain ⟨-, ⟨-, rfl⟩ | ⟨-, hn, -⟩ | ⟨-, -, hx⟩⟩ := step_cases h
  · exact ht
  · exact hn
  · obtain ⟨l, hl⟩ := fetchInstr_frame { s with nmiPending := false, events := [.pollNmi false] }
    have hclear : (fetched s).2.nmiPending = false := by rw [fetched, hl]
    exact absurd (ht.symm.trans ((exec_keeps_inputs hx).2.trans hclear)) nofun

/-- Settles O10: the poll and the host's events by their definitions, instructions and steps by what they leave of the flag. -/
theorem nmiFlagLaws : Obligations.NmiFlagLaws := by
  unfold Obligations.NmiFlagLaws
  exact ⟨fun s hn => ⟨hn, rfl⟩, fun s hn => ⟨hn, rfl⟩, fun i s t h => (exec_keeps_inputs h).2,
    fun s t h ht => nmiPending_of_step h ht, fun s => ⟨rfl, rfl⟩, fun s b => rfl⟩

/-! ### The return from an exception's entry -/

/-- What an exception taken in `s` leaves for RTI to find: the registers and the memory of its frame (60 R312). -/
def Entered (k : ExceptionKind) (s t : State) : Prop := t.regs = (pushFrame k s).regs ∧ t.mem = (pushFrame k s).mem

/-- P after the return: what is restored from the frame's flags byte over the P the entry left, I set. -/
def returnedFlags (k : ExceptionKind) (p : Byte) : Byte := restoreFlags (exceptionFlags k p) (setFlag .I true p)

/-- The return undoes the entry of either kind but for U: the frame holds I as it was, and B is not restored from it
(40 R145). -/
theorem getFlag_returnedFlags (k : ExceptionKind) (g : Flag) (p : Byte) :
    getFlag g (returnedFlags k p) = if g = .U then true else getFlag g p := by
  rw [returnedFlags, getFlag_restoreFlags, getFlag_setFlag_other true p (by decide)]
  by_cases hU : g = .U
  · simp [hU]
  by_cases hB : g = .B
  · simp [hB]
  · cases k <;> simp [exceptionFlags, getFlag_pushedByNmi, getFlag_pushedByBreak, hU, hB]

theorem returnedFlags_keep_all_but_U (k : ExceptionKind) (p : Byte) :
    getFlag .U (returnedFlags k p) = true ∧ flagsKept [.U] p (returnedFlags k p) :=
  ⟨getFlag_returnedFlags k .U p,
    fun g hg => (getFlag_returnedFlags k g p).trans (if_neg fun h => hg (List.mem_singleton.mpr h))⟩

/-- RTI pops the frame it finds: PC is the word saved, and of the registers P alone may differ, by U (60 R312). -/
theorem exec_rti_of_entered {k : ExceptionKind} {s t : State} (h : Entered k s t) :
    ∃ u, exec .rti t = .next u ∧ u.pc = exceptionReturn k s.pc ∧
      u.regs = { s.regs with p := returnedFlags k s.p } := by
  obtain ⟨hregs, hmem⟩ := h
  have hsp : t.sp = s.sp - 3 := by
    calc t.sp
      _ = (pushFrame k s).sp := congrArg Regs.sp hregs
      _ = s.sp - 1 - 1 - 1 := congrArg State.sp (pushFrame_eq k s)
      _ = s.sp - 3 := sp_sub_three s.sp
  have hbyte (a : Addr) : byteAt t a = byteAt (pushFrame k s) a := congrArg (Memory.get · a.toNat) hmem
  have h1 : t.sp + 1 = s.sp - 2 := by bv_omega
  have h2 : t.sp + 2 = s.sp - 1 := by bv_omega
  have h3 : t.sp + 3 = s.sp := by bv_omega
  obtain ⟨hhi, hlo, hflags, -⟩ := byteAt_pushFrame_slots k s
  refine ⟨_, exec_eq_effect .rti t, ?pc, ?regs⟩
  case pc =>
    change mkAddr (byteAt t (stackAddr (t.sp + 3))) (byteAt t (stackAddr (t.sp + 2))) = _
    rw [h2, h3, hbyte, hbyte, hhi, hlo, mkAddr_hi_lo]
  case regs =>
    change { t.regs with sp := t.sp + 3, p := restoreFlags (byteAt t (stackAddr (t.sp + 1))) t.regs.p } = _
    rw [h1, h3, hbyte, hflags, hregs]
    rfl

/-- A step that services an NMI enters it (60 R308). -/
theorem step_enters_nmi {s : State} (hr : s.run = .running) (hh : s.haltIn = false) (hn : s.nmiPending = true) :
    ∃ t, step s = .next t ∧ Entered .nmi s t := by
  refine ⟨_, step_nmi hr hh hn, ?_⟩
  rw [takeException_nmi_eq]
  exact ⟨rfl, rfl⟩

/-- BRK enters the break, halted or not (45 R250). -/
theorem exec_brk_enters (s : State) : ∃ t, exec .brk s = .next t ∧ Entered .brk s t := ⟨_, exec_brk s, rfl, rfl⟩

/-- Settles O13: both entries leave their frame, and RTI undoes a frame. -/
theorem rtiResumesAfterException : Obligations.RtiResumesAfterException := by
  unfold Obligations.RtiResumesAfterException
  refine ⟨fun s hr hh hn => ?nmi, fun s => ?brk⟩
  case nmi =>
    obtain ⟨t, hstep, hentered⟩ := step_enters_nmi hr hh hn
    obtain ⟨u, hrti, hpc, hregs⟩ := exec_rti_of_entered hentered
    injection hregs with ha hx hy hsp hp
    obtain ⟨hU, hkept⟩ := returnedFlags_keep_all_but_U .nmi s.p
    exact ⟨t, u, hstep, hrti, hpc, hsp, hp ▸ hU, hp ▸ hkept, ha, hx, hy⟩
  case brk =>
    obtain ⟨t, hbrk, hentered⟩ := exec_brk_enters s
    obtain ⟨u, hrti, hpc, hregs⟩ := exec_rti_of_entered hentered
    injection hregs with _ _ _ hsp hp
    obtain ⟨hU, hkept⟩ := returnedFlags_keep_all_but_U .brk s.p
    exact ⟨t, u, hbrk, hrti, hpc, hsp, hp ▸ hU, hp ▸ hkept⟩

/-! ### The end of a run -/

/-- Only BRK has the shape of one. -/
theorem eq_brk_of_shapeOf {i : Instr} (h : shapeOf i = .brk) : i = .brk := by
  cases i
  case asl m | rol m | lsr m | ror m => cases m <;> cases h
  case brk => rfl
  all_goals cases h

/-- Of the effects, only BRK's halts, and it halts where I was set (45 R250, 60 R320). -/
theorem effect_halts {i : Instr} {s : State} {e : Effect} (h : effect i s = .ok e) (hhalts : e.halts = true) :
    i = .brk ∧ getFlag .I s.p = true := by
  unfold effect at h
  cases hsh : shapeOf i with rw [hsh] at h
  | brk => cases h; exact ⟨eq_brk_of_shapeOf hsh, hhalts⟩
  | read | store | modify | jump => rw [onAddress_ok h] at hhalts; cases hhalts
  | register | branch | push | pull | jsr | rti | rts => cases h; cases hhalts
  | undecoded => cases h

/-- Settles O58: an undecoded byte faults, any other well-formed instruction completes, and only BRK's effect halts. -/
theorem onlyBreakAndUndecodedInstructionsEndRun : Obligations.OnlyBreakAndUndecodedInstructionsEndRun := by
  unfold Obligations.OnlyBreakAndUndecodedInstructionsEndRun
  intro i s t hwf h hrun
  rw [exec_next h] at hrun ⊢
  by_cases hu : ∃ op, i = .undecoded op
  · obtain ⟨op, rfl⟩ := hu
    exact .inr ⟨op, rfl, rfl⟩
  · obtain ⟨op, hop, -⟩ := Instr.exists_opcode_of_wf hwf
    obtain ⟨e, he⟩ := exists_effect hop (fun o ho => hu ⟨o, ho⟩) s
    rw [he] at hrun ⊢
    cases hhalts : e.halts
    · have hkept : (e.apply s).run = s.run := by simp [Effect.apply, hhalts]
      exact absurd hkept hrun
    · obtain ⟨hi, hI⟩ := effect_halts he hhalts
      exact .inl ⟨hi, hI, by simp [applyEffect, Effect.apply, hhalts]⟩

end Sys2Proof.Machine
end

section
/-! PROOFS. Reset (70_reset_and_hazards, O16): the state it leaves from any state, and the reset state as one it leaves as it
is. -/

namespace Sys2Proof.Machine

/-- `Reset()` (70 R340): the registers of 10 R38, the vector's two reads as the whole record; what R341 lists is kept. -/
theorem hostReset_eq (s : State) :
    hostReset s = { s with
      a := 0x00, x := 0x00, y := 0x00, sp := 0xFD, p := 0x24, run := .running
      pc := wordAt s 0xFFFC 0xFFFD, events := wordReads s 0xFFFC 0xFFFD } := by
  rw [hostReset, memRead16, memReadPair_eq]
  rfl

/-- No byte of the reset state's memory is listed (20 R67). -/
theorem byteAt_reset (k : Addr) : byteAt State.reset k = Memory.unlisted := Memory.get_nil k.toNat

/-- The reset state is a fixed point of reset: both reads of the vector answer the unlisted byte. -/
theorem hostReset_reset : hostReset State.reset = State.reset := by
  rw [hostReset_eq, wordAt, wordReads, byteAt_reset, byteAt_reset]
  rfl

/-- Settles O16: the sequence by `hostReset_eq`, the reset state's fields by its definition. -/
theorem resetSequence : Obligations.ResetSequence := by
  unfold Obligations.ResetSequence
  exact ⟨hostReset_eq, rfl, rfl, rfl, rfl, rfl, rfl, rfl, rfl, rfl, rfl, rfl, hostReset_reset⟩

end Sys2Proof.Machine
end
